-- ==== Sys2Proof/Word.lean ====
section
/-! DEFINITION. The value types: 32-bit words, bytes, the real type `R` of 00_scope.md R10 in its reference
instantiation (the values of IEEE 754 binary32), and complex pairs `C` (R13). -/

namespace Sys2Proof

/-- A command, operand, response or register word (R7: W = 32). -/
abbrev Word := BitVec 32

abbrev Byte := BitVec 8

/-- The real type `R` of R10, reference instantiation: exactly the values of IEEE 754 binary32, one for each
32-bit pattern. `num neg mag` is a zero, a finite value or an infinity: `mag` is bits [30:0] of the pattern, at most
0x7F800000 (infinity). `nan neg frac` is a NaN, whose bits [30:0] are `0x7F800001 + frac`. -/
inductive R where
  | nan (neg : Bool) (frac : Fin 8388607)
  | num (neg : Bool) (mag : Fin 2139095041)
deriving DecidableEq, Repr

/-- A complex value (R13): real part first. -/
structure C where
  re : R
  im : R
deriving DecidableEq, Repr

/-- The non-negative value whose binary32 pattern is `mag`. -/
def R.ofBits (mag : Fin 2139095041) : R := .num false mag

def R.zero : R := R.ofBits 0
def C.zero : C := ⟨R.zero, R.zero⟩

end Sys2Proof
end

