-- ==== Sys2Proof/Config.lean ====
section
/-! DEFINITION. What is fixed for this hardware: the synthesis parameters of 00_scope.md R7, the named numeric
constants of the rules, and the free values, which are constants without a body: nothing in Lean can evaluate them. -/

namespace Sys2Proof.Config

/-! ### Synthesis parameters (R7) -/

/-- N_MAX, the largest preamble length. -/
def nMax : Nat := 1024
/-- K_MAX, the largest samples-per-symbol. -/
def kMax : Nat := 16
/-- M_MAX, the largest filter semi-length. -/
def mMax : Nat := 8
/-- P_MAX, the largest number of polyphase branches. -/
def pMax : Nat := 64
/-- L_MAX = 2 * K_MAX * M_MAX + 1, the largest number of taps per branch. -/
def lMax : Nat := 257
/-- COEF_WORDS = P_MAX * L_MAX. -/
def coefWords : Nat := 16448
/-- PAYLOAD_CAP, in bytes. -/
def payloadCap : Nat := 4096
/-- BIT_CAP = 9 * 8 * (PAYLOAD_CAP + 4). -/
def bitCap : Nat := 295200
/-- N_EXEC_MAX, the largest 24-bit sample count. -/
def nExecMax : Nat := 16777215

/-- E_MIN = 2^-40, the AGC energy floor. -/
def eMin : R := R.ofBits 0x2B800000
/-- E_MAX = 2^64, the AGC energy ceiling. -/
def eMax : R := R.ofBits 0x5F800000
/-- E_DET_MIN = 2^-40, the detector energy guard. -/
def eDetMin : R := R.ofBits 0x2B800000
/-- E_REF_MAX = 2^100, the largest raw reference energy. -/
def eRefMax : R := R.ofBits 0x71800000
/-- E_TED_MAX = 1, the saturation bound of the timing error. -/
def eTedMax : R := R.ofBits 0x3F800000

/-! ### Literals of the rules (R11) -/

def one : R := R.ofBits 0x3F800000
def two : R := R.ofBits 0x40000000
def three : R := R.ofBits 0x40400000
def four : R := R.ofBits 0x40800000
def eight : R := R.ofBits 0x41000000
def half : R := R.ofBits 0x3F000000
def negHalf : R := .num true 0x3F000000
def negOne : R := .num true 0x3F800000
/-- 65536, the bound of AGC_TARGET (R48). -/
def agcTargetMax : R := R.ofBits 0x47800000
/-- PI, the R value nearest pi (R167, R275: 0x40490FDB). -/
def pi : R := R.ofBits 0x40490FDB
/-- -PI, the lower bound of R167. -/
def negPi : R := .num true 0x40490FDB
/-- TWO_PI = 2 * PI (R275: 0x40C90FDB). -/
def twoPi : R := R.ofBits 0x40C90FDB
/-- PHASE_SCALE, the R value nearest 2^31/pi (R152: 0x4E22F983). -/
def phaseScale : R := R.ofBits 0x4E22F983
/-- RAD_SCALE, the R value nearest pi/2^31 (R153: 0x30C90FDB). -/
def radScale : R := R.ofBits 0x30C90FDB
/-- 2^62, the guard of `toPhase` (R152). -/
def twoPow62 : R := R.ofBits 0x5E800000
/-- -2^62. -/
def negTwoPow62 : R := .num true 0x5E800000
/-- RH, the R value nearest 1/sqrt(2) (R274: 0x3F3504F3). -/
def rh : R := R.ofBits 0x3F3504F3
def negRh : R := .num true 0x3F3504F3
/-- NRM of 16QAM, the R value nearest sqrt(10) (R276: 0x404A62C2). -/
def nrm16 : R := R.ofBits 0x404A62C2
/-- NRM of 64QAM, the R value nearest sqrt(42) (R276: 0x40CF623A). -/
def nrm64 : R := R.ofBits 0x40CF623A
/-- NRM of 256QAM, the R value nearest sqrt(170) (R276: 0x41509D4E). -/
def nrm256 : R := R.ofBits 0x41509D4E

/-! ### Free values

Each result depends only on its operands (R11), so each free value is a function of them, without a body. -/

/-- The operations of `R` whose result can be a NaN. -/
inductive NumOp where
  | neg | add | sub | mul | div | sqrt | atan2
deriving DecidableEq, Repr

/-- The sign and the fraction of the NaN an operation returns for the operands whose patterns are given (a second
operand of 0 for a unary operation). The spec does not specify them ("Its bits are not specified", 95_test_vectors.md
M-12). DESIGN CHOICE, log 2. Safe. -/
opaque nanResult : NumOp → Word → Word → Bool × Fin 8388607

/-- `sqrt` of a value below 0, as a pattern: "the value is unconstrained" (R11). DESIGN CHOICE, log 3. Safe. -/
opaque sqrtNegative : Word → Word

/-- `atan2(y, x)` where an operand is infinite or both are zero, but for a zero `y` with `x > 0` (R12): sign and
pattern, of magnitude at most PI, the range R11 gives with both ends rounded, so that -PI is among them (log 29). No rule
calls it on two zeros. DESIGN CHOICE, log 4. Safe. -/
opaque atan2Unstated : Word → Word → Bool × Fin 0x40490FDC

/-- The sign of the zero `atan2(-0, x)` for `x > 0`. DESIGN CHOICE, log 5. Safe. -/
opaque atan2ZeroSign : Word → Word → Bool

/-- `floorInt` and `roundHalfEven` of a value that is not finite, where the rules never use them (R11, R152).
DESIGN CHOICE, log 6. Safe. -/
opaque intOfNonFinite : Word → Int

/-- Byte `i` of the message that the decode chain returns where a frame part has fewer bits than the chain needs (a
scheme of fewer bits per symbol was selected within the frame, R463): `chain_decode` is stated for `len(v) >= L2` alone
(R316). The first argument is the draw (`State.draws`), a fresh one each time. DESIGN CHOICE, log 17. Safe. -/
opaque shortDecodeByte : Nat → Nat → Byte

/-- The validity flag in the same case. DESIGN CHOICE, log 17. Safe. -/
opaque shortDecodeValid : Nat → Bool

end Sys2Proof.Config
end

