-- ==== Sys2Proof/Syntax.lean ====
section
/-! DEFINITION. The commands of command set CMD-1 (30_encoding.md), whole: one constructor of `Instr` for each row
of the opcode map R116. A command carries the immediate fields of its format (R113) and the operand words the
transport delivered with it (R110). -/

namespace Sys2Proof

/-- The 33 operations of the opcode map (R116), in its order. -/
inductive Op where
  | nop | resetBlock | configure | regRead | regWrite | preWrite | coefWrite
  | execute | resetStats | getStats | getThreshold | setThreshold
  | oscMixDown | oscMixUp | oscCexp | oscStep | oscAdjPhase | oscAdjFreq | pllSetBw | pllStep
  | agcSetBw | agcExecute | agcSeed | ssSetBw | ssExecute
  | detPush | detReset | demSetScheme | demDemod
  | dilDeinterleave | fecDecode | crcCheck | decDecode
deriving DecidableEq, Repr

/-- A command: its immediate fields, then its operand words `opnd[0..n_op-1]`. The operand words stand as the
transport delivered them; a wrong number of them makes a command that its meaning fails with BAD_OPERANDS (R112). -/
inductive Instr where
  | nop (opnd : List Word)
  | resetBlock (opnd : List Word)
  | configure (opnd : List Word)
  | regRead (addr : BitVec 8) (opnd : List Word)
  | regWrite (addr : BitVec 8) (opnd : List Word)
  | preWrite (idx : BitVec 10) (opnd : List Word)
  | coefWrite (idx : BitVec 15) (opnd : List Word)
  | execute (n : BitVec 24) (opnd : List Word)
  | resetStats (opnd : List Word)
  | getStats (opnd : List Word)
  | getThreshold (opnd : List Word)
  | setThreshold (opnd : List Word)
  | oscMixDown (opnd : List Word)
  | oscMixUp (opnd : List Word)
  | oscCexp (opnd : List Word)
  | oscStep (opnd : List Word)
  | oscAdjPhase (opnd : List Word)
  | oscAdjFreq (opnd : List Word)
  | pllSetBw (opnd : List Word)
  | pllStep (opnd : List Word)
  | agcSetBw (opnd : List Word)
  | agcExecute (opnd : List Word)
  | agcSeed (opnd : List Word)
  | ssSetBw (opnd : List Word)
  | ssExecute (n : BitVec 24) (opnd : List Word)
  | detPush (opnd : List Word)
  | detReset (opnd : List Word)
  | demSetScheme (id : BitVec 8) (opnd : List Word)
  | demDemod (opnd : List Word)
  | dilDeinterleave (depth : BitVec 24) (opnd : List Word)
  | fecDecode (id : BitVec 8) (opnd : List Word)
  | crcCheck (opnd : List Word)
  | decDecode (fi fo : BitVec 8) (opnd : List Word)
deriving DecidableEq, Repr

/-- A command transaction as it crosses the command port (R110): the command word and the operand words, whose
number the transport conveys. -/
structure Transaction where
  cmd : Word
  opnd : List Word
deriving DecidableEq, Repr

/-- The operation a command performs. -/
def Instr.op : Instr → Op
  | .nop _ => .nop
  | .resetBlock _ => .resetBlock
  | .configure _ => .configure
  | .regRead _ _ => .regRead
  | .regWrite _ _ => .regWrite
  | .preWrite _ _ => .preWrite
  | .coefWrite _ _ => .coefWrite
  | .execute _ _ => .execute
  | .resetStats _ => .resetStats
  | .getStats _ => .getStats
  | .getThreshold _ => .getThreshold
  | .setThreshold _ => .setThreshold
  | .oscMixDown _ => .oscMixDown
  | .oscMixUp _ => .oscMixUp
  | .oscCexp _ => .oscCexp
  | .oscStep _ => .oscStep
  | .oscAdjPhase _ => .oscAdjPhase
  | .oscAdjFreq _ => .oscAdjFreq
  | .pllSetBw _ => .pllSetBw
  | .pllStep _ => .pllStep
  | .agcSetBw _ => .agcSetBw
  | .agcExecute _ => .agcExecute
  | .agcSeed _ => .agcSeed
  | .ssSetBw _ => .ssSetBw
  | .ssExecute _ _ => .ssExecute
  | .detPush _ => .detPush
  | .detReset _ => .detReset
  | .demSetScheme _ _ => .demSetScheme
  | .demDemod _ => .demDemod
  | .dilDeinterleave _ _ => .dilDeinterleave
  | .fecDecode _ _ => .fecDecode
  | .crcCheck _ => .crcCheck
  | .decDecode _ _ _ => .decDecode

/-- The operand words of a command. -/
def Instr.opnd : Instr → List Word
  | .nop ws | .resetBlock ws | .configure ws | .regRead _ ws | .regWrite _ ws | .preWrite _ ws
  | .coefWrite _ ws | .execute _ ws | .resetStats ws | .getStats ws | .getThreshold ws
  | .setThreshold ws | .oscMixDown ws | .oscMixUp ws | .oscCexp ws | .oscStep ws | .oscAdjPhase ws
  | .oscAdjFreq ws | .pllSetBw ws | .pllStep ws | .agcSetBw ws | .agcExecute ws | .agcSeed ws
  | .ssSetBw ws | .ssExecute _ ws | .detPush ws | .detReset ws | .demSetScheme _ ws | .demDemod ws
  | .dilDeinterleave _ ws | .fecDecode _ ws | .crcCheck ws | .decDecode _ _ ws => ws

end Sys2Proof
end

