-- ==== Sys2Proof/WellFormed.lean ====
section
/-! DEFINITION. When a command is well formed: its operand count is the one R117 gives, and its leading counts are
present and within their bounds (30_encoding.md R112, R117). A command that is not well formed is no error of the
model: its meaning fails with BAD_OPERANDS (60_exceptions.md R424). -/

namespace Sys2Proof

/-- `ceil(L/32)`, the words of `BITS(L)` (R115). -/
def bitsWords (l : Nat) : Nat := (l + 31) / 32

/-- `ceil(n/4)`, the words of `BYTES(n)` (R115). -/
def bytesWords (n : Nat) : Nat := (n + 3) / 4

/-- The count of DIL_DEINTERLEAVE and FEC_DECODE: `1 + ceil(L/32)` with `L = opnd[0] <= BIT_CAP` (R117). -/
def bitsCount : List Word → Option Nat
  | [] => none
  | l :: _ => if l.toNat ≤ Config.bitCap then some (1 + bitsWords l.toNat) else none

/-- The count of CRC_CHECK: `1 + ceil((n+4)/4)` with `n = opnd[0] <= PAYLOAD_CAP` (R117). -/
def crcCount : List Word → Option Nat
  | [] => none
  | n :: _ => if n.toNat ≤ Config.payloadCap then some (1 + bytesWords (n.toNat + 4)) else none

/-- The count of DEC_DECODE: `3 + ceil(L/32)` with `L = opnd[2] <= BIT_CAP` (R117). -/
def decCount : List Word → Option Nat
  | _ :: _ :: l :: _ => if l.toNat ≤ Config.bitCap then some (3 + bitsWords l.toNat) else none
  | _ => none

/-- The operand count R117 expects; `none` where a leading operand is absent or above its bound. -/
def Instr.expectedCount : Instr → Option Nat
  | .nop _ | .resetBlock _ | .configure _ | .regRead _ _ | .resetStats _ | .getStats _ | .getThreshold _
  | .oscCexp _ | .oscStep _ | .detReset _ | .demSetScheme _ _ => some 0
  | .regWrite _ _ | .coefWrite _ _ | .setThreshold _ | .oscAdjPhase _ | .oscAdjFreq _ | .pllSetBw _ | .pllStep _
  | .agcSetBw _ | .agcSeed _ | .ssSetBw _ => some 1
  | .preWrite _ _ | .oscMixDown _ | .oscMixUp _ | .agcExecute _ | .detPush _ | .demDemod _ => some 2
  | .execute n _ | .ssExecute n _ => some (2 * n.toNat)
  | .dilDeinterleave _ opnd | .fecDecode _ opnd => bitsCount opnd
  | .crcCheck opnd => crcCount opnd
  | .decDecode _ _ opnd => decCount opnd

/-- A well-formed command: `n_op` equals the expected count (R112). -/
def Instr.wellFormed (i : Instr) : Bool := i.expectedCount == some i.opnd.length

end Sys2Proof
end

