-- ==== Sys2Proof/Decode.lean ====
section
/-! DEFINITION. The encoding of command words (30_encoding.md): opcode map R116, formats R113, and `cmd = (op << 24) |
imm` (R111, R123). `decode` is total and rejects by name; `encode` is written from the same tables. -/

namespace Sys2Proof

/-- The opcode of an operation (R116). -/
def Op.code : Op → BitVec 8
  | .nop => 0x00 | .resetBlock => 0x01 | .configure => 0x02 | .regRead => 0x03 | .regWrite => 0x04
  | .preWrite => 0x05 | .coefWrite => 0x06
  | .execute => 0x10 | .resetStats => 0x11 | .getStats => 0x12 | .getThreshold => 0x13 | .setThreshold => 0x14
  | .oscMixDown => 0x20 | .oscMixUp => 0x21 | .oscCexp => 0x22 | .oscStep => 0x23 | .oscAdjPhase => 0x24
  | .oscAdjFreq => 0x25 | .pllSetBw => 0x28 | .pllStep => 0x29
  | .agcSetBw => 0x30 | .agcExecute => 0x31 | .agcSeed => 0x32 | .ssSetBw => 0x38 | .ssExecute => 0x39
  | .detPush => 0x40 | .detReset => 0x41 | .demSetScheme => 0x48 | .demDemod => 0x49
  | .dilDeinterleave => 0x50 | .fecDecode => 0x51 | .crcCheck => 0x52 | .decDecode => 0x53

/-- The operation of an opcode; an opcode outside the map is reserved (R119). -/
def Op.ofCode (b : BitVec 8) : Option Op :=
  match b.toNat with
  | 0x00 => some .nop | 0x01 => some .resetBlock | 0x02 => some .configure | 0x03 => some .regRead
  | 0x04 => some .regWrite | 0x05 => some .preWrite | 0x06 => some .coefWrite
  | 0x10 => some .execute | 0x11 => some .resetStats | 0x12 => some .getStats | 0x13 => some .getThreshold
  | 0x14 => some .setThreshold
  | 0x20 => some .oscMixDown | 0x21 => some .oscMixUp | 0x22 => some .oscCexp | 0x23 => some .oscStep
  | 0x24 => some .oscAdjPhase | 0x25 => some .oscAdjFreq | 0x28 => some .pllSetBw | 0x29 => some .pllStep
  | 0x30 => some .agcSetBw | 0x31 => some .agcExecute | 0x32 => some .agcSeed | 0x38 => some .ssSetBw
  | 0x39 => some .ssExecute
  | 0x40 => some .detPush | 0x41 => some .detReset | 0x48 => some .demSetScheme | 0x49 => some .demDemod
  | 0x50 => some .dilDeinterleave | 0x51 => some .fecDecode | 0x52 => some .crcCheck | 0x53 => some .decDecode
  | _ => none

/-- How many low bits of `imm` the format of an operation uses; the bits above are reserved and must be zero (R113):
Z 0, A8 and S8 8, I10 10, I15 15, F16 16, N24 and DP24 24. -/
def Op.immBits : Op → Nat
  | .regRead | .regWrite | .demSetScheme | .fecDecode => 8
  | .preWrite => 10
  | .coefWrite => 15
  | .decDecode => 16
  | .execute | .ssExecute | .dilDeinterleave => 24
  | _ => 0

/-- Why a command word stands for no command: both reasons fail with ILLEGAL_CMD (R112, R119). -/
inductive DecodeError where
  /-- the opcode is not in the map R116 -/
  | reservedOp (op : BitVec 8)
  /-- a listed opcode with a reserved imm bit set -/
  | reservedImm (op : Op)
deriving DecidableEq, Repr

/-- The command of an operation, an immediate whose reserved bits are zero, and operand words (R113, R114). -/
def Op.toInstr (imm : BitVec 24) (opnd : List Word) : Op → Instr
  | .nop => .nop opnd
  | .resetBlock => .resetBlock opnd
  | .configure => .configure opnd
  | .regRead => .regRead (imm.extractLsb' 0 8) opnd
  | .regWrite => .regWrite (imm.extractLsb' 0 8) opnd
  | .preWrite => .preWrite (imm.extractLsb' 0 10) opnd
  | .coefWrite => .coefWrite (imm.extractLsb' 0 15) opnd
  | .execute => .execute imm opnd
  | .resetStats => .resetStats opnd
  | .getStats => .getStats opnd
  | .getThreshold => .getThreshold opnd
  | .setThreshold => .setThreshold opnd
  | .oscMixDown => .oscMixDown opnd
  | .oscMixUp => .oscMixUp opnd
  | .oscCexp => .oscCexp opnd
  | .oscStep => .oscStep opnd
  | .oscAdjPhase => .oscAdjPhase opnd
  | .oscAdjFreq => .oscAdjFreq opnd
  | .pllSetBw => .pllSetBw opnd
  | .pllStep => .pllStep opnd
  | .agcSetBw => .agcSetBw opnd
  | .agcExecute => .agcExecute opnd
  | .agcSeed => .agcSeed opnd
  | .ssSetBw => .ssSetBw opnd
  | .ssExecute => .ssExecute imm opnd
  | .detPush => .detPush opnd
  | .detReset => .detReset opnd
  | .demSetScheme => .demSetScheme (imm.extractLsb' 0 8) opnd
  | .demDemod => .demDemod opnd
  | .dilDeinterleave => .dilDeinterleave imm opnd
  | .fecDecode => .fecDecode (imm.extractLsb' 0 8) opnd
  | .crcCheck => .crcCheck opnd
  | .decDecode => .decDecode (imm.extractLsb' 0 8) (imm.extractLsb' 8 8) opnd

/-- The command a transaction stands for. Decoding depends on the command word alone (R120): the operand words are
carried along, and their number is checked by the command's meaning (R112). -/
def decode (t : Transaction) : Except DecodeError Instr :=
  let imm := t.cmd.extractLsb' 0 24
  match Op.ofCode (t.cmd.extractLsb' 24 8) with
  | none => .error (.reservedOp (t.cmd.extractLsb' 24 8))
  | some o => if imm.toNat < 2 ^ o.immBits then .ok (o.toInstr imm t.opnd) else .error (.reservedImm o)

/-- The immediate of a command, its fields at the places R113 gives them. -/
def Instr.imm : Instr → BitVec 24
  | .regRead addr _ | .regWrite addr _ => addr.setWidth 24
  | .preWrite idx _ => idx.setWidth 24
  | .coefWrite idx _ => idx.setWidth 24
  | .execute n _ | .ssExecute n _ => n
  | .demSetScheme id _ | .fecDecode id _ => id.setWidth 24
  | .dilDeinterleave depth _ => depth
  | .decDecode fi fo _ => (fo ++ fi).setWidth 24
  | _ => 0

/-- The transaction of a command: the word `(op << 24) | imm` (R123) and its operand words. -/
def encode (i : Instr) : Transaction := ⟨i.op.code ++ i.imm, i.opnd⟩

/-- The transaction whose bits are the low `nbits` bits of `w`, numbered as spec/opcode_table.json numbers them, all
later bits zero: the command word, then as many operand words as the command expects (R117), which is what the
transport would deliver with it (R110). -/
def tableTransaction (nbits w : Nat) : Transaction :=
  let v := w % 2 ^ nbits
  let word : Nat → Word := fun j => BitVec.ofNat 32 (v / 2 ^ (32 * j))
  let leading := [word 1, word 2, word 3]
  let count :=
    match decode ⟨word 0, leading⟩ with
    | .ok i => (i.expectedCount).getD 0
    | .error _ => 0
  ⟨word 0, (List.range count).map fun j => word (j + 1)⟩

/-- The instruction the decoder reads from the bits `w` of an opcode-table row of `nbits` bits. -/
def decodeTableWord (nbits w : Nat) : Option Instr :=
  match decode (tableTransaction nbits w) with
  | .ok i => some i
  | .error _ => none

end Sys2Proof
end

