-- ==== Sys2Proof/Machine/State.lean ====
section
/-! DEFINITION. The architectural state of 10_state.md and 20_memory.md as plain data, and `State.reset`. -/

namespace Sys2Proof.Machine

/-- A memory or buffer of `α`, entry by entry: (index, value) pairs in one canonical form, indices strictly rising,
below the capacity, and no entry equal to what an unlisted index reads as, which is zero (R65, R83, R84; log 12). -/
abbrev Cells (α : Type) := List (Nat × α)

/-- The six schemes of R270, ids 1 to 6. -/
inductive Scheme where
  | bpsk | qpsk | psk8 | qam16 | qam64 | qam256
deriving DecidableEq, Repr

/-- The three FEC codes of R303, ids 0 to 2. -/
inductive Fec where
  | none | rep3 | hamming74
deriving DecidableEq, Repr

/-- The phases of the frame state machine (R60). -/
inductive Phase where
  | seek | header | payload | reset
deriving DecidableEq, Repr

/-- The source of the reference (R43): PRE_SRC 0 or 1. -/
inductive PreSource where
  | memory | generator
deriving DecidableEq, Repr

/-- The error codes of R425. Codes 9 to 255 are never produced. -/
inductive ErrCode where
  | none | illegalCmd | badOperands | notConfigured | cfgBadPreamble | cfgBadMod | cfgBadFec | cfgBadParam | badReg
deriving DecidableEq, Repr

/-- The CFG registers of the register map R32, addresses 0x08 to 0x1C in order. -/
inductive CfgReg where
  | kSps | mSemi | beta | npfb | nPre | preSrc | prePoly | preInit | hdrMod | hdrFec | intlv
  | agcTarget | agcBwWide | agcBwNarrow | pllBwWide | pllBwNarrow | ssBwWide | ssBwNarrow | ssRmax
  | maxPayload | mode
deriving DecidableEq, Repr

/-- The mapped registers of R32. -/
inductive Reg where
  | status | err | symcnt | hdrSyms | paySyms
  | cfg (r : CfgReg)
  | thresh | ncoPhase | ncoFreq | agcEnergy | agcBw | pllBw | ssBw | demScheme | ssTau | ssRate
  | detTau | detDfreq | detPhase | detGain | detMetric | hdrWord0 | hdrWord1
  | framesDetected | headersValid | payloadsValid | rssi | cfo | evm
deriving DecidableEq, Repr

/-- The CFG register words as stored (R33: "exactly the 32-bit word last written"). -/
structure CfgWords where
  kSps : Word
  mSemi : Word
  beta : Word
  npfb : Word
  nPre : Word
  preSrc : Word
  prePoly : Word
  preInit : Word
  hdrMod : Word
  hdrFec : Word
  intlv : Word
  agcTarget : Word
  agcBwWide : Word
  agcBwNarrow : Word
  pllBwWide : Word
  pllBwNarrow : Word
  ssBwWide : Word
  ssBwNarrow : Word
  ssRmax : Word
  maxPayload : Word
  mode : Word
deriving DecidableEq, Repr

/-- The latched configuration `cfg` (R34), its derived values last. -/
structure Cfg where
  k : Nat
  m : Nat
  beta : R
  P : Nat
  N : Nat
  preSrc : PreSource
  prePoly : Word
  preInit : Word
  hdrMod : Scheme
  hdrFi : Fec
  hdrFo : Fec
  D1 : Nat
  D2 : Nat
  A : R
  agcBwW : R
  agcBwN : R
  pllBwW : R
  pllBwN : R
  ssBwW : R
  ssBwN : R
  rmax : R
  maxPayload : Nat
  bwSwitch : Bool
  cfoEst : Bool
  L : Nat
  hdrBps : Nat
  hdrSyms : Nat
deriving DecidableEq, Repr

/-- The oscillator (R56): phase, frequency, and the frequency before the last detection seeded it. -/
structure Nco where
  theta : Word
  omega : Word
  omegaSeek : Word
deriving DecidableEq, Repr

/-- The AGC (R57): smoothed energy and bandwidth. -/
structure Agc where
  e : R
  bw : R
deriving DecidableEq, Repr

/-- The symbol synchroniser (R58). Entry 0 of `buf` is the newest sample; entry (b, j) of the coefficient table `H`
stands at index `b * L_MAX + j`. -/
structure SymSync where
  buf : Cells C
  tau : R
  r : R
  half : Bool
  yprev : C
  ymid : C
  bw : R
  H : Cells R
deriving DecidableEq, Repr

/-- The detector (R59): reference, window (oldest first), squared magnitudes, and the history of the last pushes. -/
structure Detector where
  ref : Cells C
  win : Cells C
  en : Cells R
  fill : Nat
  pend : Bool
  rho1 : R
  rho2 : R
  S1 : C
  S2 : C
  Sa1 : C
  Sb1 : C
deriving DecidableEq, Repr

/-- The descriptor of the last valid header (R61), all zero before one. -/
structure Header where
  mod : Byte
  bps : Byte
  len : BitVec 16
  fecI : Fec
  fecO : Fec
deriving DecidableEq, Repr

/-- The frame state machine (R60, R61). -/
structure FrameSm where
  phase : Phase
  cnt : Nat
  bits : List Bool
  evmAcc : R
  hdr : Header
  hdrSyms : Nat
  paySyms : Nat
deriving DecidableEq, Repr

/-- The statistics (R63). -/
structure Stats where
  nDet : Word
  nHdr : Word
  nPay : Word
  rssi : R
  cfo : R
  evm : R
deriving DecidableEq, Repr

/-- A detection (R247), and the last-detection registers (R64). -/
structure Detection where
  tau : R
  dw : R
  phi : R
  gain : R
  metric : R
deriving DecidableEq, Repr

/-- The error record (R36). -/
structure ErrRec where
  first : ErrCode
  last : ErrCode
deriving DecidableEq, Repr

/-- The state of one block. The first three fields are its ports: commands issued and not yet executed, oldest first
(log 10), the response of every executed command, oldest first (log 11), and the records on the frame port (R80). The
last is the model's own: how many free values of the decode chain have been drawn (log 17). -/
structure State where
  cmds : List Transaction
  resp : List (List Word)
  frames : List (List Word)
  words : CfgWords
  cfg : Cfg
  preMem : Cells C
  coefMem : Cells R
  nco : Nco
  pllBw : R
  agc : Agc
  ss : SymSync
  det : Detector
  fsm : FrameSm
  demScheme : Scheme
  stats : Stats
  lastDet : Detection
  hdrW0 : Word
  hdrW1 : Word
  configured : Bool
  err : ErrRec
  thresh : R
  draws : Nat
deriving DecidableEq, Repr

/-- Why the machine stops with a fault: never. The block has no fault state, no trap and no stop (R420, R430); a
failing command is a next state with the error recorded in ERR (R421). -/
inductive Fault where
deriving DecidableEq, Repr

/-- Why an instruction has no meaning. -/
inductive Refusal where
  /-- Raised by `exec` alone, for a command without a meaning; no command is left without one. Safe. -/
  | notModelled (mnemonic : String)
deriving DecidableEq, Repr

/-! ### Reset values -/

/-- The reset words of the CFG registers (R32). -/
def CfgWords.reset : CfgWords where
  kSps := 2
  mSemi := 3
  beta := 0x3E800000
  npfb := 32
  nPre := 64
  preSrc := 1
  prePoly := 0x00000043
  preInit := 0x00000001
  hdrMod := 2
  hdrFec := 0x00000000
  intlv := 0x00000801
  agcTarget := 0x3F800000
  agcBwWide := 0x3D800000
  agcBwNarrow := 0x3C000000
  pllBwWide := 0x3D800000
  pllBwNarrow := 0x3C800000
  ssBwWide := 0x3E800000
  ssBwNarrow := 0x3C800000
  ssRmax := 0x3B000000
  maxPayload := 4096
  mode := 0x00000000

/-- `cfg` at reset: the values the reset words decode to (R34). -/
def Cfg.reset : Cfg where
  k := 2
  m := 3
  beta := R.ofBits 0x3E800000
  P := 32
  N := 64
  preSrc := .generator
  prePoly := 0x00000043
  preInit := 0x00000001
  hdrMod := .qpsk
  hdrFi := .none
  hdrFo := .none
  D1 := 1
  D2 := 8
  A := R.ofBits 0x3F800000
  agcBwW := R.ofBits 0x3D800000
  agcBwN := R.ofBits 0x3C000000
  pllBwW := R.ofBits 0x3D800000
  pllBwN := R.ofBits 0x3C800000
  ssBwW := R.ofBits 0x3E800000
  ssBwN := R.ofBits 0x3C800000
  rmax := R.ofBits 0x3B000000
  maxPayload := 4096
  bwSwitch := false
  cfoEst := false
  L := 13
  hdrBps := 2
  hdrSyms := 40

/-- The state after power-on (R450): every register, memory and internal element at the value of R32 and R56 to R65,
nothing issued, nothing answered, nothing on the frame port. -/
def State.reset : State where
  cmds := []
  resp := []
  frames := []
  words := CfgWords.reset
  cfg := Cfg.reset
  preMem := []
  coefMem := []
  nco := { theta := 0, omega := 0, omegaSeek := 0 }
  pllBw := R.ofBits 0x3D800000
  agc := { e := R.ofBits 0x3F800000, bw := R.ofBits 0x3D800000 }
  ss :=
    { buf := [], tau := R.ofBits 0x3F800000, r := R.zero, half := false, yprev := C.zero, ymid := C.zero,
      bw := R.ofBits 0x3E800000, H := [] }
  det :=
    { ref := [], win := [], en := [], fill := 0, pend := false, rho1 := R.zero, rho2 := R.zero,
      S1 := C.zero, S2 := C.zero, Sa1 := C.zero, Sb1 := C.zero }
  fsm :=
    { phase := .seek, cnt := 0, bits := [], evmAcc := R.zero,
      hdr := { mod := 0, bps := 0, len := 0, fecI := .none, fecO := .none }, hdrSyms := 0, paySyms := 0 }
  demScheme := .qpsk
  stats := { nDet := 0, nHdr := 0, nPay := 0, rssi := R.zero, cfo := R.zero, evm := R.zero }
  lastDet := { tau := R.zero, dw := R.zero, phi := R.zero, gain := R.zero, metric := R.zero }
  hdrW0 := 0
  hdrW1 := 0
  configured := false
  err := { first := .none, last := .none }
  thresh := R.ofBits 0x3F000000
  draws := 0

end Sys2Proof.Machine
end

