-- ==== Sys2Proof/Machine/Num.lean ====
section
/-! DEFINITION. The operations of the real type `R` (00_scope.md R11) in the reference instantiation, IEEE 754 binary32
with round-to-nearest-even, and of complex values (R13); the phase conversions and the sinusoid of 40_oscillator_pll.md.

Every finite value is a whole number of units of 2^-149. An operation converts its operands to units, computes exactly
in the naturals, and narrows once, at the end, by `roundUnits`. -/

namespace Sys2Proof

/-! ### Words and values (R14) -/

/-- `decR`: the value a binary32 pattern denotes. -/
def decR (w : Word) : R :=
  let neg := decide (2 ^ 31 ≤ w.toNat)
  let m := w.toNat % 2 ^ 31
  if h : m < 2139095041 then .num neg ⟨m, h⟩
  else .nan neg ⟨m - 2139095041, by have : m < 2 ^ 31 := Nat.mod_lt _ (by decide); omega⟩

/-- The number a pattern's bits [30:0] form, with the sign bit above them. -/
def packSign (neg : Bool) (m : Nat) : Word := BitVec.ofNat 32 (if neg then 2 ^ 31 + m else m)

/-- `encR`: the binary32 pattern of a value. -/
def encR : R → Word
  | .num neg mag => packSign neg mag.val
  | .nan neg frac => packSign neg (2139095041 + frac.val)

/-! ### Rounding -/

/-- The pattern of infinity. -/
def infBits : Nat := 0x7F800000

/-- The magnitude of a finite pattern in units of 2^-149: the fraction for a subnormal, else the 24-bit significand
shifted by the exponent field less 1. -/
def units (mag : Nat) : Nat :=
  if mag / 2 ^ 23 = 0 then mag else (2 ^ 23 + mag % 2 ^ 23) * 2 ^ (mag / 2 ^ 23 - 1)

/-- The integer nearest `a / b`, ties to even. -/
def rne (a b : Nat) : Nat :=
  let q := a / b
  let r := a % b
  if b < 2 * r || (2 * r == b && q % 2 == 1) then q + 1 else q

/-- The pattern nearest `num / den` units, ties to even, infinity on overflow. From 2^24 units on, the spacing is the
power of two that leaves 24 significant bits. -/
def roundUnits (num den : Nat) : Nat :=
  let q := num / den
  let sh := if q < 2 ^ 24 then 0 else q.log2 - 23
  min (sh * 2 ^ 23 + rne num (den * 2 ^ sh)) infBits

/-- The value with the given sign and pattern, saturated at infinity. -/
def R.mk (neg : Bool) (bits : Nat) : R := .num neg ⟨min bits infBits, by unfold infBits; omega⟩

def R.inf (neg : Bool) : R := .num neg 0x7F800000

/-- The value nearest `num / den` units, with a sign. -/
def R.round (neg : Bool) (num den : Nat) : R := R.mk neg (roundUnits num den)

/-- A NaN result: its bits are a free value (log 2). -/
def R.freeNan (op : Config.NumOp) (a b : R) : R :=
  .nan (Config.nanResult op (encR a) (encR b)).1 (Config.nanResult op (encR a) (encR b)).2

/-! ### Comparisons: false when an operand is a NaN (R11) -/

/-- A value that is no NaN as an integer that orders like it; the two zeros are equal. -/
def R.ord : R → Option Int
  | .nan _ _ => none
  | .num neg mag =>
    match mag.val with
    | 0 => some 0
    | m + 1 => if neg then some (-(m + 1 : Int)) else some (m + 1)

def R.lt (a b : R) : Bool :=
  match a.ord, b.ord with
  | some x, some y => decide (x < y)
  | _, _ => false

def R.le (a b : R) : Bool :=
  match a.ord, b.ord with
  | some x, some y => decide (x ≤ y)
  | _, _ => false

def R.eq (a b : R) : Bool :=
  match a.ord, b.ord with
  | some x, some y => decide (x = y)
  | _, _ => false

def R.gt (a b : R) : Bool := b.lt a
def R.ge (a b : R) : Bool := b.le a

/-- `lo <= v and v <= hi`. -/
def R.within (v lo hi : R) : Bool := v.ge lo && v.le hi

/-! ### The IEEE 754 operations -/

/-- The unary minus of R13's `conj`. R11 lists no such operation: the sign is reversed, so that the minus of +0 is -0,
where `0 - x` would give +0 (DESIGN CHOICE, log 22). -/
def R.neg : R → R
  | .num neg mag => .num (!neg) mag
  | .nan neg frac => R.freeNan .neg (.nan neg frac) R.zero

/-- The sum of two values that are no NaN, or `nanAs` where it is not a number (infinities of opposite signs). An exact
zero sum is +0 unless both operands are negative zeros. -/
def addNum (nanAs : R) (na : Bool) (ma : Nat) (nb : Bool) (mb : Nat) : R :=
  if ma = infBits then (if mb = infBits && na != nb then nanAs else R.inf na)
  else if mb = infBits then R.inf nb
  else
    let ua := units ma
    let ub := units mb
    if na = nb then R.round na (ua + ub) 1
    else if ub < ua then R.round na (ua - ub) 1
    else if ua < ub then R.round nb (ub - ua) 1
    else R.zero

def R.add (a b : R) : R :=
  match a, b with
  | .num na ma, .num nb mb => addNum (R.freeNan .add a b) na ma.val nb mb.val
  | _, _ => R.freeNan .add a b

def R.sub (a b : R) : R :=
  match a, b with
  | .num na ma, .num nb mb => addNum (R.freeNan .sub a b) na ma.val (!nb) mb.val
  | _, _ => R.freeNan .sub a b

def R.mul (a b : R) : R :=
  match a, b with
  | .num na ma, .num nb mb =>
    if ma.val = infBits || mb.val = infBits then
      (if ma.val = 0 || mb.val = 0 then R.freeNan .mul a b else R.inf (na != nb))
    else R.round (na != nb) (units ma.val * units mb.val) (2 ^ 149)
  | _, _ => R.freeNan .mul a b

def R.div (a b : R) : R :=
  match a, b with
  | .num na ma, .num nb mb =>
    if ma.val = infBits then (if mb.val = infBits then R.freeNan .div a b else R.inf (na != nb))
    else if mb.val = infBits then R.mk (na != nb) 0
    else if mb.val = 0 then (if ma.val = 0 then R.freeNan .div a b else R.inf (na != nb))
    else R.round (na != nb) (units ma.val * 2 ^ 149) (units mb.val)
  | _, _ => R.freeNan .div a b

/-- The integer square root, bit by bit from bit `n - 1` down: the largest `s` with `s < acc + 2^n` and `s * s <= v`. -/
def isqrtFrom (v : Nat) : Nat → Nat → Nat
  | 0, acc => acc
  | n + 1, acc => isqrtFrom v n (if (acc + 2 ^ n) * (acc + 2 ^ n) ≤ v then acc + 2 ^ n else acc)

/-- The pattern of the square root of a finite positive pattern. `sqrt(u * 2^-149)` is `sqrt(u * 2^149)` units, whose
integer part has at least 75 bits, so that one more bit for the remainder decides the rounding. -/
def sqrtBits (mag : Nat) : Nat :=
  let v := units mag * 2 ^ 149
  let s := isqrtFrom v (v.log2 / 2 + 1) 0
  roundUnits (2 * s + (if s * s = v then 0 else 1)) 2

/-- `sqrt`; of a value below 0 it is unconstrained (R11, log 3). The roots of the two zeros are themselves. -/
def R.sqrt (a : R) : R :=
  match a with
  | .nan _ _ => R.freeNan .sqrt a R.zero
  | .num neg mag =>
    if mag.val = 0 then a
    else if neg then decR (Config.sqrtNegative (encR a))
    else if mag.val = infBits then a
    else R.mk false (sqrtBits mag.val)

/-! ### Conversions between values and integers -/

/-- `ofNat`, rounding to nearest-even. -/
def R.ofNat (n : Nat) : R := R.round false (n * 2 ^ 149) 1

/-- `ofInt`, rounding to nearest-even. -/
def R.ofInt (i : Int) : R := R.round (decide (i < 0)) (i.natAbs * 2 ^ 149) 1

/-- `floorInt`, the floor to an integer. Of a value that is not finite it is a free value (log 6). -/
def R.floorInt (a : R) : Int :=
  match a with
  | .num neg mag =>
    if mag.val = infBits then Config.intOfNonFinite (encR a)
    else if neg then -(((units mag.val + (2 ^ 149 - 1)) / 2 ^ 149 : Nat) : Int)
    else ((units mag.val / 2 ^ 149 : Nat) : Int)
  | .nan _ _ => Config.intOfNonFinite (encR a)

/-- `roundHalfEven`, the nearest integer, ties to even (R152). -/
def R.roundHalfEven (a : R) : Int :=
  match a with
  | .num neg mag =>
    if mag.val = infBits then Config.intOfNonFinite (encR a)
    else
      match rne (units mag.val) (2 ^ 149) with
      | 0 => 0
      | n + 1 => if neg then -((n : Int) + 1) else (n : Int) + 1
  | .nan _ _ => Config.intOfNonFinite (encR a)

/-! ### The arctangent (R11)

`atan(Y/X)` for `0 <= Y <= X` is `X*Y/(X^2+Y^2)` times the sum over n of `c_n`, with `c_0 = 1` and
`c_(n+1) = c_n * (2n+2)/(2n+3) * Y^2/(X^2+Y^2)` (Euler's series: positive terms, ratio at most 1/2). The sum is taken
in fixed point of 192 fraction bits, each term rounded down, so it is low by less than 2^-180 of itself. No result can
lie exactly between two values of `R`; that none lies within 2^-180 of such a midpoint is UNVERIFIED (log 7). -/

/-- Fraction bits of the fixed point in which `atan2` and `cis` are computed. -/
def fracBits : Nat := 192

/-- `floor(pi * 2^192)`. -/
def piFixed : Nat := 0x3243F6A8885A308D313198A2E03707344A4093822299F31D0

/-- Terms `n + 1, n + 2, …` of Euler's series after the term `c`, with ratio base `r`, until a term is 0. -/
def eulerFrom (r : Nat) : Nat → Nat → Nat → Nat
  | 0, _, _ => 0
  | fuel + 1, n, c =>
    let c' := c * r * (2 * n + 2) / ((2 * n + 3) * 2 ^ fracBits)
    if c' = 0 then 0 else c' + eulerFrom r fuel (n + 1) c'

/-- The sum of Euler's series for `Y/X`, in fixed point. -/
def eulerSum (y x : Nat) : Nat :=
  2 ^ fracBits + eulerFrom (y * y * 2 ^ fracBits / (x * x + y * y)) 256 0 (2 ^ fracBits)

/-- `atan(y/x)` for `0 <= y <= x`, `0 < x`, as a fraction: numerator (in fixed point) and denominator. -/
def atanFrac (y x : Nat) : Nat × Nat := (x * y * eulerSum y x, x * x + y * y)

/-- `atan(y/x)` for `0 <= y <= x` in fixed point. -/
def atanFixed (y x : Nat) : Nat := (atanFrac y x).1 / (atanFrac y x).2

/-- The pattern of the angle of the point `(±x, y)`, `x` and `y` not both 0, in `(0, pi)`. Where the angle is below
pi/4 it is rounded from the exact fraction, so that small angles keep full relative accuracy. -/
def angleBits (xneg : Bool) (y x : Nat) : Nat :=
  let unit := 2 ^ fracBits
  if y ≤ x then
    if xneg then roundUnits ((piFixed - atanFixed y x) * 2 ^ 149) unit
    else roundUnits ((atanFrac y x).1 * 2 ^ 149) ((atanFrac y x).2 * unit)
  else
    if xneg then roundUnits ((piFixed / 2 + atanFixed x y) * 2 ^ 149) unit
    else roundUnits ((piFixed / 2 - atanFixed x y) * 2 ^ 149) unit

/-- `atan2(y, x)`, the value nearest the exact angle in `(-pi, pi]` (R11). The range is read as the exact angle's: a
negative `y` just below 0 with `x < 0` rounds to -PI (DESIGN CHOICE, log 29). A zero `y` gives 0 for every `x > 0`,
infinity included (R12), and pi for a finite `x < 0`; the sign of the 0 that `y = -0` gives is a free value (log 5). In
every other case with an infinite operand, and where both operands are zero, the whole result is a free value (log 4);
the overflow of a finite product leads there too (log 21). -/
def R.atan2 (y x : R) : R :=
  match y, x with
  | .num ny my, .num nx mx =>
    if my.val = 0 && !nx && mx.val != 0 then
      (if ny then R.mk (Config.atan2ZeroSign (encR y) (encR x)) 0 else R.zero)
    else if my.val = infBits || mx.val = infBits || (my.val = 0 && mx.val = 0) then
      let free := Config.atan2Unstated (encR y) (encR x)
      R.mk free.1 free.2.val
    else if my.val = 0 then Config.pi
    else R.mk ny (angleBits nx (units my.val) (units mx.val))
  | _, _ => R.freeNan .atan2 y x

/-! ### Clamps (R15, R191) -/

/-- `clamp`: a value that is not at least `lo`, a NaN included, gives `lo`. -/
def R.clamp (v lo hi : R) : R := if !(v.ge lo) then lo else if v.gt hi then hi else v

/-- The same clamp on integers. -/
def clampInt (v lo hi : Int) : Int := if ¬ (lo ≤ v) then lo else if hi < v then hi else v

/-- `fmax(v, c)` of R191. -/
def R.fmax (v c : R) : R := if v.ge c then v else c

/-! ### Complex operations (R13), each in the order the rule writes it -/

def cadd (a b : C) : C := ⟨a.re.add b.re, a.im.add b.im⟩
def csub (a b : C) : C := ⟨a.re.sub b.re, a.im.sub b.im⟩
def conj (a : C) : C := ⟨a.re, a.im.neg⟩
def cmul (a b : C) : C :=
  ⟨(a.re.mul b.re).sub (a.im.mul b.im), (a.re.mul b.im).add (a.im.mul b.re)⟩
def cscale (g : R) (a : C) : C := ⟨g.mul a.re, g.mul a.im⟩
def cabs2 (a : C) : R := (a.re.mul a.re).add (a.im.mul a.im)
def cabs (a : C) : R := (cabs2 a).sqrt
def carg (a : C) : R := if a.re.eq R.zero && a.im.eq R.zero then R.zero else a.im.atan2 a.re
/-- The left fold from (0,0). -/
def csum (l : List C) : C := l.foldl cadd C.zero
/-- The left fold from 0. -/
def rsum (l : List R) : R := l.foldl R.add R.zero

/-- The complex value of two operand words, real part first (R14, R86). -/
def decC (re im : Word) : C := ⟨decR re, decR im⟩

/-- The two words of a complex value. -/
def encC (z : C) : List Word := [encR z.re, encR z.im]

/-! ### Phases (R150 to R153) -/

/-- `toPhase` (R152): radians to units of 2^-32 turn; NaN, infinite and huge values give 0. -/
def toPhase (x : R) : Word :=
  let v := x.mul Config.phaseScale
  if !(v.gt Config.negTwoPow62 && v.lt Config.twoPow62) then 0 else BitVec.ofInt 32 v.roundHalfEven

/-- `phaseToRad` (R153): a phase or frequency word, read as two's complement, to radians. -/
def phaseToRad (u : Word) : R := (R.ofInt u.toInt).mul Config.radScale

/-! ### The sinusoid (R151), reference instantiation -/

/-- The next terms of the sine or cosine series in fixed point: from the term `t` of degree `d`, with `x2` the square
of the angle, the terms added (`pos`) and the terms subtracted (`neg`) follow in turn. -/
def trigFrom (x2 : Nat) : Nat → Nat → Nat → Nat → Nat → Nat
  | 0, _, _, pos, neg => pos - neg
  | fuel + 1, d, t, pos, neg =>
    let t1 := t * x2 / (2 ^ fracBits * ((d + 1) * (d + 2)))
    let t2 := t1 * x2 / (2 ^ fracBits * ((d + 3) * (d + 4)))
    trigFrom x2 fuel (d + 4) t2 (pos + t2) (neg + t1)

/-- `v / 2^32` turn in radians, in fixed point. -/
def turnFixed (v : Nat) : Nat := piFixed * v / 2 ^ 31

def sinFixed (x : Nat) : Nat := trigFrom (x * x / 2 ^ fracBits) 16 1 x x 0
def cosFixed (x : Nat) : Nat := trigFrom (x * x / 2 ^ fracBits) 16 0 (2 ^ fracBits) (2 ^ fracBits) 0

/-- The pattern of a fixed-point number. -/
def fixedBits (a : Nat) : Nat := roundUnits (a * 2 ^ 149) (2 ^ fracBits)

/-- The patterns of (cos, sin) of `v / 2^32` turn for `v < 2^30`, a first-quadrant angle: exact at 0, else from the
angle or its complement, whichever is at most an eighth of a turn. -/
def quadrantBits (v : Nat) : Nat × Nat :=
  if v = 0 then (0x3F800000, 0)
  else if v ≤ 2 ^ 29 then (fixedBits (cosFixed (turnFixed v)), fixedBits (sinFixed (turnFixed v)))
  else
    let w := 2 ^ 30 - v
    (fixedBits (sinFixed (turnFixed w)), fixedBits (cosFixed (turnFixed w)))

/-- `cis(u)` (R151): the values nearest the cosine and the sine of `u / 2^32` turn, exact at the four quarter turns
with positive zeros (log 8). -/
def cis (u : Word) : C :=
  let cs := quadrantBits (u.toNat % 2 ^ 30)
  match u.toNat / 2 ^ 30 with
  | 0 => ⟨R.mk false cs.1, R.mk false cs.2⟩
  | 1 => ⟨R.mk (cs.2 != 0) cs.2, R.mk false cs.1⟩
  | 2 => ⟨R.mk true cs.1, R.mk (cs.2 != 0) cs.2⟩
  | _ => ⟨R.mk false cs.2, R.mk true cs.1⟩

end Sys2Proof
end

