-- ==== Sys2Proof/Machine/Operands.lean ====
section
/-! DEFINITION. The operand and response kinds of 30_encoding.md R115 and their packing into words (20_memory.md R85,
R86; 00_scope.md R17). W and U words are words; R and C are `decR`/`encR` and `decC`/`encC` of Num.lean. -/

namespace Sys2Proof.Machine

/-- `n` pieces of `k` elements each, from the front. -/
def chunks {α : Type} (k : Nat) : Nat → List α → List (List α)
  | 0, _ => []
  | n + 1, l => l.take k :: chunks k n (l.drop k)

/-- The number a bit string denotes, first bit most significant (R17). -/
def natOfBits (b : List Bool) : Nat := b.foldl (fun acc x => 2 * acc + x.toNat) 0

/-- The number a byte string denotes, first byte most significant (R17). -/
def natOfBytes (b : List Byte) : Nat := b.foldl (fun acc x => 256 * acc + x.toNat) 0

/-- The 32 bits of a word, bit 31 first. -/
def wordBits (w : Word) : List Bool := (List.range 32).map fun i => w.getLsbD (31 - i)

/-- The 8 bits of a byte, bit 7 first (R17). -/
def byteBits (b : Byte) : List Bool := (List.range 8).map fun i => b.getLsbD (7 - i)

/-- The four bytes of a word, bits [31:24] first. -/
def wordBytes (w : Word) : List Byte := (List.range 4).map fun i => w.extractLsb' (24 - 8 * i) 8

/-- `BITS(L)` of operand words: element i is bit `31 - (i mod 32)` of word `floor(i/32)`; the rest of the last word is
ignored. -/
def unpackBits (l : Nat) (ws : List Word) : List Bool := (ws.flatMap wordBits).take l

/-- The words of `BITS(L)`: the unused bits of the last word are 0. -/
def packBits (b : List Bool) : List Word :=
  (chunks 32 (bitsWords b.length) b).map fun c =>
    BitVec.ofNat 32 (natOfBits (c ++ List.replicate (32 - c.length) false))

/-- `BYTES(n)` of operand words: byte i is bits `[31 - 8*(i mod 4) : 24 - 8*(i mod 4)]` of word `floor(i/4)`. -/
def unpackBytes (n : Nat) (ws : List Word) : List Byte := (ws.flatMap wordBytes).take n

/-- The words of `BYTES(n)`: the unused bytes of the last word are 0. -/
def packBytes (b : List Byte) : List Word :=
  (chunks 4 (bytesWords b.length) b).map fun c =>
    BitVec.ofNat 32 (natOfBytes (c ++ List.replicate (4 - c.length) 0))

/-- The bits of a byte string on the wire, each byte most significant bit first (R17). -/
def bitsOfBytes (b : List Byte) : List Bool := b.flatMap byteBits

/-- The first `n` bytes of a bit string (R17). -/
def bytesOfBits (n : Nat) (b : List Bool) : List Byte :=
  (chunks 8 n b).map fun c => BitVec.ofNat 8 (natOfBits c)

/-- The samples of `n × C` operand words. -/
def samples : List Word → List C
  | re :: im :: rest => decC re im :: samples rest
  | _ => []

/-- A count or length as a response word (R86). -/
def countWord (n : Nat) : Word := BitVec.ofNat 32 n

end Sys2Proof.Machine
end

