-- ==== Sys2Proof/Machine/Flags.lean ====
section
/-! DEFINITION. The status flags of 10_state.md R66 and the registers that show them: the block has no condition
codes. STATUS is R35, ERR is R36, the validity and detection flags are response words. -/

namespace Sys2Proof.Machine

/-- The encoding of a phase in STATUS[2:1] (R35). -/
def Phase.code : Phase → Nat
  | .seek => 0 | .header => 1 | .payload => 2 | .reset => 3

/-- STATUS: [0] CONFIGURED, [2:1] PHASE, the rest zero (R35). -/
def statusWord (s : State) : Word := BitVec.ofNat 32 (2 * s.fsm.phase.code + s.configured.toNat)

/-- The 8-bit value of an error code (R425). -/
def ErrCode.code : ErrCode → Nat
  | .none => 0 | .illegalCmd => 1 | .badOperands => 2 | .notConfigured => 3 | .cfgBadPreamble => 4
  | .cfgBadMod => 5 | .cfgBadFec => 6 | .cfgBadParam => 7 | .badReg => 8

/-- ERR: FIRST in [7:0], LAST in [15:8] (R36). -/
def errWord (e : ErrRec) : Word := BitVec.ofNat 32 (256 * e.last.code + e.first.code)

/-- The error record after a failure: the last code always, the first only if there was none (R36, R421). -/
def ErrRec.record (e : ErrRec) (c : ErrCode) : ErrRec :=
  { first := if e.first = .none then c else e.first, last := c }

/-- A flag as a response word: 1 or 0. -/
def flagWord (b : Bool) : Word := if b then 1 else 0

end Sys2Proof.Machine
end

