-- ==== Sys2Proof/Machine/Ops.lean ====
section
/-! DEFINITION. The named operations over memories and registers, scheme and code ids, and the one operation by which
a command ends: completion, or failure with an error code (60_exceptions.md R421), which is this block's only form of
exception. Nothing returns from a failure (R430). -/

namespace Sys2Proof.Machine

/-! ### Memories and buffers (20_memory.md R80 to R84) -/

/-- An entry in front of a memory's entries, left out where its value is what an unlisted index reads as. -/
def consCell {α : Type} [DecidableEq α] (d : α) (i : Nat) (v : α) (m : Cells α) : Cells α :=
  if v = d then m else (i, v) :: m

/-- `MemRead`: entry `i`; an unlisted entry reads as `d`. -/
def memRead {α : Type} (d : α) : Cells α → Nat → α
  | [], _ => d
  | (j, v) :: m, i => if j = i then v else memRead d m i

/-- `MemWrite`: entry `i` becomes `v`. -/
def memWrite {α : Type} [DecidableEq α] (d : α) (i : Nat) (v : α) : Cells α → Cells α
  | [] => consCell d i v []
  | (j, w) :: m =>
    if i < j then consCell d i v ((j, w) :: m)
    else if i = j then consCell d i v m
    else (j, w) :: memWrite d i v m

/-- The `n` entries from index `lo` on, of a memory whose entries begin at `lo`. -/
def memWalk {α : Type} (d : α) : Nat → Nat → Cells α → List α
  | _, 0, _ => []
  | lo, n + 1, [] => d :: memWalk d (lo + 1) n []
  | lo, n + 1, (j, v) :: m =>
    if j = lo then v :: memWalk d (lo + 1) n m else d :: memWalk d (lo + 1) n ((j, v) :: m)

/-- Entries `lo` to `lo + n - 1` as a list. -/
def memSlice {α : Type} (d : α) (m : Cells α) (lo n : Nat) : List α :=
  memWalk d lo n (m.dropWhile fun c => decide (c.1 < lo))

/-- The memory whose entries from `lo` on are the list's, with `rest` behind them. -/
def memOfList {α : Type} [DecidableEq α] (d : α) : Nat → List α → Cells α → Cells α
  | _, [], rest => rest
  | lo, v :: l, rest => consCell d lo v (memOfList d (lo + 1) l rest)

/-- Entries `0` to `l.length - 1` become the list's; the others keep their values. -/
def memSetPrefix {α : Type} [DecidableEq α] (d : α) (l : List α) (m : Cells α) : Cells α :=
  memOfList d 0 l (m.dropWhile fun c => decide (c.1 < l.length))

/-- The canonical form of a memory of `cap` entries: indices from `lo` on strictly rising and below `cap`, and no entry
equal to what an unlisted index reads as. -/
def cellsWf {α : Type} [DecidableEq α] (d : α) (cap : Nat) : Nat → Cells α → Bool
  | _, [] => true
  | lo, (j, v) :: m => decide (lo ≤ j) && decide (j < cap) && decide (v ≠ d) && cellsWf d cap (j + 1) m

/-- Every memory and buffer of the state is in canonical form. -/
def Memory.wf (s : State) : Bool :=
  cellsWf C.zero Config.nMax 0 s.preMem && cellsWf R.zero Config.coefWords 0 s.coefMem &&
  cellsWf C.zero Config.lMax 0 s.ss.buf && cellsWf R.zero (Config.pMax * Config.lMax) 0 s.ss.H &&
  cellsWf C.zero Config.nMax 0 s.det.ref && cellsWf C.zero Config.nMax 0 s.det.win &&
  cellsWf R.zero Config.nMax 0 s.det.en

/-! ### Scheme and code ids -/

/-- The 8-bit id of a scheme (R270). -/
def Scheme.id : Scheme → Nat
  | .bpsk => 1 | .qpsk => 2 | .psk8 => 3 | .qam16 => 4 | .qam64 => 5 | .qam256 => 6

/-- The scheme of an id; ids 0 and above 6 are not schemes (R270). -/
def Scheme.ofId : Nat → Option Scheme
  | 1 => some .bpsk | 2 => some .qpsk | 3 => some .psk8 | 4 => some .qam16 | 5 => some .qam64 | 6 => some .qam256
  | _ => none

/-- Bits per symbol (R270). -/
def Scheme.bps : Scheme → Nat
  | .bpsk => 1 | .qpsk => 2 | .psk8 => 3 | .qam16 => 4 | .qam64 => 6 | .qam256 => 8

/-- The 8-bit id of a FEC code (R303). -/
def Fec.id : Fec → Nat
  | .none => 0 | .rep3 => 1 | .hamming74 => 2

/-- The FEC code of an id; ids above 2 are not codes (R303). -/
def Fec.ofId : Nat → Option Fec
  | 0 => some .none | 1 => some .rep3 | 2 => some .hamming74
  | _ => Option.none

/-! ### Registers (10_state.md R32, R33) -/

/-- The register at a word address; any other address is unmapped. -/
def Reg.ofAddr (a : BitVec 8) : Option Reg :=
  match a.toNat with
  | 0x00 => some .status | 0x01 => some .err | 0x02 => some .symcnt | 0x03 => some .hdrSyms | 0x04 => some .paySyms
  | 0x08 => some (.cfg .kSps) | 0x09 => some (.cfg .mSemi) | 0x0A => some (.cfg .beta) | 0x0B => some (.cfg .npfb)
  | 0x0C => some (.cfg .nPre) | 0x0D => some (.cfg .preSrc) | 0x0E => some (.cfg .prePoly)
  | 0x0F => some (.cfg .preInit) | 0x10 => some (.cfg .hdrMod) | 0x11 => some (.cfg .hdrFec)
  | 0x12 => some (.cfg .intlv) | 0x13 => some (.cfg .agcTarget) | 0x14 => some (.cfg .agcBwWide)
  | 0x15 => some (.cfg .agcBwNarrow) | 0x16 => some (.cfg .pllBwWide) | 0x17 => some (.cfg .pllBwNarrow)
  | 0x18 => some (.cfg .ssBwWide) | 0x19 => some (.cfg .ssBwNarrow) | 0x1A => some (.cfg .ssRmax)
  | 0x1B => some (.cfg .maxPayload) | 0x1C => some (.cfg .mode)
  | 0x20 => some .thresh | 0x21 => some .ncoPhase | 0x22 => some .ncoFreq | 0x23 => some .agcEnergy
  | 0x24 => some .agcBw | 0x25 => some .pllBw | 0x26 => some .ssBw | 0x27 => some .demScheme
  | 0x28 => some .ssTau | 0x29 => some .ssRate
  | 0x2C => some .detTau | 0x2D => some .detDfreq | 0x2E => some .detPhase | 0x2F => some .detGain
  | 0x30 => some .detMetric | 0x31 => some .hdrWord0 | 0x32 => some .hdrWord1
  | 0x38 => some .framesDetected | 0x39 => some .headersValid | 0x3A => some .payloadsValid
  | 0x3B => some .rssi | 0x3C => some .cfo | 0x3D => some .evm
  | _ => none

def CfgWords.get (w : CfgWords) : CfgReg → Word
  | .kSps => w.kSps | .mSemi => w.mSemi | .beta => w.beta | .npfb => w.npfb | .nPre => w.nPre
  | .preSrc => w.preSrc | .prePoly => w.prePoly | .preInit => w.preInit | .hdrMod => w.hdrMod
  | .hdrFec => w.hdrFec | .intlv => w.intlv | .agcTarget => w.agcTarget | .agcBwWide => w.agcBwWide
  | .agcBwNarrow => w.agcBwNarrow | .pllBwWide => w.pllBwWide | .pllBwNarrow => w.pllBwNarrow
  | .ssBwWide => w.ssBwWide | .ssBwNarrow => w.ssBwNarrow | .ssRmax => w.ssRmax
  | .maxPayload => w.maxPayload | .mode => w.mode

def CfgWords.set (w : CfgWords) (v : Word) : CfgReg → CfgWords
  | .kSps => { w with kSps := v } | .mSemi => { w with mSemi := v } | .beta => { w with beta := v }
  | .npfb => { w with npfb := v } | .nPre => { w with nPre := v } | .preSrc => { w with preSrc := v }
  | .prePoly => { w with prePoly := v } | .preInit => { w with preInit := v } | .hdrMod => { w with hdrMod := v }
  | .hdrFec => { w with hdrFec := v } | .intlv => { w with intlv := v } | .agcTarget => { w with agcTarget := v }
  | .agcBwWide => { w with agcBwWide := v } | .agcBwNarrow => { w with agcBwNarrow := v }
  | .pllBwWide => { w with pllBwWide := v } | .pllBwNarrow => { w with pllBwNarrow := v }
  | .ssBwWide => { w with ssBwWide := v } | .ssBwNarrow => { w with ssBwNarrow := v }
  | .ssRmax => { w with ssRmax := v } | .maxPayload => { w with maxPayload := v } | .mode => { w with mode := v }

/-- What a read of a register returns (R32, R33, R396). -/
def regValue (s : State) : Reg → Word
  | .status => statusWord s
  | .err => errWord s.err
  | .symcnt => countWord s.fsm.cnt
  | .hdrSyms => countWord s.fsm.hdrSyms
  | .paySyms => countWord s.fsm.paySyms
  | .cfg r => s.words.get r
  | .thresh => encR s.thresh
  | .ncoPhase => s.nco.theta
  | .ncoFreq => s.nco.omega
  | .agcEnergy => encR s.agc.e
  | .agcBw => encR s.agc.bw
  | .pllBw => encR s.pllBw
  | .ssBw => encR s.ss.bw
  | .demScheme => countWord s.demScheme.id
  | .ssTau => encR s.ss.tau
  | .ssRate => encR s.ss.r
  | .detTau => encR s.lastDet.tau
  | .detDfreq => encR s.lastDet.dw
  | .detPhase => encR s.lastDet.phi
  | .detGain => encR s.lastDet.gain
  | .detMetric => encR s.lastDet.metric
  | .hdrWord0 => s.hdrW0
  | .hdrWord1 => s.hdrW1
  | .framesDetected => s.stats.nDet
  | .headersValid => s.stats.nHdr
  | .payloadsValid => s.stats.nPay
  | .rssi => encR s.stats.rssi
  | .cfo => encR s.stats.cfo
  | .evm => encR s.stats.evm

/-- The state after a write of `v` to a register, or the code with which the write fails (R33, R397, R53 to R55):
a CFG word is stored unchecked, ERR is cleared whatever is written, a LIVE write changes its element after its check,
and a read-only register rejects the write. -/
def regWritten (s : State) (v : Word) : Reg → Except ErrCode State
  | .cfg r => .ok { s with words := s.words.set v r }
  | .err => .ok { s with err := { first := .none, last := .none } }
  | .thresh =>
    if (decR v).within R.zero Config.one then .ok { s with thresh := decR v } else .error .badOperands
  | .ncoPhase => .ok { s with nco := { s.nco with theta := v } }
  | .ncoFreq => .ok { s with nco := { s.nco with omega := v } }
  | .agcEnergy =>
    if (decR v).within R.zero Config.eMax then .ok { s with agc := { s.agc with e := decR v } }
    else .error .badOperands
  | _ => .error .badReg

/-! ### Completion and failure of a command -/

/-- What a command makes of the state: the new state and the response words, or the code it fails with. -/
abbrev CmdResult := Except ErrCode (State × List Word)

/-- The response of a failed command (R421 to R423): CONFIGURE returns its code, a command with a variable-length
response the single word 0, any other as many 0 words as it returns on success. -/
def failResponse (c : ErrCode) : Op → List Word
  | .configure => [countWord c.code]
  | .ssExecute | .dilDeinterleave | .fecDecode | .decDecode => [0]
  | .regRead | .getThreshold => List.replicate 1 0
  | .oscMixDown | .oscMixUp | .oscCexp | .crcCheck => List.replicate 2 0
  | .agcExecute => List.replicate 3 0
  | .demDemod => List.replicate 4 0
  | .getStats | .detPush => List.replicate 6 0
  | _ => []

/-- A command answers: its response goes behind the earlier ones (R93). -/
def State.respond (s : State) (r : List Word) : State := { s with resp := s.resp ++ [r] }

/-- Failure with a code and a response (R421): the error is recorded and nothing else changes. -/
def State.failWith (s : State) (c : ErrCode) (r : List Word) : State :=
  { s with err := s.err.record c }.respond r

/-- How every command ends (R421): a completed command leaves its new state, a failed one the state it found with the
error recorded; each answers its response words. -/
def settle (o : Op) (s : State) : CmdResult → Host.Outcome State Fault Refusal
  | .ok (t, r) => .next (t.respond r)
  | .error c => .next (s.failWith c (failResponse c o))

/-- A command word that stands for no command (R119, R421): ILLEGAL_CMD, with no response word for a reserved opcode. -/
def illegal (s : State) : DecodeError → Host.Outcome State Fault Refusal
  | .reservedOp _ => .next (s.failWith .illegalCmd [])
  | .reservedImm o => .next (s.failWith .illegalCmd (failResponse .illegalCmd o))

end Sys2Proof.Machine
end

