-- ==== Sys2Proof/Machine/AgcUnit.lean ====
section
/-! DEFINITION. The AGC loop filter (41_agc.md) and its commands. -/

namespace Sys2Proof.Machine

/-- An energy update is taken only if it is in `[0, E_MAX]`; a NaN, negative or larger one is dropped (R191, R194). -/
def agcUpdate (g : Agc) (en : R) : Agc := if en.within R.zero Config.eMax then { g with e := en } else g

/-- `agc_execute` (R191) with target `A`: the new state, the scaled sample and the level. The gain is R191's quotient in
binary32, which underflows to 0 for a tiny `A`, against R192's remark that it is always positive (DESIGN CHOICE between
the two, log 23). The update is dropped exactly where R191 drops it: by rounding, an energy a little above `E_MAX / bw` can
still give `E_MAX`, against R196's corner case (DESIGN CHOICE between the two, log 26). -/
def agcExecute (A : R) (x : C) (g : Agc) : Agc × C × R :=
  let p := cabs2 x
  let en := ((Config.one.sub g.bw).mul g.e).add (g.bw.mul p)
  let g := agcUpdate g en
  let gain := A.div (R.fmax g.e Config.eMin).sqrt
  (g, cscale gain x, g.e.sqrt)

/-- `agc_seed` (R194) with target `A` and the detected gain `G`. -/
def agcSeed (A G : R) (g : Agc) : Agc :=
  let q := G.div A
  agcUpdate g ((R.fmax g.e Config.eMin).mul (q.mul q))

/-- AGC_SET_BW (R195). -/
def execAgcSetBw (opnd : List Word) (s : State) : Host.Outcome State Fault Refusal :=
  settle .agcSetBw s <|
    match opnd with
    | [bw] =>
      if (decR bw).within R.zero Config.one then .ok ({ s with agc := { s.agc with bw := decR bw } }, [])
      else .error .badOperands
    | _ => .error .badOperands

/-- AGC_EXECUTE (R196). -/
def execAgcExecute (opnd : List Word) (s : State) : Host.Outcome State Fault Refusal :=
  settle .agcExecute s <|
    match opnd with
    | [re, im] =>
      let out := agcExecute s.cfg.A (decC re im) s.agc
      .ok ({ s with agc := out.1 }, encC out.2.1 ++ [encR out.2.2])
    | _ => .error .badOperands

/-- AGC_SEED (R197). -/
def execAgcSeed (opnd : List Word) (s : State) : Host.Outcome State Fault Refusal :=
  settle .agcSeed s <|
    match opnd with
    | [G] => .ok ({ s with agc := agcSeed s.cfg.A (decR G) s.agc }, [])
    | _ => .error .badOperands

end Sys2Proof.Machine
end

