-- ==== Sys2Proof/Machine/DecodeChain.lean ====
section
/-! DEFINITION. The bit deinterleaver, the FEC codes, the CRC and the chain that joins them (45_decode_chain.md), with
their commands. -/

namespace Sys2Proof.Machine

/-! ### CRC (R302) -/

/-- One of the eight turns of the inner loop. -/
def crcBit (c : Word) : Word := if c.getLsbD 0 then (c >>> 1) ^^^ 0xEDB88320 else c >>> 1

/-- One byte. -/
def crcByte (c : Word) (b : Byte) : Word :=
  crcBit (crcBit (crcBit (crcBit (crcBit (crcBit (crcBit (crcBit (c ^^^ b.setWidth 32))))))))

/-- `crc32` (R302). -/
def crc32 (bytes : List Byte) : Word := bytes.foldl crcByte 0xFFFFFFFF ^^^ 0xFFFFFFFF

/-! ### FEC codes (R303 to R306) -/

/-- `enc_len`. -/
def encLen (id : Fec) (l : Nat) : Nat :=
  match id with
  | .none => l
  | .rep3 => 3 * l
  | .hamming74 => 7 * ((l + 3) / 4)

/-- `dec_len`. -/
def decLen (id : Fec) (l : Nat) : Nat :=
  match id with
  | .none => l
  | .rep3 => l / 3
  | .hamming74 => 4 * (l / 7)

/-- The decoder of code 1 (R305): majority of each group of three. -/
def rep3Dec : List Bool → List Bool
  | a :: b :: c :: v => decide (2 ≤ a.toNat + b.toNat + c.toNat) :: rep3Dec v
  | _ => []

/-- The codeword `c1..c7` with the bit at its syndrome's position reversed (R306). -/
def hammingFix (c1 c2 c3 c4 c5 c6 c7 : Bool) : List Bool :=
  let s1 := c1 ^^ c3 ^^ c5 ^^ c7
  let s2 := c2 ^^ c3 ^^ c6 ^^ c7
  let s3 := c4 ^^ c5 ^^ c6 ^^ c7
  let s := s1.toNat + 2 * s2.toNat + 4 * s3.toNat
  if s ≠ 0 then [c1, c2, c3, c4, c5, c6, c7].modify (s - 1) not else [c1, c2, c3, c4, c5, c6, c7]

/-- The decoder of code 2 (R306): the data bits c3, c5, c6, c7 of each corrected codeword. -/
def hammingDec : List Bool → List Bool
  | c1 :: c2 :: c3 :: c4 :: c5 :: c6 :: c7 :: v =>
    let c := hammingFix c1 c2 c3 c4 c5 c6 c7
    [c.getD 2 false, c.getD 4 false, c.getD 5 false, c.getD 6 false] ++ hammingDec v
  | _ => []

/-- `fec_dec` (R304 to R306). -/
def fecDec (id : Fec) (v : List Bool) : List Bool :=
  match id with
  | .none => v
  | .rep3 => rep3Dec v
  | .hamming74 => hammingDec v

/-! ### Interleaver (R310) -/

/-- `order(D, L)`. Rows from `min D L` on hold no cell: they are left out, so that a depth far above `L` costs
nothing. The order is R310's pseudocode; a burst that crosses from one column to the next then reaches the inner decoder
less than C apart, against R310's remark on bursts (DESIGN CHOICE between the two, log 27). -/
def interleaveOrder (D L : Nat) : List Nat :=
  let C := (L + D - 1) / D
  (List.range C).flatMap fun c =>
    (List.range (min D L)).filterMap fun r => if r * C + c < L then some (r * C + c) else none

/-- `deinterleave(D, v)`: the `u` with `u[order(D, len(v))[k]] = v[k]` for every k, each bit put in its place. -/
def deinterleave (D : Nat) (v : List Bool) : List Bool :=
  (((interleaveOrder D v.length).zip v).foldl (fun u p => u.setIfInBounds p.1 p.2)
    (Array.replicate v.length false)).toList

/-! ### The chain (R315, R316) -/

/-- `B0`: message and CRC bits. -/
def chainB0 (n : Nat) : Nat := 8 * (n + 4)

/-- `L1`: after the outer FEC. -/
def chainL1 (n : Nat) (fo : Fec) : Nat := encLen fo (chainB0 n)

/-- `L2`: after the inner FEC, the bits on the air. -/
def chainL2 (n : Nat) (fi fo : Fec) : Nat := encLen fi (chainL1 n fo)

/-- The message and the verdict of a block of `n + 4` bytes: the first `n` bytes, and whether their CRC is the
big-endian value of the last four (R316). The CRC is R302's, over bytes least significant bit first, while the wire
carries them most significant bit first (R17): some error bursts of at most 32 bits pass it, against the remark of R302 and
R318 (DESIGN CHOICE between the two, log 28). -/
def checkBlock (n : Nat) (by_ : List Byte) : List Byte × Bool :=
  let msg := by_.take n
  (msg, decide (crc32 msg = BitVec.ofNat 32 (natOfBytes ((by_.drop n).take 4))))

/-- `chain_decode` (R316), for `len(v) >= L2`. -/
def chainDecode (n : Nat) (fi fo : Fec) (D1 D2 : Nat) (v : List Bool) : List Byte × Bool :=
  let u2 := deinterleave D2 (v.take (chainL2 n fi fo))
  let w := (fecDec fi u2).take (chainL1 n fo)
  let u1 := deinterleave D1 w
  let d := (fecDec fo u1).take (chainB0 n)
  checkBlock n (bytesOfBits (n + 4) d)

/-! ### Commands -/

/-- A bit string as a response: its length, then its words. -/
def bitsResponse (b : List Bool) : List Word := countWord b.length :: packBits b

/-- DIL_DEINTERLEAVE (R325). -/
def execDilDeinterleave (depth : BitVec 24) (opnd : List Word) (s : State) : Host.Outcome State Fault Refusal :=
  settle .dilDeinterleave s <|
    match opnd with
    | [] => .error .badOperands
    | l :: ws =>
      if bitsCount (l :: ws) ≠ some (ws.length + 1) then .error .badOperands
      else if depth = 0 then .error .badOperands
      else .ok (s, bitsResponse (deinterleave depth.toNat (unpackBits l.toNat ws)))

/-- FEC_DECODE (R326). -/
def execFecDecode (id : BitVec 8) (opnd : List Word) (s : State) : Host.Outcome State Fault Refusal :=
  settle .fecDecode s <|
    match opnd with
    | [] => .error .badOperands
    | l :: ws =>
      if bitsCount (l :: ws) ≠ some (ws.length + 1) then .error .badOperands
      else
        match Fec.ofId id.toNat with
        | some f => .ok (s, bitsResponse (fecDec f (unpackBits l.toNat ws)))
        | none => .error .badOperands

/-- CRC_CHECK (R327): the validity flag and the computed CRC. -/
def execCrcCheck (opnd : List Word) (s : State) : Host.Outcome State Fault Refusal :=
  settle .crcCheck s <|
    match opnd with
    | [] => .error .badOperands
    | n :: ws =>
      if crcCount (n :: ws) ≠ some (ws.length + 1) then .error .badOperands
      else
        let out := checkBlock n.toNat (unpackBytes (n.toNat + 4) ws)
        .ok (s, [flagWord out.2, crc32 out.1])

/-- DEC_DECODE (R328): its checks in the order written, then the validity flag and the message bytes. -/
def execDecDecode (fi fo : BitVec 8) (opnd : List Word) (s : State) : Host.Outcome State Fault Refusal :=
  settle .decDecode s <|
    match opnd with
    | n :: depths :: l :: ws =>
      if decCount (n :: depths :: l :: ws) ≠ some (ws.length + 3) then .error .badOperands
      else
        match Fec.ofId fi.toNat, Fec.ofId fo.toNat with
        | some fi, some fo =>
          let D1 := (depths.extractLsb' 0 8).toNat
          let D2 := (depths.extractLsb' 8 8).toNat
          if Config.payloadCap < n.toNat then .error .badOperands
          else if D1 = 0 || D2 = 0 || depths.extractLsb' 16 16 ≠ 0 then .error .badOperands
          else if l.toNat < chainL2 n.toNat fi fo then .error .badOperands
          else
            let out := chainDecode n.toNat fi fo D1 D2 (unpackBits l.toNat ws)
            .ok (s, flagWord out.2 :: packBytes out.1)
        | _, _ => .error .badOperands
    | _ => .error .badOperands

end Sys2Proof.Machine
end

