-- ==== Sys2Proof/Machine/Demodulator.lean ====
section
/-! DEFINITION. The hard-decision demodulator (44_demodulator.md) and its commands. -/

namespace Sys2Proof.Machine

/-- What `demod` returns (R278): the symbol index, the phase error and the decided point. -/
structure Decision where
  u : Nat
  e : R
  sh : C
deriving DecidableEq, Repr

/-- `gray(p)` (R272). -/
def gray (p : Nat) : Nat := p ^^^ (p >>> 1)

/-- 1 where a component is below 0, else 0; a zero or a NaN gives 0 (R273, R274). -/
def signBit (v : R) : Nat := if v.lt R.zero then 1 else 0

/-- BPSK (R273): index and point. -/
def decideBpsk (y : C) : Nat × C :=
  if signBit y.re = 0 then (0, ⟨Config.one, R.zero⟩) else (1, ⟨Config.negOne, R.zero⟩)

/-- QPSK (R274). -/
def decideQpsk (y : C) : Nat × C :=
  let b1 := signBit y.re
  let b0 := signBit y.im
  (2 * b1 + b0, ⟨(R.ofInt (1 - 2 * (b1 : Int))).mul Config.rh, (R.ofInt (1 - 2 * (b0 : Int))).mul Config.rh⟩)

/-- `PSK8[j]` (R275). -/
def psk8Point (j : Nat) : C :=
  match j with
  | 0 => ⟨Config.one, R.zero⟩
  | 1 => ⟨Config.rh, Config.rh⟩
  | 2 => ⟨R.zero, Config.one⟩
  | 3 => ⟨Config.negRh, Config.rh⟩
  | 4 => ⟨Config.negOne, R.zero⟩
  | 5 => ⟨Config.negRh, Config.negRh⟩
  | 6 => ⟨R.zero, Config.negOne⟩
  | _ => ⟨Config.rh, Config.negRh⟩

/-- The boundary `(ofNat(n) * PI) / 8` (R275). -/
def psk8Boundary (n : Nat) : R := ((R.ofNat n).mul Config.pi).div Config.eight

/-- The sector of an angle (R275): the comparisons in their order. -/
def psk8Sector (a : R) : Nat :=
  let a := if a.lt R.zero then a.add Config.twoPi else a
  let j := [1, 2, 3, 4, 5, 6, 7].foldl (fun j t => if a.ge (psk8Boundary (2 * t - 1)) then t else j) 0
  if a.ge (psk8Boundary 15) then 0 else j

/-- 8PSK (R275). -/
def decidePsk8 (y : C) : Nat × C :=
  let j := psk8Sector (carg y)
  (gray j, psk8Point j)

/-- The level index of a scaled component (R276) among `2^q` levels; a NaN gives 0. -/
def qamLevel (q : Nat) (v : R) : Nat :=
  (List.range' 1 (2 ^ q - 1)).foldl
    (fun (p t : Nat) => if v.ge (R.ofInt (2 * (t : Int) - 2 ^ q)) then t else p) 0

/-- One coordinate of a QAM point (R276): `ofInt(2*p - (Q-1)) / NRM`. -/
def qamCoord (q : Nat) (nrm : R) (p : Nat) : R := (R.ofInt (2 * (p : Int) - (2 ^ q - 1))).div nrm

/-- Square QAM with `q` bits per axis and normalisation `nrm` (R276). -/
def decideQam (q : Nat) (nrm : R) (y : C) : Nat × C :=
  let pI := qamLevel q (y.re.mul nrm)
  let pQ := qamLevel q (y.im.mul nrm)
  ((gray pI <<< q) ||| gray pQ, ⟨qamCoord q nrm pI, qamCoord q nrm pQ⟩)

/-- The decision of a scheme: index and point (R273 to R276). -/
def decideSymbol (sch : Scheme) (y : C) : Nat × C :=
  match sch with
  | .bpsk => decideBpsk y
  | .qpsk => decideQpsk y
  | .psk8 => decidePsk8 y
  | .qam16 => decideQam 2 Config.nrm16 y
  | .qam64 => decideQam 3 Config.nrm64 y
  | .qam256 => decideQam 4 Config.nrm256 y

/-- `demod` (R278): the decision, and the phase error of R277 by its formula. In binary32 that formula can overflow for a
finite `y` near the largest value: to a NaN, against R277's remark that e is finite there, or to an infinite component
alone, where e is the free value of `R.atan2` and its sign is free against R277's remark on it (DESIGN CHOICE, logs 4
and 21). -/
def demod (sch : Scheme) (y : C) : Decision :=
  let d := decideSymbol sch y
  { u := d.1, e := carg (cmul y (conj d.2)), sh := d.2 }

/-- The bits of a symbol index, most significant first (R271). -/
def symbolBits (bps u : Nat) : List Bool := (List.range bps).map fun j => u.testBit (bps - 1 - j)

/-- DEM_SET_SCHEME (R285). -/
def execDemSetScheme (id : BitVec 8) (opnd : List Word) (s : State) : Host.Outcome State Fault Refusal :=
  settle .demSetScheme s <|
    match opnd with
    | [] =>
      match Scheme.ofId id.toNat with
      | some sch => .ok ({ s with demScheme := sch }, [])
      | none => .error .badOperands
    | _ => .error .badOperands

/-- DEM_DEMOD (R286). -/
def execDemDemod (opnd : List Word) (s : State) : Host.Outcome State Fault Refusal :=
  settle .demDemod s <|
    match opnd with
    | [re, im] =>
      let d := demod s.demScheme (decC re im)
      .ok (s, countWord d.u :: encR d.e :: encC d.sh)
    | _ => .error .badOperands

end Sys2Proof.Machine
end

