-- ==== Sys2Proof/Machine/Oscillator.lean ====
section
/-! DEFINITION. The oscillator/mixer and the carrier-tracking PLL (40_oscillator_pll.md), and their commands. -/

namespace Sys2Proof.Machine

/-- `mix_down` (R154): removes the carrier. -/
def mixDown (n : Nco) (x : C) : C := cmul x (conj (cis n.theta))

/-- `mix_up` (R154): applies it. -/
def mixUp (n : Nco) (x : C) : C := cmul x (cis n.theta)

/-- `nco_step` (R154), modulo 2^32. -/
def ncoStep (n : Nco) : Nco := { n with theta := n.theta + n.omega }

/-- `pll_step` (R167) with samples per symbol `k` and bandwidth `bw`: an error outside [-PI, PI], a NaN included, acts
as 0. -/
def pllStep (k : Nat) (bw e : R) (n : Nco) : Nco :=
  let e := if e.within Config.negPi Config.pi then e else R.zero
  let b := (bw.mul bw).div (R.ofNat (2 * k))
  { n with theta := n.theta + toPhase (bw.mul e), omega := n.omega + toPhase (b.mul e) }

/-- OSC_MIX_DOWN (R160). -/
def execOscMixDown (opnd : List Word) (s : State) : Host.Outcome State Fault Refusal :=
  settle .oscMixDown s <|
    match opnd with
    | [re, im] => .ok (s, encC (mixDown s.nco (decC re im)))
    | _ => .error .badOperands

/-- OSC_MIX_UP (R161). -/
def execOscMixUp (opnd : List Word) (s : State) : Host.Outcome State Fault Refusal :=
  settle .oscMixUp s <|
    match opnd with
    | [re, im] => .ok (s, encC (mixUp s.nco (decC re im)))
    | _ => .error .badOperands

/-- OSC_CEXP (R162). -/
def execOscCexp (opnd : List Word) (s : State) : Host.Outcome State Fault Refusal :=
  settle .oscCexp s <|
    match opnd with
    | [] => .ok (s, encC (cis s.nco.theta))
    | _ => .error .badOperands

/-- OSC_STEP (R163). -/
def execOscStep (opnd : List Word) (s : State) : Host.Outcome State Fault Refusal :=
  settle .oscStep s <|
    match opnd with
    | [] => .ok ({ s with nco := ncoStep s.nco }, [])
    | _ => .error .badOperands

/-- OSC_ADJ_PHASE (R164). -/
def execOscAdjPhase (opnd : List Word) (s : State) : Host.Outcome State Fault Refusal :=
  settle .oscAdjPhase s <|
    match opnd with
    | [d] => .ok ({ s with nco := { s.nco with theta := s.nco.theta + d } }, [])
    | _ => .error .badOperands

/-- OSC_ADJ_FREQ (R165). -/
def execOscAdjFreq (opnd : List Word) (s : State) : Host.Outcome State Fault Refusal :=
  settle .oscAdjFreq s <|
    match opnd with
    | [d] => .ok ({ s with nco := { s.nco with omega := s.nco.omega + d } }, [])
    | _ => .error .badOperands

/-- PLL_SET_BW (R170). -/
def execPllSetBw (opnd : List Word) (s : State) : Host.Outcome State Fault Refusal :=
  settle .pllSetBw s <|
    match opnd with
    | [bw] =>
      if (decR bw).within R.zero Config.one then .ok ({ s with pllBw := decR bw }, []) else .error .badOperands
    | _ => .error .badOperands

/-- PLL_STEP (R171). -/
def execPllStep (opnd : List Word) (s : State) : Host.Outcome State Fault Refusal :=
  settle .pllStep s <|
    match opnd with
    | [e] => .ok ({ s with nco := pllStep s.cfg.k s.pllBw (decR e) s.nco }, [])
    | _ => .error .badOperands

end Sys2Proof.Machine
end

