-- ==== Sys2Proof/Machine/PreambleDetector.lean ====
section
/-! DEFINITION. The matched-filter correlator (43_detector.md): the reference, the push, the estimates, and the
detector's commands. -/

namespace Sys2Proof.Machine

/-! ### The reference -/

/-- The degree of a generator polynomial: the index of its highest set bit (R44). -/
def polyDegree (poly : Word) : Nat := poly.toNat.log2

/-- The XOR over `i < d` of `poly[i] AND a[t-d+i]` (R241), where bit `i` of `reg` is `a[t-d+i]`. -/
def lfsrNext (poly : Word) (d : Nat) (reg : Word) : Bool :=
  (List.range d).foldl (fun acc i => acc ^^ (poly.getLsbD i && reg.getLsbD i)) false

/-- The next bits of the sequence of R241, where bit `i` of `reg` is the bit `i` places on. -/
def lfsrBits (poly : Word) (d : Nat) : Nat → Word → List Bool
  | 0, _ => []
  | n + 1, reg =>
    reg.getLsbD 0 :: lfsrBits poly d n ((reg >>> 1) ||| (BitVec.ofNat 32 (lfsrNext poly d reg).toNat <<< (d - 1)))

/-- `gen_ref` (R241): the generator's bits as BPSK symbols, bit 0 to (1, 0) and bit 1 to (-1, 0). -/
def genRef (poly init : Word) (n : Nat) : List C :=
  (lfsrBits poly (polyDegree poly) n init).map fun a => ⟨Config.one.sub (Config.two.mul (R.ofNat a.toNat)), R.zero⟩

/-- The energy-normalised reference (R242), or nothing where the raw energy is zero, not a number or above
E_REF_MAX. -/
def normaliseRef (raw : List C) : Option (List C) :=
  let er := rsum (raw.map cabs2)
  if !(er.gt R.zero) || er.gt Config.eRefMax then none
  else some (raw.map (cscale ((R.ofNat raw.length).div er).sqrt))

/-! ### The push (R243) -/

/-- The metric of a push (R243): 0 until the window is full, at or below the energy guard, and where it is not a
number. The N-th push after a clear fills the window and can have a nonzero metric, as R243's pseudocode and example 1 of
R255 have it, against R246's remark that the first N pushes give 0 (DESIGN CHOICE between the two, log 20). -/
def detMetric (N fill : Nat) (S : C) (E : R) : R :=
  let rho :=
    if fill < N || !(E.gt Config.eDetMin) then R.zero
    else (cabs2 S).sqrt.div ((R.ofNat N).mul E.sqrt)
  if rho.ge R.zero then rho else R.zero

/-- The timing estimate (R247): the vertex of the parabola through the three metrics, clamped, with 0 for a flat or
concave-up fit as R247's decision D21 says; R247's pseudocode alone gives 0 for `den = 0` only (DEDUCED, log 25). A `den`
that is no number clamps to -0.5. -/
def detTau (a b c : R) : R :=
  let den := (a.sub (Config.two.mul b)).add c
  if den.ge R.zero then R.zero
  else R.clamp ((Config.half.mul (a.sub c)).div den) Config.negHalf Config.half

/-- The carrier-offset estimate (R250), half-split or lag slope. -/
def detDw (cfg : Cfg) (S2 S Sa1 Sb1 : C) : R :=
  if !cfg.cfoEst then (carg (cmul Sb1 (conj Sa1))).div ((R.ofNat cfg.N).div Config.two)
  else (carg (cmul S (conj S2))).div Config.two

/-- `estimates` (R247 to R251), `d` being the history before the push that reports and `rho`, `S` that push's. -/
def estimates (cfg : Cfg) (d : Detector) (rho : R) (S : C) : Detection :=
  let dw := detDw cfg d.S2 S d.Sa1 d.Sb1
  { tau := detTau d.rho2 d.rho1 rho
    dw := dw
    phi := (carg d.S1).add (dw.mul (((R.ofNat cfg.N).add Config.one).div Config.two))
    gain := (cabs2 d.S1).sqrt.div (R.ofNat cfg.N)
    metric := d.rho1 }

/-- `det_push` (R243) with threshold `thresh`. -/
def detPush (cfg : Cfg) (thresh : R) (y : C) (d : Detector) : Detector × Option Detection :=
  let N := cfg.N
  let win := (memSlice C.zero d.win 0 N ++ [y]).drop 1
  let en := (memSlice R.zero d.en 0 N ++ [cabs2 y]).drop 1
  let fill := min (d.fill + 1) N
  let terms := List.zipWith (fun w r => cmul w (conj r)) win (memSlice C.zero d.ref 0 N)
  let S := csum terms
  let rho := detMetric N fill S ((rsum en).div (R.ofNat N))
  ({ d with
      win := memSetPrefix C.zero win d.win
      en := memSetPrefix R.zero en d.en
      fill := fill
      pend := rho.gt thresh
      rho1 := rho, rho2 := d.rho1
      S1 := S, S2 := d.S1
      Sa1 := csum (terms.take (N / 2)), Sb1 := csum (terms.drop (N / 2)) },
    if d.pend then some (estimates cfg d rho S) else none)

/-- `det_clear` (R256): everything but the reference. -/
def detClear (d : Detector) : Detector :=
  { d with
    win := [], en := [], fill := 0, pend := false, rho1 := R.zero, rho2 := R.zero,
    S1 := C.zero, S2 := C.zero, Sa1 := C.zero, Sb1 := C.zero }

/-- The response of DET_PUSH (R255): the detection flag and the five estimates, or six zeros. -/
def detResponse : Option Detection → List Word
  | none => flagWord false :: List.replicate 5 (encR R.zero)
  | some d => [flagWord true, encR d.tau, encR d.dw, encR d.phi, encR d.gain, encR d.metric]

/-- DET_PUSH (R255). -/
def execDetPush (opnd : List Word) (s : State) : Host.Outcome State Fault Refusal :=
  settle .detPush s <|
    match opnd with
    | [re, im] =>
      if !s.configured then .error .notConfigured
      else
        let out := detPush s.cfg s.thresh (decC re im) s.det
        .ok ({ s with det := out.1 }, detResponse out.2)
    | _ => .error .badOperands

/-- DET_RESET (R256). -/
def execDetReset (opnd : List Word) (s : State) : Host.Outcome State Fault Refusal :=
  settle .detReset s <|
    match opnd with
    | [] => .ok ({ s with det := detClear s.det }, [])
    | _ => .error .badOperands

end Sys2Proof.Machine
end

