-- ==== Sys2Proof/Machine/SymbolSync.lean ====
section
/-! DEFINITION. The polyphase symbol-timing interpolator (42_symsync.md) and its commands. -/

namespace Sys2Proof.Machine

/-- The taps of branch `b`: entries (b, 0) to (b, L-1) of the coefficient table. -/
def ssTaps (cfg : Cfg) (b : Nat) (u : SymSync) : List R := memSlice R.zero u.H (b * Config.lMax) cfg.L

/-- The used part of the delay line, newest sample first. -/
def ssLine (cfg : Cfg) (u : SymSync) : List C := memSlice C.zero u.buf 0 cfg.L

/-- `ss_filter(b)` (R212): the left fold over the taps and the delay line. -/
def ssFilter (cfg : Cfg) (b : Nat) (u : SymSync) : C :=
  ((ssTaps cfg b u).zip (ssLine cfg u)).foldl
    (fun acc p => ⟨acc.re.add (p.1.mul p.2.re), acc.im.add (p.1.mul p.2.im)⟩) C.zero

/-- `ted_sat` (R213). -/
def tedSat (e : R) : R :=
  if e.within Config.negOne Config.eTedMax then e
  else if e.gt Config.eTedMax then Config.eTedMax
  else if e.lt Config.negOne then Config.negOne
  else R.zero

/-- The branch of the output instant (R213): the fractional delay times P, floored, clamped to the branches. -/
def ssBranch (cfg : Cfg) (u : SymSync) : Nat :=
  let mu := R.zero.sub u.tau
  (clampInt (mu.mul (R.ofNat cfg.P)).floorInt 0 ((cfg.P : Int) - 1)).toNat

/-- The Gardner timing error of an on-time output `y` (R213). -/
def ssError (u : SymSync) (y : C) : R :=
  tedSat (((u.yprev.re.sub y.re).mul u.ymid.re).add ((u.yprev.im.sub y.im).mul u.ymid.im))

/-- One turn of `ss_push`'s loop (R213): an on-time output, which leaves the unit, or a mid-point output. With the
identity table R212 and R213 so give `m` leading zeros, the pure delay of `k*m` samples that R227 names, against R227's
remark that samples 0, k, 2k follow the first on-time output (DESIGN CHOICE between the two, log 24). -/
def ssTurn (cfg : Cfg) (u : SymSync) : SymSync × List C :=
  let y := ssFilter cfg (ssBranch cfg u) u
  let kk := R.ofNat cfg.k
  if !u.half then
    let e := ssError u y
    let kp := u.bw
    let ki := (u.bw.mul u.bw).div Config.two
    let r := R.clamp (u.r.add (ki.mul e)) (R.zero.sub cfg.rmax) cfg.rmax
    let inc := R.clamp (((kk.add r).div Config.two).add (kp.mul e)) (kk.div Config.four)
      ((Config.three.mul kk).div Config.four)
    ({ u with r := r, yprev := y, half := true, tau := u.tau.add inc }, [y])
  else
    let inc := (kk.add u.r).div Config.two
    ({ u with ymid := y, half := false, tau := u.tau.add inc }, [])

/-- The `while st.ss_tau <= 0` loop of R213, at most `fuel` turns, with the outputs so far. -/
def ssLoop (cfg : Cfg) : Nat → SymSync → List C → SymSync × List C
  | 0, u, out => (u, out)
  | fuel + 1, u, out =>
    if u.tau.le R.zero then ssLoop cfg fuel (ssTurn cfg u).1 (out ++ (ssTurn cfg u).2) else (u, out)

/-- The bound on the turns. A turn changes 193 bits of the unit's state (tau, r, half, yprev, ymid), so a loop that
ends at all ends within 2^193 turns: the bound cuts no loop short (log 15). -/
def ssFuel : Nat := 2 ^ 193

/-- The unit with the sample `x` shifted in and one sample period passed (R213). -/
def ssShift (cfg : Cfg) (x : C) (u : SymSync) : SymSync :=
  { u with
    buf := memSetPrefix C.zero ((x :: ssLine cfg u).take cfg.L) u.buf
    tau := u.tau.sub Config.one }

/-- `ss_push` (R213): the unit after one input sample, and the on-time outputs it produced. -/
def ssPush (cfg : Cfg) (x : C) (u : SymSync) : SymSync × List C := ssLoop cfg ssFuel (ssShift cfg x u) []

/-- `ss_rotate` (R217). -/
def ssRotate (cfg : Cfg) (c : C) (u : SymSync) : SymSync :=
  { u with
    buf := memSetPrefix C.zero ((ssLine cfg u).map fun z => cmul z c) u.buf
    yprev := cmul u.yprev c
    ymid := cmul u.ymid c }

/-- `ss_push` over a sample sequence: the unit and all on-time outputs in order (R226). -/
def ssRun (cfg : Cfg) : List C → SymSync → SymSync × List C
  | [], u => (u, [])
  | x :: xs, u =>
    let p := ssPush cfg x u
    let q := ssRun cfg xs p.1
    (q.1, p.2 ++ q.2)

/-- The initial state (R219): the coefficient table is kept, and the bandwidth is the wide one. -/
def ssInit (cfg : Cfg) (u : SymSync) : SymSync :=
  { u with
    buf := [], tau := Config.one, r := R.zero, half := false, yprev := C.zero, ymid := C.zero, bw := cfg.ssBwW }

/-- SS_SET_BW (R225). -/
def execSsSetBw (opnd : List Word) (s : State) : Host.Outcome State Fault Refusal :=
  settle .ssSetBw s <|
    match opnd with
    | [bw] =>
      if (decR bw).within R.zero Config.one then .ok ({ s with ss := { s.ss with bw := decR bw } }, [])
      else .error .badOperands
    | _ => .error .badOperands

/-- SS_EXECUTE (R226): the count of on-time outputs, then the outputs. -/
def execSsExecute (n : BitVec 24) (opnd : List Word) (s : State) : Host.Outcome State Fault Refusal :=
  settle .ssExecute s <|
    if opnd.length ≠ 2 * n.toNat then .error .badOperands
    else if !s.configured then .error .notConfigured
    else
      let out := ssRun s.cfg (samples opnd) s.ss
      .ok ({ s with ss := out.1 }, countWord out.2.length :: out.2.flatMap encC)

end Sys2Proof.Machine
end

