-- ==== Sys2Proof/Machine/FrameSync.lean ====
section
/-! DEFINITION. The sample pipeline, the frame state machine and the frame record (46_frame_sync.md), and the commands
of the frame engine. -/

namespace Sys2Proof.Machine

/-! ### Bandwidths and counters -/

/-- `set_wide` (R350). -/
def setWide (s : State) : State :=
  { s with
    agc := { s.agc with bw := s.cfg.agcBwW }
    pllBw := s.cfg.pllBwW
    ss := { s.ss with bw := s.cfg.ssBwW } }

/-- `set_narrow` (R350). -/
def setNarrow (s : State) : State :=
  { s with
    agc := { s.agc with bw := s.cfg.agcBwN }
    pllBw := s.cfg.pllBwN
    ss := { s.ss with bw := s.cfg.ssBwN } }

/-- `min(n + 1, bound)`, computed without wrapping. -/
def countUp (n : Word) (bound : Nat) : Word := BitVec.ofNat 32 (min (n.toNat + 1) bound)

/-! ### Phases (R349 to R358) -/

/-- `detect(d)` (R349). -/
def detect (d : Detection) (s : State) : State :=
  let pu := toPhase d.phi
  let agc := agcSeed s.cfg.A d.gain s.agc
  let eOld := R.fmax s.agc.e Config.eMin
  let eNew := R.fmax agc.e Config.eMin
  let s1 : State :=
    { s with
      stats := { s.stats with nDet := countUp s.stats.nDet (2 ^ 32 - 1) }
      lastDet := d
      nco :=
        { theta := s.nco.theta + pu
          omega := s.nco.omega + toPhase (d.dw.div (R.ofNat s.cfg.k))
          omegaSeek := s.nco.omega }
      agc := agc
      ss := ssRotate s.cfg (cscale (eOld.div eNew).sqrt (conj (cis pu))) s.ss
      demScheme := s.cfg.hdrMod
      fsm := { s.fsm with cnt := 0, bits := [], phase := .header } }
  if s.cfg.bwSwitch then s1 else setNarrow s1

/-- `do_reset(restore)` (R356): the RESET phase, which begins and ends here. -/
def doReset (restore : Bool) (s : State) : State :=
  let s1 := setWide s
  { s1 with
    nco := { s1.nco with omega := if restore then s1.nco.omegaSeek else s1.nco.omega }
    fsm := { s1.fsm with cnt := 0, bits := [], phase := .seek }
    det := detClear s1.det }

/-- The decode of a frame part (R355, R358) and the draws after it: `chain_decode` where the part has the bits that it
is stated for (R316). Fewer are stored where a scheme of fewer bits per symbol was selected within the frame (R463):
then the bytes and the flag are free values, a fresh draw each time (log 17). -/
def frameDecode (n : Nat) (fi fo : Fec) (s : State) : List Byte × Bool × Nat :=
  if chainL2 n fi fo ≤ s.fsm.bits.length then
    let out := chainDecode n fi fo s.cfg.D1 s.cfg.D2 s.fsm.bits
    (out.1, out.2, s.draws)
  else ((List.range n).map (Config.shortDecodeByte s.draws), Config.shortDecodeValid s.draws, s.draws + 1)

/-- The descriptor in the six bytes of a header message (R345), if every field is one the block supports (R355). -/
def parseHeader (maxPayload : Nat) (m : List Byte) : Option (Scheme × Header) :=
  match m with
  | [mod, bps, lenHi, lenLo, fi, fo] =>
    match Scheme.ofId mod.toNat, Fec.ofId fi.toNat, Fec.ofId fo.toNat with
    | some sch, some fecI, some fecO =>
      if bps.toNat = sch.bps && decide ((lenHi ++ lenLo).toNat ≤ maxPayload) then
        some (sch, { mod := mod, bps := bps, len := lenHi ++ lenLo, fecI := fecI, fecO := fecO })
      else none
    | _, _, _ => none
  | _ => none

/-- HDR_WORD0, and W0 of a record: length, scheme id, bits per symbol (R32, R360). -/
def headerWord0 (h : Header) : Word := h.len ++ h.mod ++ h.bps

/-- HDR_WORD1, and W1 of a record but for its valid bit: outer and inner FEC id (R32, R360). -/
def headerWord1 (h : Header) : Word := BitVec.ofNat 32 (256 * h.fecO.id + h.fecI.id)

/-- A valid header starts the payload (R355). -/
def startPayload (sch : Scheme) (h : Header) (s : State) : State :=
  let s1 : State :=
    { s with
      stats := { s.stats with nHdr := countUp s.stats.nHdr s.stats.nDet.toNat }
      hdrW0 := headerWord0 h
      hdrW1 := headerWord1 h
      demScheme := sch
      fsm :=
        { s.fsm with
          hdr := h
          paySyms := (chainL2 h.len.toNat h.fecI h.fecO + sch.bps - 1) / sch.bps
          cnt := 0, bits := [], evmAcc := R.zero, phase := .payload } }
  if s.cfg.bwSwitch then setNarrow s1 else s1

/-- `header_done` (R355). -/
def headerDone (s : State) : State :=
  let out := frameDecode 6 s.cfg.hdrFi s.cfg.hdrFo s
  let s1 : State := { s with draws := out.2.2 }
  match (if out.2.1 then parseHeader s.cfg.maxPayload out.1 else none) with
  | none => doReset true s1
  | some (sch, h) => startPayload sch h s1

/-- `frame_record(hdr, msg, ok)` (R360). -/
def frameRecord (h : Header) (msg : List Byte) (ok : Bool) (st : Stats) : List Word :=
  [headerWord0 h, headerWord1 h ||| (if ok then 0x80000000 else 0), st.nDet, st.nHdr, st.nPay,
    encR st.rssi, encR st.cfo, encR st.evm] ++ packBytes msg

/-- The statistics at the end of a payload (R358, R362). -/
def payloadStats (ok : Bool) (s : State) : Stats :=
  { s.stats with
    nPay := if ok then countUp s.stats.nPay s.stats.nHdr.toNat else s.stats.nPay
    rssi := s.agc.e
    cfo := phaseToRad s.nco.omega
    evm := s.fsm.evmAcc.div (R.ofNat s.fsm.paySyms) }

/-- `payload_done` (R358): the record is emitted whether or not the payload is valid. -/
def payloadDone (s : State) : State :=
  let out := frameDecode s.fsm.hdr.len.toNat s.fsm.hdr.fecI s.fsm.hdr.fecO s
  let st := payloadStats out.2.1 s
  doReset false
    { s with draws := out.2.2, stats := st, frames := s.frames ++ [frameRecord s.fsm.hdr out.1 out.2.1 st] }

/-- The number of bits the phase stores (R354). -/
def bitLimit (s : State) : Nat :=
  match s.fsm.phase with
  | .payload => chainL2 s.fsm.hdr.len.toNat s.fsm.hdr.fecI s.fsm.hdr.fecO
  | _ => chainL2 6 s.cfg.hdrFi s.cfg.hdrFo

/-- A symbol of HEADER or PAYLOAD demodulated, tracked, stored and counted (R354, all but the completion). -/
def takeSymbol (y : C) (s : State) : State :=
  let d := demod s.demScheme y
  { s with
    nco := pllStep s.cfg.k s.pllBw d.e s.nco
    fsm :=
      { s.fsm with
        evmAcc := if s.fsm.phase = .payload then s.fsm.evmAcc.add (cabs2 (csub y d.sh)) else s.fsm.evmAcc
        bits := s.fsm.bits ++ (symbolBits s.demScheme.bps d.u).take (bitLimit s - s.fsm.bits.length)
        cnt := s.fsm.cnt + 1 } }

/-- A symbol of SEEK (R352). -/
def seekSymbol (y : C) (s : State) : State :=
  let out := detPush s.cfg s.thresh y s.det
  match out.2 with
  | none => { s with det := out.1 }
  | some d => detect d { s with det := out.1 }

/-- `symbol(y)` (R352, R354). The phase is RESET within `do_reset` alone (R357): here it would end as R356 says
(log 18). -/
def symbol (y : C) (s : State) : State :=
  match s.fsm.phase with
  | .seek => seekSymbol y s
  | .header =>
    let t := takeSymbol y s
    if t.fsm.cnt = t.fsm.hdrSyms then headerDone t else t
  | .payload =>
    let t := takeSymbol y s
    if t.fsm.cnt = t.fsm.paySyms then payloadDone t else t
  | .reset => doReset false s

/-! ### The pipeline (R341) -/

/-- The mixer and the AGC on a sample: the state and the AGC's output. -/
def frontEnd (x : C) (s : State) : State × C :=
  let g := agcExecute s.cfg.A (mixDown s.nco x) s.agc
  ({ s with nco := ncoStep s.nco, agc := g.1 }, g.2.1)

/-- `sample(x)` (R341). -/
def sample (x : C) (s : State) : State :=
  let f := frontEnd x s
  let p := ssPush f.1.cfg f.2 f.1.ss
  p.2.foldl (fun s y => symbol y s) { f.1 with ss := p.1 }

/-- `sample` over a sequence. -/
def runSamples (xs : List C) (s : State) : State := xs.foldl (fun s x => sample x s) s

/-! ### Commands -/

/-- EXECUTE (R340). -/
def execExecute (n : BitVec 24) (opnd : List Word) (s : State) : Host.Outcome State Fault Refusal :=
  settle .execute s <|
    if opnd.length ≠ 2 * n.toNat then .error .badOperands
    else if !s.configured then .error .notConfigured
    else .ok (runSamples (samples opnd) s, [])

/-- RESET_STATS (R365). -/
def execResetStats (opnd : List Word) (s : State) : Host.Outcome State Fault Refusal :=
  settle .resetStats s <|
    match opnd with
    | [] => .ok ({ s with stats := State.reset.stats }, [])
    | _ => .error .badOperands

/-- GET_STATS (R366). -/
def execGetStats (opnd : List Word) (s : State) : Host.Outcome State Fault Refusal :=
  settle .getStats s <|
    match opnd with
    | [] =>
      .ok (s, [s.stats.nDet, s.stats.nHdr, s.stats.nPay, encR s.stats.rssi, encR s.stats.cfo, encR s.stats.evm])
    | _ => .error .badOperands

/-- GET_THRESHOLD (R367). -/
def execGetThreshold (opnd : List Word) (s : State) : Host.Outcome State Fault Refusal :=
  settle .getThreshold s <|
    match opnd with
    | [] => .ok (s, [encR s.thresh])
    | _ => .error .badOperands

/-- SET_THRESHOLD (R368). -/
def execSetThreshold (opnd : List Word) (s : State) : Host.Outcome State Fault Refusal :=
  settle .setThreshold s <|
    match opnd with
    | [t] =>
      if (decR t).within R.zero Config.one then .ok ({ s with thresh := decR t }, []) else .error .badOperands
    | _ => .error .badOperands

end Sys2Proof.Machine
end

