-- ==== Sys2Proof/Machine/Admin.lean ====
section
/-! DEFINITION. The administration and configuration commands (47_config_commands.md). -/

namespace Sys2Proof.Machine

/-! ### CONFIGURE -/

/-- An R register in `[0, 1]`; a NaN is not (R40, R49). -/
def unitWord (w : Word) : Bool := (decR w).within R.zero Config.one

/-- Step 2 of `check_config` (R393): every parameter of R38 to R44 and R47 to R52 in its range. All fail with the same
code. -/
def paramsOk (w : CfgWords) : Bool :=
  let k := w.kSps.toNat
  decide (k % 2 = 0 ∧ 2 ≤ k ∧ k ≤ Config.kMax) &&
  decide (1 ≤ w.mSemi.toNat ∧ w.mSemi.toNat ≤ Config.mMax) &&
  unitWord w.beta &&
  decide (1 ≤ w.npfb.toNat ∧ w.npfb.toNat ≤ Config.pMax) &&
  decide (w.nPre.toNat ≤ Config.nMax) &&
  decide (w.preSrc.toNat ≤ 1) &&
  (decide (w.preSrc.toNat ≠ 1) ||
    decide (2 ≤ w.prePoly.toNat ∧ w.preInit.toNat < 2 ^ polyDegree w.prePoly)) &&
  decide (1 ≤ (w.intlv.extractLsb' 0 8).toNat ∧ 1 ≤ (w.intlv.extractLsb' 8 8).toNat ∧
    w.intlv.extractLsb' 16 16 = 0) &&
  ((decR w.agcTarget).gt R.zero && (decR w.agcTarget).le Config.agcTargetMax) &&
  unitWord w.agcBwWide && unitWord w.agcBwNarrow && unitWord w.pllBwWide && unitWord w.pllBwNarrow &&
  unitWord w.ssBwWide && unitWord w.ssBwNarrow &&
  ((decR w.ssRmax).ge R.zero && (decR w.ssRmax).lt ((R.ofNat k).div Config.two)) &&
  decide (w.maxPayload.toNat ≤ Config.payloadCap) &&
  decide (w.mode.toNat < 4)

/-- The raw reference of the registers (R43, R241): preamble memory, or the generator. -/
def rawReference (w : CfgWords) (preMem : Cells C) : List C :=
  if w.preSrc.toNat = 1 then genRef w.prePoly w.preInit w.nPre.toNat else memSlice C.zero preMem 0 w.nPre.toNat

/-- `cfg` as the words decode (R34), with the header's scheme and codes. -/
def decodeCfg (w : CfgWords) (hdrMod : Scheme) (hdrFi hdrFo : Fec) : Cfg where
  k := w.kSps.toNat
  m := w.mSemi.toNat
  beta := decR w.beta
  P := w.npfb.toNat
  N := w.nPre.toNat
  preSrc := if w.preSrc.toNat = 1 then .generator else .memory
  prePoly := w.prePoly
  preInit := w.preInit
  hdrMod := hdrMod
  hdrFi := hdrFi
  hdrFo := hdrFo
  D1 := (w.intlv.extractLsb' 0 8).toNat
  D2 := (w.intlv.extractLsb' 8 8).toNat
  A := decR w.agcTarget
  agcBwW := decR w.agcBwWide
  agcBwN := decR w.agcBwNarrow
  pllBwW := decR w.pllBwWide
  pllBwN := decR w.pllBwNarrow
  ssBwW := decR w.ssBwWide
  ssBwN := decR w.ssBwNarrow
  rmax := decR w.ssRmax
  maxPayload := w.maxPayload.toNat
  bwSwitch := w.mode.getLsbD 0
  cfoEst := w.mode.getLsbD 1
  L := 2 * w.kSps.toNat * w.mSemi.toNat + 1
  hdrBps := hdrMod.bps
  hdrSyms := (chainL2 6 hdrFi hdrFo + hdrMod.bps - 1) / hdrMod.bps

/-- The header's inner and outer FEC codes (R46). -/
def headerFec (w : Word) : Option (Fec × Fec) :=
  match Fec.ofId (w.extractLsb' 0 8).toNat, Fec.ofId (w.extractLsb' 8 8).toNat with
  | some fi, some fo => if w.extractLsb' 16 16 = 0 then some (fi, fo) else none
  | _, _ => none

/-- `check_config` (R393): the configuration and the normalised reference, or the code of the first check that
fails. -/
def checkConfig (w : CfgWords) (preMem : Cells C) : Except ErrCode (Cfg × List C) :=
  if w.nPre = 0 then .error .cfgBadPreamble
  else if !paramsOk w then .error .cfgBadParam
  else
    match normaliseRef (rawReference w preMem) with
    | none => .error .cfgBadPreamble
    | some ref =>
      match Scheme.ofId w.hdrMod.toNat with
      | none => .error .cfgBadMod
      | some hdrMod =>
        match headerFec w.hdrFec with
        | none => .error .cfgBadFec
        | some (fi, fo) => .ok (decodeCfg w hdrMod fi fo, ref)

/-- The coefficient table latched from coefficient memory (R394): entry `b*L + j`, for `b < P` and `j < L`, becomes
tap j of branch b; every other tap is 0. -/
def latchTaps (P L : Nat) (coef : Cells R) : Cells R :=
  (coef.filter fun c => decide (c.1 < P * L)).map fun c => (c.1 / L * Config.lMax + c.1 % L, c.2)

/-- `latch_config` (R394). -/
def latchConfig (cfg : Cfg) (ref : List C) (s : State) : State :=
  { s with
    cfg := cfg
    ss := { s.ss with H := latchTaps cfg.P cfg.L s.coefMem }
    det := { s.det with ref := memSetPrefix C.zero ref [] } }

/-- `start_receiver` (R395). -/
def startReceiver (s : State) : State :=
  { s with
    nco := { theta := 0, omega := 0, omegaSeek := 0 }
    agc := { e := s.cfg.A.mul s.cfg.A, bw := s.cfg.agcBwW }
    pllBw := s.cfg.pllBwW
    ss := ssInit s.cfg s.ss
    det := detClear s.det
    demScheme := s.cfg.hdrMod
    fsm := { State.reset.fsm with hdrSyms := s.cfg.hdrSyms }
    hdrW0 := 0
    hdrW1 := 0
    stats := State.reset.stats
    lastDet := State.reset.lastDet
    configured := true }

/-- CONFIGURE (R392): the response of a failure is its code, which `settle` returns (R423). -/
def execConfigure (opnd : List Word) (s : State) : Host.Outcome State Fault Refusal :=
  settle .configure s <|
    match opnd with
    | [] =>
      match checkConfig s.words s.preMem with
      | .error c => .error c
      | .ok (cfg, ref) => .ok (startReceiver (latchConfig cfg ref s), [countWord 0])
    | _ => .error .badOperands

/-! ### NOP and RESET_BLOCK -/

/-- NOP (R390). -/
def execNop (opnd : List Word) (s : State) : Host.Outcome State Fault Refusal :=
  settle .nop s <|
    match opnd with
    | [] => .ok (s, [])
    | _ => .error .badOperands

/-- RESET_BLOCK's effect (R391): the block takes its reset state. The ports keep what they hold (records are not
withdrawn), and so does the model's own count of draws (log 11, log 17). -/
def resetBlock (s : State) : State :=
  { State.reset with cmds := s.cmds, resp := s.resp, frames := s.frames, draws := s.draws }

/-- RESET_BLOCK (R391). -/
def execResetBlock (opnd : List Word) (s : State) : Host.Outcome State Fault Refusal :=
  settle .resetBlock s <|
    match opnd with
    | [] => .ok (resetBlock s, [])
    | _ => .error .badOperands

/-! ### Registers -/

/-- REG_READ (R396). -/
def execRegRead (addr : BitVec 8) (opnd : List Word) (s : State) : Host.Outcome State Fault Refusal :=
  settle .regRead s <|
    match opnd with
    | [] =>
      match Reg.ofAddr addr with
      | some r => .ok (s, [regValue s r])
      | none => .error .badReg
    | _ => .error .badOperands

/-- REG_WRITE (R397). -/
def execRegWrite (addr : BitVec 8) (opnd : List Word) (s : State) : Host.Outcome State Fault Refusal :=
  settle .regWrite s <|
    match opnd with
    | [v] =>
      match Reg.ofAddr addr with
      | some r =>
        match regWritten s v r with
        | .ok t => .ok (t, [])
        | .error c => .error c
      | none => .error .badReg
    | _ => .error .badOperands

/-! ### Memories -/

/-- PRE_WRITE (R398). -/
def execPreWrite (idx : BitVec 10) (opnd : List Word) (s : State) : Host.Outcome State Fault Refusal :=
  settle .preWrite s <|
    match opnd with
    | [re, im] => .ok ({ s with preMem := memWrite C.zero idx.toNat (decC re im) s.preMem }, [])
    | _ => .error .badOperands

/-- COEF_WRITE (R399). -/
def execCoefWrite (idx : BitVec 15) (opnd : List Word) (s : State) : Host.Outcome State Fault Refusal :=
  settle .coefWrite s <|
    match opnd with
    | [w] =>
      if Config.coefWords ≤ idx.toNat then .error .badOperands
      else .ok ({ s with coefMem := memWrite R.zero idx.toNat (decR w) s.coefMem }, [])
    | _ => .error .badOperands

end Sys2Proof.Machine
end

