-- ==== Sys2Proof/Machine/Dispatch.lean ====
section
/-! DEFINITION. The dispatch: one arm per command, each one direct call of its meaning. -/

namespace Sys2Proof.Machine

def exec (i : Instr) (s : State) : Host.Outcome State Fault Refusal :=
  match i with
  | .nop opnd => Sys2Proof.Machine.execNop opnd s
  | .resetBlock opnd => Sys2Proof.Machine.execResetBlock opnd s
  | .configure opnd => Sys2Proof.Machine.execConfigure opnd s
  | .regRead addr opnd => Sys2Proof.Machine.execRegRead addr opnd s
  | .regWrite addr opnd => Sys2Proof.Machine.execRegWrite addr opnd s
  | .preWrite idx opnd => Sys2Proof.Machine.execPreWrite idx opnd s
  | .coefWrite idx opnd => Sys2Proof.Machine.execCoefWrite idx opnd s
  | .execute n opnd => Sys2Proof.Machine.execExecute n opnd s
  | .resetStats opnd => Sys2Proof.Machine.execResetStats opnd s
  | .getStats opnd => Sys2Proof.Machine.execGetStats opnd s
  | .getThreshold opnd => Sys2Proof.Machine.execGetThreshold opnd s
  | .setThreshold opnd => Sys2Proof.Machine.execSetThreshold opnd s
  | .oscMixDown opnd => Sys2Proof.Machine.execOscMixDown opnd s
  | .oscMixUp opnd => Sys2Proof.Machine.execOscMixUp opnd s
  | .oscCexp opnd => Sys2Proof.Machine.execOscCexp opnd s
  | .oscStep opnd => Sys2Proof.Machine.execOscStep opnd s
  | .oscAdjPhase opnd => Sys2Proof.Machine.execOscAdjPhase opnd s
  | .oscAdjFreq opnd => Sys2Proof.Machine.execOscAdjFreq opnd s
  | .pllSetBw opnd => Sys2Proof.Machine.execPllSetBw opnd s
  | .pllStep opnd => Sys2Proof.Machine.execPllStep opnd s
  | .agcSetBw opnd => Sys2Proof.Machine.execAgcSetBw opnd s
  | .agcExecute opnd => Sys2Proof.Machine.execAgcExecute opnd s
  | .agcSeed opnd => Sys2Proof.Machine.execAgcSeed opnd s
  | .ssSetBw opnd => Sys2Proof.Machine.execSsSetBw opnd s
  | .ssExecute n opnd => Sys2Proof.Machine.execSsExecute n opnd s
  | .detPush opnd => Sys2Proof.Machine.execDetPush opnd s
  | .detReset opnd => Sys2Proof.Machine.execDetReset opnd s
  | .demSetScheme id opnd => Sys2Proof.Machine.execDemSetScheme id opnd s
  | .demDemod opnd => Sys2Proof.Machine.execDemDemod opnd s
  | .dilDeinterleave depth opnd => Sys2Proof.Machine.execDilDeinterleave depth opnd s
  | .fecDecode id opnd => Sys2Proof.Machine.execFecDecode id opnd s
  | .crcCheck opnd => Sys2Proof.Machine.execCrcCheck opnd s
  | .decDecode fi fo opnd => Sys2Proof.Machine.execDecDecode fi fo opnd s

end Sys2Proof.Machine
end

