-- ==== Sys2Proof/Machine/Step.lean ====
section
/-! DEFINITION. One step of the block: the oldest issued command runs (20_memory.md R89, R93; 70_reset_and_hazards.md
R453, R460). -/

namespace Sys2Proof.Machine

/-- One step. The block has no program counter and fetches nothing (R31): it takes the oldest command transaction
issued at the command port, decodes it, and runs it whole. With no command issued it waits (R453). -/
def step (s : State) : Host.Outcome State Fault Refusal :=
  match s.cmds with
  | [] => .next s
  | t :: rest =>
    match decode t with
    | .ok i => exec i { s with cmds := rest }
    | .error e => illegal { s with cmds := rest } e

/-- The host issues, ahead of all waiting commands, the transaction whose bits are the low `nbits` bits of `w` (log
10). -/
def State.withFetchWord (s : State) (nbits w : Nat) : State := { s with cmds := tableTransaction nbits w :: s.cmds }

end Sys2Proof.Machine
end

