-- ==== Sys2Proof/Machine/Transmitter.lean ====
section
/-! DEFINITION. The transmitter the block receives from, as the spec defines it: the encoders of the chain
(45_decode_chain.md R303 to R306, R310, R317), the constellation points and the symbols of a frame (46_frame_sync.md
R344, R345, R348). The block itself encodes nothing: no meaning calls these. -/

namespace Sys2Proof.Machine

/-! ### The chain -/

/-- `crc[31:24]` first (R302). -/
def crcBytes (msg : List Byte) : List Byte := wordBytes (crc32 msg)

/-- The encoder of code 1 (R305). -/
def rep3Enc : List Bool → List Bool
  | [] => []
  | a :: b => a :: a :: a :: rep3Enc b

/-- The codewords of groups of four data bits (R306). -/
def hammingWords : List Bool → List Bool
  | d1 :: d2 :: d3 :: d4 :: b =>
    (d1 ^^ d2 ^^ d4) :: (d1 ^^ d3 ^^ d4) :: d1 :: (d2 ^^ d3 ^^ d4) :: d2 :: d3 :: d4 :: hammingWords b
  | _ => []

/-- The encoder of code 2 (R306): zero bits pad the input to a multiple of 4. -/
def hammingEnc (b : List Bool) : List Bool :=
  hammingWords (b ++ List.replicate (4 * ((b.length + 3) / 4) - b.length) false)

/-- `fec_enc` (R304 to R306). -/
def fecEnc (id : Fec) (b : List Bool) : List Bool :=
  match id with
  | .none => b
  | .rep3 => rep3Enc b
  | .hamming74 => hammingEnc b

/-- `interleave(D, b)` (R310). -/
def interleave (D : Nat) (b : List Bool) : List Bool := (interleaveOrder D b.length).map fun i => b.getD i false

/-- `chain_encode` (R317). -/
def chainEncode (msg : List Byte) (fi fo : Fec) (D1 D2 : Nat) : List Bool :=
  interleave D2 (fecEnc fi (interleave D1 (fecEnc fo (bitsOfBytes (msg ++ crcBytes msg)))))

/-! ### Symbols -/

/-- The `p` below `2^q` with `gray(p) = g`. -/
def grayInv (q g : Nat) : Nat := ((List.range (2 ^ q)).find? fun p => gray p == g).getD 0

/-- One axis of a QAM point (R348). -/
def qamPoint (q : Nat) (nrm : R) (u : Nat) : C :=
  ⟨qamCoord q nrm (grayInv q (u >>> q)), qamCoord q nrm (grayInv q (u % 2 ^ q))⟩

/-- `point(id, u)` (R348): the point `demod` decides with index u. -/
def point (sch : Scheme) (u : Nat) : C :=
  match sch with
  | .bpsk => if u = 0 then ⟨Config.one, R.zero⟩ else ⟨Config.negOne, R.zero⟩
  | .qpsk =>
    ⟨if u.testBit 1 then Config.negRh else Config.rh, if u.testBit 0 then Config.negRh else Config.rh⟩
  | .psk8 => psk8Point (grayInv 3 u)
  | .qam16 => qamPoint 2 Config.nrm16 u
  | .qam64 => qamPoint 3 Config.nrm64 u
  | .qam256 => qamPoint 4 Config.nrm256 u

/-- `tx_symbols` (R348): zero bits pad the last symbol. -/
def txSymbols (sch : Scheme) (msg : List Byte) (fi fo : Fec) (D1 D2 : Nat) : List C :=
  let b := chainEncode msg fi fo D1 D2
  let n := (b.length + sch.bps - 1) / sch.bps
  (chunks sch.bps n (b ++ List.replicate (n * sch.bps - b.length) false)).map fun g => point sch (natOfBits g)

/-- The header message (R345). -/
def headerMessage (sch : Scheme) (len : BitVec 16) (fi fo : Fec) : List Byte :=
  [BitVec.ofNat 8 sch.id, BitVec.ofNat 8 sch.bps, len.extractLsb' 8 8, len.extractLsb' 0 8,
    BitVec.ofNat 8 fi.id, BitVec.ofNat 8 fo.id]

/-- The symbols of a frame (R344): preamble, the pad (1, 0), header, payload. -/
def frameSymbols (cfg : Cfg) (preamble : List C) (sch : Scheme) (payload : List Byte) (fi fo : Fec) : List C :=
  preamble ++ [⟨Config.one, R.zero⟩] ++
    txSymbols cfg.hdrMod (headerMessage sch (BitVec.ofNat 16 payload.length) fi fo) cfg.hdrFi cfg.hdrFo cfg.D1 cfg.D2 ++
    txSymbols sch payload fi fo cfg.D1 cfg.D2

end Sys2Proof.Machine
end

