-- ==== Sys2Proof/Safety.lean ====
section
/-! DEFINITION. What holds in every state a run reaches, in the terms the statements use: the invariants the rules
state or imply. No command stops the machine (60_exceptions.md R420), so a safe run is one that keeps these. -/

namespace Sys2Proof.Machine

/-- The latched configuration is one that CONFIGURE accepts, with its derived values (R34, R38 to R52, R393, R394). -/
structure CfgOk (c : Cfg) : Prop where
  k_even : c.k % 2 = 0
  k_range : 2 ≤ c.k ∧ c.k ≤ Config.kMax
  m_range : 1 ≤ c.m ∧ c.m ≤ Config.mMax
  beta_range : c.beta.within R.zero Config.one = true
  P_range : 1 ≤ c.P ∧ c.P ≤ Config.pMax
  N_range : 1 ≤ c.N ∧ c.N ≤ Config.nMax
  generator :
    c.preSrc = .generator → 2 ≤ c.prePoly.toNat ∧ c.preInit.toNat < 2 ^ c.prePoly.toNat.log2
  D1_range : 1 ≤ c.D1 ∧ c.D1 < 256
  D2_range : 1 ≤ c.D2 ∧ c.D2 < 256
  A_range : c.A.gt R.zero = true ∧ c.A.le Config.agcTargetMax = true
  agc_bw : c.agcBwW.within R.zero Config.one = true ∧ c.agcBwN.within R.zero Config.one = true
  pll_bw : c.pllBwW.within R.zero Config.one = true ∧ c.pllBwN.within R.zero Config.one = true
  ss_bw : c.ssBwW.within R.zero Config.one = true ∧ c.ssBwN.within R.zero Config.one = true
  rmax_range : c.rmax.ge R.zero = true ∧ c.rmax.lt ((R.ofNat c.k).div Config.two) = true
  payload_range : c.maxPayload ≤ Config.payloadCap
  taps : c.L = 2 * c.k * c.m + 1
  hdr_bps : c.hdrBps = c.hdrMod.bps
  hdr_syms : c.hdrSyms = (chainL2 6 c.hdrFi c.hdrFo + c.hdrMod.bps - 1) / c.hdrMod.bps

/-- Every memory and buffer is in canonical form (Memory.wf), under a legal configuration. -/
def MemoryOk (s : State) : Prop := CfgOk s.cfg ∧ Memory.wf s = true

/-- `n_det >= n_hdr >= n_pay` (R363). -/
def StatsOrdered (s : State) : Prop :=
  s.stats.nPay.toNat ≤ s.stats.nHdr.toNat ∧ s.stats.nHdr.toNat ≤ s.stats.nDet.toNat

/-- The symbol counter and the bit buffer in each phase (R61, R353): the phase is never RESET, the counter is below the
phase's bound, and the buffer holds at most the bits the phase stores. -/
def PhaseOk (s : State) : Prop :=
  match s.fsm.phase with
  | .seek => s.fsm.cnt = 0 ∧ s.fsm.bits = []
  | .header => s.fsm.cnt < s.fsm.hdrSyms ∧ s.fsm.bits.length ≤ chainL2 6 s.cfg.hdrFi s.cfg.hdrFo
  | .payload =>
    s.fsm.cnt < s.fsm.paySyms ∧
      s.fsm.bits.length ≤ chainL2 s.fsm.hdr.len.toNat s.fsm.hdr.fecI s.fsm.hdr.fecO
  | .reset => False

/-- The frame state machine between commands (R37, R353): a block that is not configured is in SEEK, and a configured
one has the header's symbol count of its configuration. -/
def FrameOk (s : State) : Prop :=
  CfgOk s.cfg ∧ PhaseOk s ∧ (s.configured = false → s.fsm.phase = .seek) ∧
    (s.configured = true → s.fsm.hdrSyms = s.cfg.hdrSyms)

/-- The AGC energy is in `[0, E_MAX]` (R192), the three bandwidths and the threshold are in `[0, 1]` (R53, R170, R195,
R225), and the detector has counted at most N pushes (R59). -/
def LevelsOk (s : State) : Prop :=
  CfgOk s.cfg ∧ s.agc.e.within R.zero Config.eMax = true ∧ s.agc.bw.within R.zero Config.one = true ∧
    s.pllBw.within R.zero Config.one = true ∧ s.ss.bw.within R.zero Config.one = true ∧
    s.thresh.within R.zero Config.one = true ∧ s.det.fill ≤ s.cfg.N

/-- Between commands the time to the interpolator's next output is in `(0, 3k/4]` and the rate state in
`[-rmax, rmax]` (R213, R214). -/
def TimingOk (s : State) : Prop :=
  CfgOk s.cfg ∧ s.ss.tau.gt R.zero = true ∧
    s.ss.tau.le ((Config.three.mul (R.ofNat s.cfg.k)).div Config.four) = true ∧
    s.ss.r.within (R.zero.sub s.cfg.rmax) s.cfg.rmax = true

/-- All of them together. -/
def Safe (s : State) : Prop := MemoryOk s ∧ StatsOrdered s ∧ FrameOk s ∧ LevelsOk s ∧ TimingOk s

/-- The filter output on branch `b` (R212), over the entries of the table and of the delay line. -/
def filterOut (cfg : Cfg) (b : Nat) (u : SymSync) : C :=
  (List.range cfg.L).foldl
    (fun acc j =>
      ⟨acc.re.add ((memRead R.zero u.H (b * Config.lMax + j)).mul (memRead C.zero u.buf j).re),
        acc.im.add ((memRead R.zero u.H (b * Config.lMax + j)).mul (memRead C.zero u.buf j).im)⟩)
    C.zero

/-- The loop of `ss_push` as R213 writes it, turn by turn: `Turns cfg u ys w` says that from the unit `u` the loop ends
with the unit `w` and gave the on-time outputs `ys`. -/
inductive Turns (cfg : Cfg) : SymSync → List C → SymSync → Prop where
  /-- `st.ss_tau` is above 0: the loop ends. -/
  | done (u : SymSync) (h : u.tau.le R.zero = false) : Turns cfg u [] u
  /-- An on-time output. -/
  | onTime (u w : SymSync) (ys : List C) (b : Nat) (y : C) (e e' r : R) (h : u.tau.le R.zero = true)
      (hh : u.half = false)
      (hb : (b : Int) = clampInt ((R.zero.sub u.tau).mul (R.ofNat cfg.P)).floorInt 0 ((cfg.P : Int) - 1))
      (hy : y = filterOut cfg b u)
      (he : e = ((u.yprev.re.sub y.re).mul u.ymid.re).add ((u.yprev.im.sub y.im).mul u.ymid.im))
      (he' : e' =
        if e.ge Config.negOne && e.le Config.one then e
        else if e.gt Config.one then Config.one
        else if e.lt Config.negOne then Config.negOne
        else R.zero)
      (hr : r = R.clamp (u.r.add (((u.bw.mul u.bw).div Config.two).mul e')) (R.zero.sub cfg.rmax) cfg.rmax)
      (next : Turns cfg
        { u with
          r := r, yprev := y, half := true
          tau := u.tau.add
            (R.clamp ((((R.ofNat cfg.k).add r).div Config.two).add (u.bw.mul e')) ((R.ofNat cfg.k).div Config.four)
              ((Config.three.mul (R.ofNat cfg.k)).div Config.four)) } ys w) :
      Turns cfg u (y :: ys) w
  /-- A mid-point output. -/
  | midPoint (u w : SymSync) (ys : List C) (b : Nat) (h : u.tau.le R.zero = true) (hh : u.half = true)
      (hb : (b : Int) = clampInt ((R.zero.sub u.tau).mul (R.ofNat cfg.P)).floorInt 0 ((cfg.P : Int) - 1))
      (next : Turns cfg
        { u with
          ymid := filterOut cfg b u, half := false
          tau := u.tau.add (((R.ofNat cfg.k).add u.r).div Config.two) } ys w) :
      Turns cfg u ys w

/-- How many words a successful command answers (R116); none where the result fixes the number (R422). -/
def responseWords : Op → Option Nat
  | .ssExecute | .dilDeinterleave | .fecDecode | .decDecode => none
  | .configure | .regRead | .getThreshold => some 1
  | .oscMixDown | .oscMixUp | .oscCexp | .crcCheck => some 2
  | .agcExecute => some 3
  | .demDemod => some 4
  | .getStats | .detPush => some 6
  | .nop | .resetBlock | .regWrite | .preWrite | .coefWrite | .execute | .resetStats | .setThreshold | .oscStep
  | .oscAdjPhase | .oscAdjFreq | .pllSetBw | .pllStep | .agcSetBw | .agcSeed | .ssSetBw | .detReset
  | .demSetScheme => some 0

/-- The encoding of a command of format Z that answers no word (R113): with imm 0 the word stands for the command; with
any other imm it stands for none, and a step that takes it fails with ILLEGAL_CMD. -/
def EncodedZ (op : BitVec 8) (o : Op) (mk : List Word → Instr) : Prop :=
  (∀ opnd, decode ⟨op ++ (0 : BitVec 24), opnd⟩ = .ok (mk opnd)) ∧
    ∀ (imm : BitVec 24) (opnd : List Word), imm ≠ 0 →
      decode ⟨op ++ imm, opnd⟩ = .error (.reservedImm o) ∧
      ∀ (s : State) (rest : List Transaction), s.cmds = ⟨op ++ imm, opnd⟩ :: rest →
        step s = .next ({ s with cmds := rest }.failWith .illegalCmd [])

/-- `P` is kept by every step. -/
def KeptByStep (P : State → Prop) : Prop := ∀ s t, P s → step s = .next t → P t

end Sys2Proof.Machine
end

