-- ==== Sys2Proof/Certificates/Slice0/Obligations.lean ====
section
/-! DEFINITION. The statements for the provers, each a Prop. Every statement about a command's result has as its
conclusion that `exec` answers a next state, and gives that state whole, so that it says the frame as well. -/

open Sys2Proof Sys2Proof.Machine

/-! ### Encoding and the step -/

/-- R111, R113, R119, R123: decoding the word of any command, with every immediate and any operand words, gives the
command back; and a transaction that decodes is the encoding of what it decodes to, so no two words stand for one
command and no bit of a word is ignored. -/
def Obligations.DecodeEncode : Prop :=
  (∀ i : Instr, decode (encode i) = .ok i) ∧ ∀ (t : Transaction) (i : Instr), decode t = .ok i → encode i = t

/-- R116, R121, R123: the command word of every command, one row for each of the opcode map: the commands without fields,
and `(op << 24) | imm` with the fields of R113 at their places for the others, for every value of the fields; and words that
the rules write out. -/
def Obligations.WrittenWords : Prop :=
  ∀ ws : List Word,
    (∀ p ∈ ([(0x00000000, .nop ws), (0x01000000, .resetBlock ws), (0x02000000, .configure ws),
        (0x11000000, .resetStats ws), (0x12000000, .getStats ws), (0x13000000, .getThreshold ws),
        (0x14000000, .setThreshold ws), (0x20000000, .oscMixDown ws),
        (0x21000000, .oscMixUp ws), (0x22000000, .oscCexp ws), (0x23000000, .oscStep ws), (0x24000000, .oscAdjPhase ws),
        (0x25000000, .oscAdjFreq ws), (0x28000000, .pllSetBw ws), (0x29000000, .pllStep ws), (0x30000000, .agcSetBw ws),
        (0x31000000, .agcExecute ws), (0x32000000, .agcSeed ws), (0x38000000, .ssSetBw ws), (0x40000000, .detPush ws),
        (0x41000000, .detReset ws), (0x49000000, .demDemod ws), (0x52000000, .crcCheck ws)] : List (Word × Instr)),
      encode p.2 = ⟨p.1, ws⟩ ∧ decode ⟨p.1, ws⟩ = .ok p.2) ∧
    (∀ (a : BitVec 8) (p : BitVec 10) (c : BitVec 15) (n : BitVec 24) (fi fo : BitVec 8),
      encode (.regRead a ws) = ⟨BitVec.ofNat 32 (0x03 * 2 ^ 24 + a.toNat), ws⟩ ∧
      encode (.regWrite a ws) = ⟨BitVec.ofNat 32 (0x04 * 2 ^ 24 + a.toNat), ws⟩ ∧
      encode (.preWrite p ws) = ⟨BitVec.ofNat 32 (0x05 * 2 ^ 24 + p.toNat), ws⟩ ∧
      encode (.coefWrite c ws) = ⟨BitVec.ofNat 32 (0x06 * 2 ^ 24 + c.toNat), ws⟩ ∧
      encode (.execute n ws) = ⟨BitVec.ofNat 32 (0x10 * 2 ^ 24 + n.toNat), ws⟩ ∧
      encode (.ssExecute n ws) = ⟨BitVec.ofNat 32 (0x39 * 2 ^ 24 + n.toNat), ws⟩ ∧
      encode (.demSetScheme a ws) = ⟨BitVec.ofNat 32 (0x48 * 2 ^ 24 + a.toNat), ws⟩ ∧
      encode (.dilDeinterleave n ws) = ⟨BitVec.ofNat 32 (0x50 * 2 ^ 24 + n.toNat), ws⟩ ∧
      encode (.fecDecode a ws) = ⟨BitVec.ofNat 32 (0x51 * 2 ^ 24 + a.toNat), ws⟩ ∧
      encode (.decDecode fi fo ws) = ⟨BitVec.ofNat 32 (0x53 * 2 ^ 24 + fo.toNat * 2 ^ 8 + fi.toNat), ws⟩) ∧
    decode ⟨0x0300003B, ws⟩ = .ok (.regRead 0x3B ws) ∧ decode ⟨0x04000022, ws⟩ = .ok (.regWrite 0x22 ws) ∧
    decode ⟨0x06004040, ws⟩ = .ok (.coefWrite 16448 ws) ∧ decode ⟨0x05000003, ws⟩ = .ok (.preWrite 3 ws) ∧
    decode ⟨0x39000005, ws⟩ = .ok (.ssExecute 5 ws) ∧ decode ⟨0x10000002, ws⟩ = .ok (.execute 2 ws) ∧
    decode ⟨0x48000004, ws⟩ = .ok (.demSetScheme 4 ws) ∧ decode ⟨0x51000002, ws⟩ = .ok (.fecDecode 2 ws) ∧
    decode ⟨0x53000102, ws⟩ = .ok (.decDecode 2 1 ws) ∧ decode ⟨0x50000003, ws⟩ = .ok (.dilDeinterleave 3 ws)

/-- R89, R93, R453: a step takes the oldest issued transaction and runs the command it decodes to; with none issued the
block waits. That waiting is a step which changes nothing is the model's choice (log 10). -/
def Obligations.StepRunsDecodedCommand : Prop :=
  (∀ (s : State) (t : Transaction) (rest : List Transaction) (i : Instr),
      s.cmds = t :: rest → decode t = .ok i → step s = exec i { s with cmds := rest }) ∧
    ∀ s : State, s.cmds = [] → step s = .next s

/-- R112, R119, R421: an opcode outside the map, or a reserved immediate bit, fails with ILLEGAL_CMD and changes nothing
but ERR; a reserved opcode answers no word, a listed one as many zeros as its success, CONFIGURE its code. -/
def Obligations.IllegalWords : Prop :=
  ∀ (s : State) (t : Transaction) (rest : List Transaction), s.cmds = t :: rest →
    ((t.cmd.extractLsb' 24 8).toNat ∉
        [0x00, 0x01, 0x02, 0x03, 0x04, 0x05, 0x06, 0x10, 0x11, 0x12, 0x13, 0x14, 0x20, 0x21, 0x22, 0x23, 0x24, 0x25,
          0x28, 0x29, 0x30, 0x31, 0x32, 0x38, 0x39, 0x40, 0x41, 0x48, 0x49, 0x50, 0x51, 0x52, 0x53] →
      step s = .next { s with cmds := rest, err := s.err.record .illegalCmd, resp := s.resp ++ [[]] }) ∧
    ∀ o : Op, t.cmd.extractLsb' 24 8 = o.code → 2 ^ o.immBits ≤ (t.cmd.extractLsb' 0 24).toNat →
      step s = .next
        { s with
          cmds := rest
          err := s.err.record .illegalCmd
          resp :=
            s.resp ++
              [if o = .configure then [(1 : Word)]
                else match responseWords o with | some n => List.replicate n (0 : Word) | none => [(0 : Word)]] }

/-! ### Failures -/

/-- R112, R117, R424, R453: a command whose operand count is not the expected one fails with BAD_OPERANDS, whatever the
state, so before every other check; with the right count, EXECUTE, SS_EXECUTE and DET_PUSH fail with NOT_CONFIGURED
before a CONFIGURE has succeeded. -/
def Obligations.FailureOrder : Prop :=
  (∀ (i : Instr) (s : State), i.wellFormed = false →
      exec i s = .next (s.failWith .badOperands (failResponse .badOperands i.op))) ∧
    ∀ (i : Instr) (s : State), i.op = .execute ∨ i.op = .ssExecute ∨ i.op = .detPush → i.wellFormed = true →
      s.configured = false → exec i s = .next (s.failWith .notConfigured (failResponse .notConfigured i.op))

/-- R421, R422: every command ends, either failed with a code, ERR alone changed and the response zero-filled (for
CONFIGURE the code, for a variable-length response one 0), or completed with its response and ERR as it was, unless the
command is one that clears ERR. A failure emits no record. -/
def Obligations.EveryCommandEnds : Prop :=
  ∀ (i : Instr) (s : State),
    (∃ c : ErrCode, c ≠ .none ∧
        exec i s = .next
          { s with
            err := { first := if s.err.first = .none then c else s.err.first, last := c }
            resp :=
              s.resp ++
                [if i.op = .configure then [countWord c.code]
                  else match responseWords i.op with | some n => List.replicate n (0 : Word) | none => [(0 : Word)]] }) ∨
      ∃ (t : State) (r : List Word), exec i s = .next t ∧ t.resp = s.resp ++ [r] ∧ t.cmds = s.cmds ∧
        (∀ n, responseWords i.op = some n → r.length = n) ∧ (i.op = .configure → r = [0]) ∧
        (t.err = s.err ∨ (t.err = { first := .none, last := .none } ∧ (i.op = .resetBlock ∨ i.op = .regWrite)))

/-- R36: the error codes by their numbers in R425; the error record, its register, its clearing write and its reading. -/
def Obligations.ErrorRecord : Prop :=
  ([ErrCode.none, .illegalCmd, .badOperands, .notConfigured, .cfgBadPreamble, .cfgBadMod, .cfgBadFec, .cfgBadParam,
      .badReg].map ErrCode.code = [0, 1, 2, 3, 4, 5, 6, 7, 8]) ∧
    (∀ (s : State) (c : ErrCode) (r : List Word),
      (s.failWith c r).err.last = c ∧
        (s.failWith c r).err.first = if s.err.first = .none then c else s.err.first) ∧
    (∀ e : ErrRec,
      ((errWord e).extractLsb' 0 8).toNat = e.first.code ∧ ((errWord e).extractLsb' 8 8).toNat = e.last.code ∧
        (errWord e).extractLsb' 16 16 = 0) ∧
    (∀ (s : State) (v : Word),
      exec (.regWrite 0x01 [v]) s = .next ({ s with err := { first := .none, last := .none } }.respond [])) ∧
    ∀ s : State, exec (.regRead 0x01 []) s = .next (s.respond [errWord s.err])

/-- R90, R461: the commands that only read, and those of the decode chain, change nothing but their response and, on
a failure, ERR. -/
def Obligations.ReadingCommandsChangeNothing : Prop :=
  ∀ (i : Instr) (s t : State),
    i.op ∈ [Op.nop, .regRead, .getStats, .getThreshold, .oscMixDown, .oscMixUp, .oscCexp, .demDemod,
      .dilDeinterleave, .fecDecode, .crcCheck, .decDecode] →
    exec i s = .next t → { t with resp := s.resp, err := s.err } = s

/-- R90, R395: repeating a register write, a memory write, SET_THRESHOLD, a bandwidth command or CONFIGURE leaves the
same state. -/
def Obligations.WritesIdempotent : Prop :=
  ∀ (i : Instr) (s t u : State),
    i.op ∈ [Op.regWrite, .preWrite, .coefWrite, .setThreshold, .pllSetBw, .agcSetBw, .ssSetBw, .configure] →
    Memory.wf s = true → exec i s = .next t → exec i t = .next u →
    { u with resp := t.resp, err := t.err } = t ∧ u.err = t.err

/-! ### Administration -/

/-- R390: NOP. -/
def Obligations.NopDoesNothing : Prop :=
  EncodedZ 0x00 .nop .nop ∧ (∀ s : State, exec (.nop []) s = .next (s.respond [])) ∧
    ∀ (s : State) (ws : List Word), ws.length ≠ 0 → exec (.nop ws) s = .next (s.failWith .badOperands [])

/-- R391, R450: RESET_BLOCK puts every register, memory and internal element at its reset value. That the ports keep
what they hold, and the model's count of draws, is said of the records by R391 and is for the rest the model's choice
(log 11, log 17). Beyond what registers show, the reset values are: cfg as the reset words decode (R34), no frequency to
restore (R56), a cleared delay line, coefficient table and synchroniser history (R58), a cleared reference, window and
history of the detector (R59), an empty bit buffer, a zero error sum and header descriptor (R61), and zeros in both
memories (R65). -/
def Obligations.ResetBlockResets : Prop :=
  (∀ s : State, exec (.resetBlock []) s = .next
    { State.reset with cmds := s.cmds, resp := s.resp ++ [[]], frames := s.frames, draws := s.draws }) ∧
    ∃ (w : CfgWords) (s : State), s = State.reset ∧ w = s.words ∧
      (s.cfg.k = w.kSps.toNat ∧ s.cfg.m = w.mSemi.toNat ∧ s.cfg.beta = decR w.beta ∧ s.cfg.P = w.npfb.toNat ∧
        s.cfg.N = w.nPre.toNat ∧ s.cfg.preSrc = .generator ∧ w.preSrc = 1 ∧ s.cfg.prePoly = w.prePoly ∧
        s.cfg.preInit = w.preInit ∧ s.cfg.hdrMod.id = w.hdrMod.toNat ∧ s.cfg.hdrFi.id = w.hdrFec.toNat % 256 ∧
        s.cfg.hdrFo.id = w.hdrFec.toNat / 256 ∧ s.cfg.D1 = w.intlv.toNat % 256 ∧ s.cfg.D2 = w.intlv.toNat / 256 ∧
        s.cfg.A = decR w.agcTarget ∧ s.cfg.agcBwW = decR w.agcBwWide ∧ s.cfg.agcBwN = decR w.agcBwNarrow ∧
        s.cfg.pllBwW = decR w.pllBwWide ∧ s.cfg.pllBwN = decR w.pllBwNarrow ∧ s.cfg.ssBwW = decR w.ssBwWide ∧
        s.cfg.ssBwN = decR w.ssBwNarrow ∧ s.cfg.rmax = decR w.ssRmax ∧ s.cfg.maxPayload = w.maxPayload.toNat ∧
        s.cfg.bwSwitch = w.mode.getLsbD 0 ∧ s.cfg.cfoEst = w.mode.getLsbD 1 ∧
        s.cfg.L = 2 * w.kSps.toNat * w.mSemi.toNat + 1 ∧ s.cfg.hdrBps = 2 ∧ s.cfg.hdrSyms = 40) ∧
      s.nco = { theta := 0, omega := 0, omegaSeek := 0 } ∧ s.pllBw = s.cfg.pllBwW ∧
      s.agc = { e := s.cfg.A.mul s.cfg.A, bw := s.cfg.agcBwW } ∧
      (∀ j, memRead C.zero s.ss.buf j = C.zero) ∧ (∀ j, memRead R.zero s.ss.H j = R.zero) ∧
      s.ss.tau = Config.one ∧ s.ss.r = R.zero ∧ s.ss.half = false ∧ s.ss.yprev = C.zero ∧ s.ss.ymid = C.zero ∧
      s.ss.bw = s.cfg.ssBwW ∧
      (∀ j, memRead C.zero s.det.ref j = C.zero ∧ memRead C.zero s.det.win j = C.zero ∧
        memRead R.zero s.det.en j = R.zero) ∧
      s.det.fill = 0 ∧ s.det.pend = false ∧ s.det.rho1 = R.zero ∧ s.det.rho2 = R.zero ∧ s.det.S1 = C.zero ∧
      s.det.S2 = C.zero ∧ s.det.Sa1 = C.zero ∧ s.det.Sb1 = C.zero ∧
      s.fsm.phase = .seek ∧ s.fsm.cnt = 0 ∧ s.fsm.bits = [] ∧ s.fsm.evmAcc = R.zero ∧
      s.fsm.hdr = { mod := 0, bps := 0, len := 0, fecI := .none, fecO := .none } ∧ s.fsm.hdrSyms = 0 ∧
      s.fsm.paySyms = 0 ∧ s.demScheme = s.cfg.hdrMod ∧ s.configured = false ∧ s.thresh = Config.half ∧
      (∀ j, memRead C.zero s.preMem j = C.zero) ∧ ∀ j, memRead R.zero s.coefMem j = R.zero

/-- R32, R35, R36, R396: a read of each mapped register, in every state, answers that register's element and changes
nothing, with the phases numbered as STATUS shows them; at reset it answers the map's last column; a read of any other
address fails with BAD_REG. -/
def Obligations.RegisterReads : Prop :=
  ([Phase.seek, .header, .payload, .reset].map Phase.code = [0, 1, 2, 3]) ∧
    (∀ s : State,
      ∀ p ∈ ([(0x00, BitVec.ofNat 32 (2 * s.fsm.phase.code + s.configured.toNat)),
          (0x01, BitVec.ofNat 32 (256 * s.err.last.code + s.err.first.code)), (0x02, BitVec.ofNat 32 s.fsm.cnt),
          (0x03, BitVec.ofNat 32 s.fsm.hdrSyms), (0x04, BitVec.ofNat 32 s.fsm.paySyms), (0x08, s.words.kSps),
          (0x09, s.words.mSemi), (0x0A, s.words.beta), (0x0B, s.words.npfb), (0x0C, s.words.nPre),
          (0x0D, s.words.preSrc), (0x0E, s.words.prePoly), (0x0F, s.words.preInit), (0x10, s.words.hdrMod),
          (0x11, s.words.hdrFec), (0x12, s.words.intlv), (0x13, s.words.agcTarget), (0x14, s.words.agcBwWide),
          (0x15, s.words.agcBwNarrow), (0x16, s.words.pllBwWide), (0x17, s.words.pllBwNarrow),
          (0x18, s.words.ssBwWide), (0x19, s.words.ssBwNarrow), (0x1A, s.words.ssRmax), (0x1B, s.words.maxPayload),
          (0x1C, s.words.mode), (0x20, encR s.thresh), (0x21, s.nco.theta), (0x22, s.nco.omega),
          (0x23, encR s.agc.e), (0x24, encR s.agc.bw), (0x25, encR s.pllBw), (0x26, encR s.ss.bw),
          (0x27, BitVec.ofNat 32 s.demScheme.id), (0x28, encR s.ss.tau), (0x29, encR s.ss.r),
          (0x2C, encR s.lastDet.tau), (0x2D, encR s.lastDet.dw), (0x2E, encR s.lastDet.phi),
          (0x2F, encR s.lastDet.gain), (0x30, encR s.lastDet.metric), (0x31, s.hdrW0), (0x32, s.hdrW1),
          (0x38, s.stats.nDet), (0x39, s.stats.nHdr), (0x3A, s.stats.nPay), (0x3B, encR s.stats.rssi),
          (0x3C, encR s.stats.cfo), (0x3D, encR s.stats.evm)] : List (BitVec 8 × Word)),
        exec (.regRead p.1 []) s = .next (s.respond [p.2])) ∧
    (∀ p ∈ ([(0x00, 0), (0x01, 0), (0x02, 0), (0x03, 0), (0x04, 0), (0x08, 2), (0x09, 3), (0x0A, 0x3E800000),
        (0x0B, 32), (0x0C, 64), (0x0D, 1), (0x0E, 0x43), (0x0F, 1), (0x10, 2), (0x11, 0), (0x12, 0x801),
        (0x13, 0x3F800000), (0x14, 0x3D800000), (0x15, 0x3C000000), (0x16, 0x3D800000), (0x17, 0x3C800000),
        (0x18, 0x3E800000), (0x19, 0x3C800000), (0x1A, 0x3B000000), (0x1B, 4096), (0x1C, 0), (0x20, 0x3F000000),
        (0x21, 0), (0x22, 0), (0x23, 0x3F800000), (0x24, 0x3D800000), (0x25, 0x3D800000), (0x26, 0x3E800000),
        (0x27, 2), (0x28, 0x3F800000), (0x29, 0), (0x2C, 0), (0x2D, 0), (0x2E, 0), (0x2F, 0), (0x30, 0), (0x31, 0),
        (0x32, 0), (0x38, 0), (0x39, 0), (0x3A, 0), (0x3B, 0), (0x3C, 0), (0x3D, 0)] : List (BitVec 8 × Word)),
      exec (.regRead p.1 []) State.reset = .next (State.reset.respond [p.2])) ∧
    ∀ (a : BitVec 8) (s : State),
      a.toNat ∈ [0x05, 0x06, 0x07, 0x1D, 0x1E, 0x1F, 0x2A, 0x2B, 0x33, 0x34, 0x35, 0x36, 0x37] ∨ 0x3E ≤ a.toNat →
      exec (.regRead a []) s = .next (s.failWith .badReg [0])

/-- R33, R396, R397: a CFG register reads back exactly the word last written, a write of one leaves every other register
word and the whole pipeline as they were, and a write to a read-only or unmapped address fails with BAD_REG. -/
def Obligations.RegisterClasses : Prop :=
  (∀ (a : BitVec 8) (s : State) (v : Word), 0x08 ≤ a.toNat → a.toNat ≤ 0x1C →
      ∃ w : CfgWords, exec (.regWrite a [v]) s = .next ({ s with words := w }.respond []) ∧
        exec (.regRead a []) { s with words := w } = .next ({ s with words := w }.respond [v]) ∧
        ∀ b : BitVec 8, b ≠ a → ∀ r, exec (.regRead b []) s = .next (s.respond r) →
          exec (.regRead b []) { s with words := w } = .next ({ s with words := w }.respond r)) ∧
    ∀ (a : BitVec 8) (s : State) (v : Word),
      a.toNat ∈ [0x00, 0x02, 0x03, 0x04, 0x05, 0x06, 0x07, 0x1D, 0x1E, 0x1F] ∨ 0x24 ≤ a.toNat →
      exec (.regWrite a [v]) s = .next (s.failWith .badReg [])

/-- R53, R54, R55, R397: the LIVE registers. A write changes its element alone, after its check. -/
def Obligations.LiveWrites : Prop :=
  ∀ (s : State) (v : Word),
    exec (.regWrite 0x21 [v]) s = .next ({ s with nco := { s.nco with theta := v } }.respond []) ∧
    exec (.regWrite 0x22 [v]) s = .next ({ s with nco := { s.nco with omega := v } }.respond []) ∧
    exec (.regWrite 0x20 [v]) s =
      (if (decR v).ge R.zero && (decR v).le Config.one then .next ({ s with thresh := decR v }.respond [])
        else .next (s.failWith .badOperands [])) ∧
    exec (.regWrite 0x23 [v]) s =
      (if (decR v).ge R.zero && (decR v).le Config.eMax then
        .next ({ s with agc := { s.agc with e := decR v } }.respond [])
        else .next (s.failWith .badOperands []))

/-- R398, R399, R81, R83: PRE_WRITE and COEF_WRITE store one entry and leave every other entry, and the rest of the
state, as it was; COEF_WRITE fails with BAD_OPERANDS at an index above the 16448 entries. -/
def Obligations.MemoryWritesStore : Prop :=
  (∀ (idx : BitVec 10) (re im : Word) (s : State), Memory.wf s = true →
      ∃ m, exec (.preWrite idx [re, im]) s = .next ({ s with preMem := m }.respond []) ∧
        memRead C.zero m idx.toNat = ⟨decR re, decR im⟩ ∧
        ∀ i, i ≠ idx.toNat → memRead C.zero m i = memRead C.zero s.preMem i) ∧
    ∀ (idx : BitVec 15) (w : Word) (s : State), Memory.wf s = true →
      (idx.toNat < 16448 →
        ∃ m, exec (.coefWrite idx [w]) s = .next ({ s with coefMem := m }.respond []) ∧
          memRead R.zero m idx.toNat = decR w ∧
          ∀ i, i ≠ idx.toNat → memRead R.zero m i = memRead R.zero s.coefMem i) ∧
      (16448 ≤ idx.toNat → exec (.coefWrite idx [w]) s = .next (s.failWith .badOperands []))

/-! ### CONFIGURE -/

/-- R392, R395, R423: a CONFIGURE whose checks pass answers 0 and starts the receiver from the latched configuration,
keeping THRESH, ERR, the CFG words, both memories, the ports and the model's count of draws (the last two by log 11 and
log 17); one whose checks fail answers its code. -/
def Obligations.ConfigureStarts : Prop :=
  ∀ s : State,
    (∀ c, checkConfig s.words s.preMem = .error c →
      exec (.configure []) s = .next (s.failWith c [countWord c.code])) ∧
    ∀ cfg ref, checkConfig s.words s.preMem = .ok (cfg, ref) →
      ∃ t : State, exec (.configure []) s = .next t ∧
        t.resp = s.resp ++ [[0]] ∧ t.cmds = s.cmds ∧ t.frames = s.frames ∧ t.draws = s.draws ∧
        t.words = s.words ∧ t.preMem = s.preMem ∧ t.coefMem = s.coefMem ∧ t.thresh = s.thresh ∧ t.err = s.err ∧
        t.cfg = cfg ∧ t.configured = true ∧ t.nco = { theta := 0, omega := 0, omegaSeek := 0 } ∧
        t.agc = { e := cfg.A.mul cfg.A, bw := cfg.agcBwW } ∧ t.pllBw = cfg.pllBwW ∧
        t.ss.buf = [] ∧ t.ss.tau = Config.one ∧ t.ss.r = R.zero ∧ t.ss.half = false ∧
        t.ss.yprev = C.zero ∧ t.ss.ymid = C.zero ∧ t.ss.bw = cfg.ssBwW ∧
        t.det.win = [] ∧ t.det.en = [] ∧ t.det.fill = 0 ∧ t.det.pend = false ∧ t.det.rho1 = R.zero ∧
        t.det.rho2 = R.zero ∧ t.det.S1 = C.zero ∧ t.det.S2 = C.zero ∧ t.det.Sa1 = C.zero ∧ t.det.Sb1 = C.zero ∧
        t.demScheme = cfg.hdrMod ∧
        t.fsm =
          { phase := .seek, cnt := 0, bits := [], evmAcc := R.zero,
            hdr := { mod := 0, bps := 0, len := 0, fecI := .none, fecO := .none },
            hdrSyms := cfg.hdrSyms, paySyms := 0 } ∧
        t.hdrW0 = 0 ∧ t.hdrW1 = 0 ∧
        t.stats = { nDet := 0, nHdr := 0, nPay := 0, rssi := R.zero, cfo := R.zero, evm := R.zero } ∧
        t.lastDet = { tau := R.zero, dw := R.zero, phi := R.zero, gain := R.zero, metric := R.zero }

/-- R34, R38 to R52, R242, R393, R394: what CONFIGURE accepts is in the ranges of the rules and holds the CFG words
decoded, field by field; the raw reference is the generator's or the first N entries of preamble memory, and the latched
one is the raw one scaled by the root of N over its energy, which is above 0 and at most E_REF_MAX. The header takes at
least 10 symbols. -/
def Obligations.ConfigureAccepts : Prop :=
  ∀ (w : CfgWords) (m : Cells C) (cfg : Cfg) (ref : List C), checkConfig w m = .ok (cfg, ref) →
    CfgOk cfg ∧ ref.length = cfg.N ∧ 10 ≤ cfg.hdrSyms ∧
    (cfg.k = w.kSps.toNat ∧ cfg.m = w.mSemi.toNat ∧ cfg.beta = decR w.beta ∧ cfg.P = w.npfb.toNat ∧
      cfg.N = w.nPre.toNat ∧ (cfg.preSrc = .memory ↔ w.preSrc = 0) ∧ (cfg.preSrc = .generator ↔ w.preSrc = 1) ∧
      cfg.prePoly = w.prePoly ∧ cfg.preInit = w.preInit ∧ cfg.hdrMod.id = w.hdrMod.toNat ∧
      cfg.hdrFi.id = w.hdrFec.toNat % 256 ∧ cfg.hdrFo.id = w.hdrFec.toNat / 256 ∧ cfg.D1 = w.intlv.toNat % 256 ∧
      cfg.D2 = w.intlv.toNat / 256 ∧ cfg.A = decR w.agcTarget ∧ cfg.agcBwW = decR w.agcBwWide ∧
      cfg.agcBwN = decR w.agcBwNarrow ∧ cfg.pllBwW = decR w.pllBwWide ∧ cfg.pllBwN = decR w.pllBwNarrow ∧
      cfg.ssBwW = decR w.ssBwWide ∧ cfg.ssBwN = decR w.ssBwNarrow ∧ cfg.rmax = decR w.ssRmax ∧
      cfg.maxPayload = w.maxPayload.toNat ∧ cfg.bwSwitch = w.mode.getLsbD 0 ∧ cfg.cfoEst = w.mode.getLsbD 1) ∧
    ∃ (raw : List C) (er : R),
      (w.preSrc = 1 → raw = genRef w.prePoly w.preInit w.nPre.toNat) ∧
      (w.preSrc = 0 → cellsWf C.zero Config.nMax 0 m = true →
        raw = (List.range w.nPre.toNat).map (memRead C.zero m)) ∧
      er = (raw.map cabs2).foldl R.add R.zero ∧ er.gt R.zero = true ∧ er.gt Config.eRefMax = false ∧
      ref = raw.map (cscale ((R.ofNat w.nPre.toNat).div er).sqrt)

/-- R38 to R44, R47 to R52, R242, R393: the parameter checks pass exactly on the words in the ranges of the rules, the
reference is refused exactly where its energy is not above 0 or is above E_REF_MAX, and the order of the checks decides
the code that a configuration with several faults reports. -/
def Obligations.ConfigureCheckOrder : Prop :=
  (∀ w : CfgWords,
      paramsOk w = true ↔
        (w.kSps.toNat % 2 = 0 ∧ 2 ≤ w.kSps.toNat ∧ w.kSps.toNat ≤ 16) ∧ (1 ≤ w.mSemi.toNat ∧ w.mSemi.toNat ≤ 8) ∧
        ((decR w.beta).ge R.zero = true ∧ (decR w.beta).le Config.one = true) ∧
        (1 ≤ w.npfb.toNat ∧ w.npfb.toNat ≤ 64) ∧ w.nPre.toNat ≤ 1024 ∧ (w.preSrc = 0 ∨ w.preSrc = 1) ∧
        (w.preSrc = 1 → 2 ≤ w.prePoly.toNat ∧ ∀ i, w.prePoly.toNat.log2 ≤ i → w.preInit.getLsbD i = false) ∧
        (w.intlv.toNat % 256 ≠ 0 ∧ w.intlv.toNat / 256 % 256 ≠ 0 ∧ w.intlv.toNat < 65536) ∧
        ((decR w.agcTarget).gt R.zero = true ∧ (decR w.agcTarget).le Config.agcTargetMax = true) ∧
        (∀ b ∈ [w.agcBwWide, w.agcBwNarrow, w.pllBwWide, w.pllBwNarrow, w.ssBwWide, w.ssBwNarrow],
          (decR b).ge R.zero = true ∧ (decR b).le Config.one = true) ∧
        ((decR w.ssRmax).ge R.zero = true ∧
          (decR w.ssRmax).lt ((R.ofNat w.kSps.toNat).div Config.two) = true) ∧
        w.maxPayload.toNat ≤ 4096 ∧ w.mode.toNat < 4) ∧
    (∀ raw : List C,
      normaliseRef raw = none ↔
        ((raw.map cabs2).foldl R.add R.zero).gt R.zero = false ∨
          ((raw.map cabs2).foldl R.add R.zero).gt Config.eRefMax = true) ∧
    ∀ (w : CfgWords) (m : Cells C),
      (w.nPre = 0 → checkConfig w m = .error .cfgBadPreamble) ∧
      (w.nPre ≠ 0 → paramsOk w = false → checkConfig w m = .error .cfgBadParam) ∧
      (w.nPre ≠ 0 → paramsOk w = true → normaliseRef (rawReference w m) = none →
        checkConfig w m = .error .cfgBadPreamble) ∧
      (w.nPre ≠ 0 → paramsOk w = true → normaliseRef (rawReference w m) ≠ none →
        (w.hdrMod = 0 ∨ 6 < w.hdrMod.toNat → checkConfig w m = .error .cfgBadMod) ∧
        (w.hdrMod ≠ 0 → w.hdrMod.toNat ≤ 6 →
          (2 < w.hdrFec.toNat % 256 ∨ 2 < w.hdrFec.toNat / 256 → checkConfig w m = .error .cfgBadFec) ∧
          (w.hdrFec.toNat % 256 ≤ 2 → w.hdrFec.toNat / 256 ≤ 2 → ∃ r, checkConfig w m = .ok r)))

/-- R84, R242, R394: a successful CONFIGURE latches tap j of branch b from entry `b*L + j` of coefficient memory and
clears every other tap, and latches the normalised reference, with zeros behind it. -/
def Obligations.ConfigureLatches : Prop :=
  ∀ (s t : State) (cfg : Cfg) (ref : List C), checkConfig s.words s.preMem = .ok (cfg, ref) →
    exec (.configure []) s = .next t →
    (∀ b j, b < Config.pMax → j < Config.lMax →
      memRead R.zero t.ss.H (b * Config.lMax + j) =
        if b < cfg.P ∧ j < cfg.L then memRead R.zero s.coefMem (b * cfg.L + j) else R.zero) ∧
    ∀ i, memRead C.zero t.det.ref i = ref.getD i C.zero

/-- R242: a generated reference has energy N exactly, so its normalisation leaves exactly its ±1 chips. -/
def Obligations.GeneratedReferenceExact : Prop :=
  ∀ (poly init : Word) (n : Nat), 1 ≤ n → n ≤ Config.nMax →
    normaliseRef (genRef poly init n) = some (genRef poly init n)

/-- R241: the generator's sequence is its initial bits followed by the linear recurrence of its polynomial, and the
reference maps bit 0 to (1, 0) and bit 1 to (-1, 0). -/
def Obligations.GeneratorRecurrence : Prop :=
  ∀ (poly init : Word) (d n : Nat), 2 ^ d ≤ poly.toNat → poly.toNat < 2 ^ (d + 1) → 1 ≤ d → init.toNat < 2 ^ d →
    ∃ a : List Bool, a.length = n ∧
      (∀ t, t < n → t < d → a.getD t false = init.getLsbD t) ∧
      (∀ t, t < n → d ≤ t →
        a.getD t false =
          (List.range d).foldl (fun acc i => acc ^^ (poly.getLsbD i && a.getD (t - d + i) false)) false) ∧
      genRef poly init n = a.map fun b => if b then ⟨Config.negOne, R.zero⟩ else ⟨Config.one, R.zero⟩

/-! ### Numbers -/

/-- R14: words and values correspond one to one, in the reference instantiation (log 1). -/
def Obligations.WordsAndValues : Prop := (∀ w : Word, encR (decR w) = w) ∧ ∀ v : R, decR (encR v) = v

/-- R12: the exactness properties of the reference instantiation that the rules rely on (log 1): products with 1 and 0 and
sums with 0, for finite values; sums, differences and products of small dyadic fractions; `ofNat` below 2^24; three
roots; and `atan2(0, x)` for every `x > 0`, infinity included. -/
def Obligations.ExactArithmetic : Prop :=
  (∀ (neg : Bool) (m : Fin 2139095041), m.val < 0x7F800000 →
      (R.num neg m).mul Config.one = .num neg m ∧ Config.one.mul (.num neg m) = .num neg m ∧
      (((R.num neg m).mul R.zero).eq R.zero = true) ∧
      ((R.num neg m).add R.zero).eq (.num neg m) = true ∧ (R.zero.add (.num neg m)).eq (.num neg m) = true) ∧
    (∀ (a b : Int) (e f : Nat), a.natAbs ≤ 4096 → b.natAbs ≤ 4096 → e ≤ 12 → f ≤ 12 →
      (((R.ofInt a).div (R.ofNat (2 ^ e))).add ((R.ofInt b).div (R.ofNat (2 ^ e)))).eq
        ((R.ofInt (a + b)).div (R.ofNat (2 ^ e))) = true ∧
      (((R.ofInt a).div (R.ofNat (2 ^ e))).sub ((R.ofInt b).div (R.ofNat (2 ^ e)))).eq
        ((R.ofInt (a - b)).div (R.ofNat (2 ^ e))) = true ∧
      (((R.ofInt a).div (R.ofNat (2 ^ e))).mul ((R.ofInt b).div (R.ofNat (2 ^ f)))).eq
        ((R.ofInt (a * b)).div (R.ofNat (2 ^ (e + f)))) = true) ∧
    (∀ n : Nat, n < 2 ^ 24 → (R.ofNat n).floorInt = n ∧ (R.ofNat n).roundHalfEven = n) ∧
    Config.one.sqrt = Config.one ∧ Config.four.sqrt = Config.two ∧ (decR 0x3E800000).sqrt = Config.half ∧
    ∀ m : Fin 2139095041, 0 < m.val → R.zero.atan2 (.num false m) = R.zero

/-- R85: in the words of a bit string, element i is bit 31 - (i mod 32) of word i/32 and every bit behind the last
element is 0; in those of a byte string, byte i is bits [31 - 8*(i mod 4) : 24 - 8*(i mod 4)] of word i/4 and every byte
behind the last is 0. Operand words are read at the same places, whatever the unused bits are, so that strings survive
packing. -/
def Obligations.PackingRoundTrip : Prop :=
  (∀ b : List Bool,
      (packBits b).length = (b.length + 31) / 32 ∧
      ∀ i, i < 32 * ((b.length + 31) / 32) → ((packBits b).getD (i / 32) 0).getLsbD (31 - i % 32) = b.getD i false) ∧
    (∀ b : List Byte,
      (packBytes b).length = (b.length + 3) / 4 ∧
      ∀ i, i < 4 * ((b.length + 3) / 4) →
        ((packBytes b).getD (i / 4) 0).extractLsb' (24 - 8 * (i % 4)) 8 = b.getD i 0) ∧
    (∀ (l : Nat) (ws : List Word), l ≤ 32 * ws.length →
      (unpackBits l ws).length = l ∧
      ∀ i, i < l → (unpackBits l ws).getD i false = (ws.getD (i / 32) 0).getLsbD (31 - i % 32)) ∧
    (∀ (n : Nat) (ws : List Word), n ≤ 4 * ws.length →
      (unpackBytes n ws).length = n ∧
      ∀ i, i < n → (unpackBytes n ws).getD i 0 = (ws.getD (i / 4) 0).extractLsb' (24 - 8 * (i % 4)) 8) ∧
    (∀ (b : List Bool) (ws : List Word), unpackBits b.length (packBits b ++ ws) = b) ∧
    ∀ (b : List Byte) (ws : List Word), unpackBytes b.length (packBytes b ++ ws) = b

/-! ### Oscillator and PLL -/

/-- R13, R160, R161, R162: the mixing commands answer the sample times the oscillator, or times its conjugate, and change
nothing; and the operations on complex values by their components, each evaluated in the order the rule writes it. That the
minus of conj reverses the sign, of a zero as well, is the model's choice (log 22). -/
def Obligations.MixCommands : Prop :=
  (∀ (s : State) (re im : Word),
      exec (.oscMixDown [re, im]) s =
        .next (s.respond (encC (cmul ⟨decR re, decR im⟩ (conj (cis s.nco.theta))))) ∧
      exec (.oscMixUp [re, im]) s = .next (s.respond (encC (cmul ⟨decR re, decR im⟩ (cis s.nco.theta)))) ∧
      exec (.oscCexp []) s = .next (s.respond (encC (cis s.nco.theta)))) ∧
    (∀ (a b : C) (g : R),
      cadd a b = ⟨a.re.add b.re, a.im.add b.im⟩ ∧ csub a b = ⟨a.re.sub b.re, a.im.sub b.im⟩ ∧
      cmul a b = ⟨(a.re.mul b.re).sub (a.im.mul b.im), (a.re.mul b.im).add (a.im.mul b.re)⟩ ∧
      conj a = ⟨a.re, a.im.neg⟩ ∧ cscale g a = ⟨g.mul a.re, g.mul a.im⟩ ∧
      cabs2 a = (a.re.mul a.re).add (a.im.mul a.im) ∧ cabs a = (cabs2 a).sqrt ∧
      carg a = (if a.re.eq R.zero = true ∧ a.im.eq R.zero = true then R.zero else a.im.atan2 a.re) ∧
      encC a = [encR a.re, encR a.im]) ∧
    (∀ l : List C, csum l = l.foldl cadd C.zero) ∧ (∀ l : List R, rsum l = l.foldl R.add R.zero) ∧
    (∀ (neg : Bool) (m : Fin 2139095041), (R.num neg m).neg = .num (!neg) m) ∧
    ∀ (neg : Bool) (frac : Fin 8388607), ∃ neg' frac', (R.nan neg frac).neg = .nan neg' frac'

/-- R163, R164, R165: OSC_STEP, OSC_ADJ_PHASE and OSC_ADJ_FREQ, with their encodings and failures. -/
def Obligations.OscillatorMoves : Prop :=
  EncodedZ 0x23 .oscStep .oscStep ∧ EncodedZ 0x24 .oscAdjPhase .oscAdjPhase ∧
    EncodedZ 0x25 .oscAdjFreq .oscAdjFreq ∧
    (∀ s : State, exec (.oscStep []) s =
      .next ({ s with nco := { s.nco with theta := s.nco.theta + s.nco.omega } }.respond [])) ∧
    (∀ (s : State) (d : Word),
      exec (.oscAdjPhase [d]) s = .next ({ s with nco := { s.nco with theta := s.nco.theta + d } }.respond []) ∧
      exec (.oscAdjFreq [d]) s = .next ({ s with nco := { s.nco with omega := s.nco.omega + d } }.respond [])) ∧
    ∀ (s : State) (ws : List Word),
      (ws.length ≠ 0 → exec (.oscStep ws) s = .next (s.failWith .badOperands [])) ∧
      (ws.length ≠ 1 →
        exec (.oscAdjPhase ws) s = .next (s.failWith .badOperands []) ∧
        exec (.oscAdjFreq ws) s = .next (s.failWith .badOperands []))

/-- R167, R171: PLL_STEP adds `toPhase(bw*e)` to the phase and `toPhase((bw*bw)/ofNat(2k)*e)` to the frequency, with an
error outside [-PI, PI] taken as 0. -/
def Obligations.PllStepResult : Prop :=
  ∀ (s : State) (w : Word),
    ∃ e : R, e = (if (decR w).ge Config.negPi && (decR w).le Config.pi then decR w else R.zero) ∧
      exec (.pllStep [w]) s = .next
        ({ s with
            nco :=
              { s.nco with
                theta := s.nco.theta + toPhase (s.pllBw.mul e)
                omega :=
                  s.nco.omega + toPhase (((s.pllBw.mul s.pllBw).div (R.ofNat (2 * s.cfg.k))).mul e) } }.respond [])

/-- R167, R171: an error that is not a number or is outside [-PI, PI] moves neither phase nor frequency. -/
def Obligations.PllIgnoresBadError : Prop :=
  ∀ (k : Nat) (bw e : R) (n : Nco), 1 ≤ k → k ≤ Config.kMax → bw.within R.zero Config.one = true →
    e.within Config.negPi Config.pi = false → pllStep k bw e n = n

/-- R170, R195, R225, R368: the bandwidth commands and SET_THRESHOLD write their one element if the value is in [0, 1],
and otherwise fail with BAD_OPERANDS and change nothing. -/
def Obligations.UnitRangeWrites : Prop :=
  ∀ (s : State) (w : Word),
    ((decR w).ge R.zero = true → (decR w).le Config.one = true →
      exec (.pllSetBw [w]) s = .next ({ s with pllBw := decR w }.respond []) ∧
      exec (.agcSetBw [w]) s = .next ({ s with agc := { s.agc with bw := decR w } }.respond []) ∧
      exec (.ssSetBw [w]) s = .next ({ s with ss := { s.ss with bw := decR w } }.respond []) ∧
      exec (.setThreshold [w]) s = .next ({ s with thresh := decR w }.respond [])) ∧
    (((decR w).ge R.zero && (decR w).le Config.one) = false →
      exec (.pllSetBw [w]) s = .next (s.failWith .badOperands []) ∧
      exec (.agcSetBw [w]) s = .next (s.failWith .badOperands []) ∧
      exec (.ssSetBw [w]) s = .next (s.failWith .badOperands []) ∧
      exec (.setThreshold [w]) s = .next (s.failWith .badOperands []))

/-- R151, R152, R153: the four quarter turns are exact; PI is half a turn; a NaN, an infinity and a finite angle of
0x4FC90FDB or more in magnitude (PI * 2^31), whose product with PHASE_SCALE reaches the guard of 2^62, convert to 0; every
other angle converts to the integer nearest that product, ties to even, modulo 2^32. Back, a word is read as two's
complement and multiplied by RAD_SCALE. That the zeros of the quarter turns are +0 is the model's choice (log 8). -/
def Obligations.PhaseConversions : Prop :=
  cis 0 = ⟨Config.one, R.zero⟩ ∧ cis 0x40000000 = ⟨R.zero, Config.one⟩ ∧ cis 0x80000000 = ⟨Config.negOne, R.zero⟩ ∧
    cis 0xC0000000 = ⟨R.zero, Config.negOne⟩ ∧ toPhase R.zero = 0 ∧ toPhase Config.pi = 0x80000000 ∧
    toPhase (decR 0x3E000000) = 0x0517CC18 ∧ toPhase (decR 0x3C800000) = 0x00A2F983 ∧ phaseToRad 0 = R.zero ∧
    (∀ neg frac, toPhase (.nan neg frac) = 0) ∧ (∀ neg, toPhase (R.inf neg) = 0) ∧
    (∀ (neg : Bool) (m : Fin 2139095041), 0x4FC90FDB ≤ m.val → toPhase (.num neg m) = 0) ∧
    (∀ (neg : Bool) (m : Fin 2139095041), m.val < 0x4FC90FDB →
      ∃ (vneg : Bool) (v : Fin 2139095041) (exact n : Int),
        (R.num neg m).mul (decR 0x4E22F983) = .num vneg v ∧ v.val < 0x5E800000 ∧
        exact = (if vneg then -(units v.val : Int) else (units v.val : Int)) ∧
        2 * (n * 2 ^ 149 - exact).natAbs ≤ 2 ^ 149 ∧
        (2 * (n * 2 ^ 149 - exact).natAbs = 2 ^ 149 → n % 2 = 0) ∧
        toPhase (.num neg m) = BitVec.ofInt 32 n) ∧
    ∀ u : Word, phaseToRad u = (R.ofInt u.toInt).mul (decR 0x30C90FDB)

/-- R172: the phase and the frequency of the oscillator are written by the listed commands alone. -/
def Obligations.OscillatorWriters : Prop :=
  ∀ (i : Instr) (s t : State), exec i s = .next t →
    (i.op ∉ [Op.oscStep, .pllStep, .oscAdjPhase, .regWrite, .execute, .configure, .resetBlock] →
      t.nco.theta = s.nco.theta) ∧
    (i.op ∉ [Op.pllStep, .oscAdjFreq, .regWrite, .execute, .configure, .resetBlock] →
      t.nco.omega = s.nco.omega) ∧
    ∀ a ws, i = .regWrite a ws →
      (a ≠ 0x21 → t.nco.theta = s.nco.theta) ∧ (a ≠ 0x22 → t.nco.omega = s.nco.omega)

/-! ### AGC, symbol synchroniser, detector, demodulator -/

/-- R191, R194, R196, R197: AGC_EXECUTE and AGC_SEED. An energy update outside [0, E_MAX], a NaN included, is dropped;
the gain uses the updated energy. Following R191's pseudocode to the letter is the model's choice in two clauses: an update
that rounds to at most E_MAX is stored also where R196's corner case, cabs2(x) > E_MAX / bw, leaves e unchanged (log 26),
and the gain is R191's rounded quotient, which can underflow to 0 against R192's remark that it is positive (log 23). -/
def Obligations.AgcCommands : Prop :=
  ∀ (s : State) (a b : Word),
    (∃ en e : R,
      en = ((Config.one.sub s.agc.bw).mul s.agc.e).add (s.agc.bw.mul (cabs2 ⟨decR a, decR b⟩)) ∧
      e = (if en.ge R.zero && en.le Config.eMax then en else s.agc.e) ∧
      exec (.agcExecute [a, b]) s = .next
        ({ s with agc := { s.agc with e := e } }.respond
          (encC (cscale (s.cfg.A.div (R.fmax e Config.eMin).sqrt) ⟨decR a, decR b⟩) ++ [encR e.sqrt]))) ∧
    ∃ q en : R, q = (decR a).div s.cfg.A ∧ en = (R.fmax s.agc.e Config.eMin).mul (q.mul q) ∧
      exec (.agcSeed [a]) s = .next
        ({ s with agc := { s.agc with e := if en.ge R.zero && en.le Config.eMax then en else s.agc.e } }.respond [])

/-- R213, R226: SS_EXECUTE on a configured block pushes its samples, in order, each operand pair one sample, and answers
the count and the on-time outputs; with no samples it answers 0 and changes nothing. -/
def Obligations.SymbolSyncExecutes : Prop :=
  (∀ (n : BitVec 24) (ws : List Word) (s : State), ws.length = 2 * n.toNat → s.configured = true →
      exec (.ssExecute n ws) s = .next
        ({ s with ss := (ssRun s.cfg (samples ws) s.ss).1 }.respond
          (countWord (ssRun s.cfg (samples ws) s.ss).2.length ::
            (ssRun s.cfg (samples ws) s.ss).2.flatMap encC))) ∧
    (∀ s : State, s.configured = true → exec (.ssExecute 0 []) s = .next (s.respond [0])) ∧
    (∀ (cfg : Cfg) (u : SymSync), ssRun cfg [] u = (u, [])) ∧
    (∀ (cfg : Cfg) (x : C) (xs : List C) (u : SymSync),
      ssRun cfg (x :: xs) u =
        ((ssRun cfg xs (ssPush cfg x u).1).1, (ssPush cfg x u).2 ++ (ssRun cfg xs (ssPush cfg x u).1).2)) ∧
    ∀ (re im : Word) (ws : List Word), samples [] = [] ∧ samples (re :: im :: ws) = ⟨decR re, decR im⟩ :: samples ws

/-- R212, R213, R214, R217: a push of a sample shifts the delay line by one, puts the sample at its front and leaves the
bandwidth and the coefficient table as they are; from a unit whose time and rate are in their ranges the loop of R213 then
ends, turn by turn as that rule writes it, with the unit and the outputs that the push gives. A rotation multiplies the
used delay line and the two stored outputs, and nothing else. -/
def Obligations.SymbolSyncShifts : Prop :=
  ∀ (cfg : Cfg) (x c : C) (u : SymSync), CfgOk cfg → cellsWf C.zero Config.lMax 0 u.buf = true →
    (ssPush cfg x u).1.bw = u.bw ∧ (ssPush cfg x u).1.H = u.H ∧
    memRead C.zero (ssPush cfg x u).1.buf 0 = x ∧
    (∀ j, j + 1 < cfg.L → memRead C.zero (ssPush cfg x u).1.buf (j + 1) = memRead C.zero u.buf j) ∧
    (cellsWf R.zero (Config.pMax * Config.lMax) 0 u.H = true → u.tau.gt R.zero = true →
      u.tau.le ((Config.three.mul (R.ofNat cfg.k)).div Config.four) = true →
      u.r.within (R.zero.sub cfg.rmax) cfg.rmax = true →
      Turns cfg { u with buf := (ssPush cfg x u).1.buf, tau := u.tau.sub Config.one } (ssPush cfg x u).2
        (ssPush cfg x u).1) ∧
    ∃ m, ssRotate cfg c u = { u with buf := m, yprev := cmul u.yprev c, ymid := cmul u.ymid c } ∧
      ∀ j, memRead C.zero m j =
        if j < cfg.L then cmul (memRead C.zero u.buf j) c else memRead C.zero u.buf j

/-- R243, R248 to R251, R255, R256: DET_PUSH on a configured block pushes its value and answers the flag and the
estimates, changing the detector alone; DET_RESET clears all of the detector but its reference. A push shifts the window,
forms the three sums and the metric, moves the history along, and reports exactly when the push before it exceeded the
threshold, with the estimates of the rules. Two clauses are the model's choice: that the push which fills the window
(`t.fill = cfg.N`) can have a nonzero metric follows R243 and R255's example 1 against R246's words that the first N pushes
give 0 (log 20), and that tau is 0 for every denominator of at least 0 follows R247's decision D21 where R247's pseudocode
names a denominator of 0 alone (log 25). -/
def Obligations.DetectorCommands : Prop :=
  (∀ (s : State) (re im : Word), s.configured = true →
      exec (.detPush [re, im]) s = .next
        ({ s with det := (detPush s.cfg s.thresh ⟨decR re, decR im⟩ s.det).1 }.respond
          (match (detPush s.cfg s.thresh ⟨decR re, decR im⟩ s.det).2 with
            | none => [0, 0, 0, 0, 0, 0]
            | some d => [1, encR d.tau, encR d.dw, encR d.phi, encR d.gain, encR d.metric]))) ∧
    (∀ s : State, exec (.detReset []) s = .next
      ({ s with
          det :=
            { ref := s.det.ref, win := [], en := [], fill := 0, pend := false, rho1 := R.zero, rho2 := R.zero,
              S1 := C.zero, S2 := C.zero, Sa1 := C.zero, Sb1 := C.zero } }.respond [])) ∧
    ∀ (cfg : Cfg) (thresh : R) (y : C) (d : Detector), 1 ≤ cfg.N → cfg.N ≤ Config.nMax →
      cellsWf C.zero Config.nMax 0 d.win = true → cellsWf R.zero Config.nMax 0 d.en = true →
      cellsWf C.zero Config.nMax 0 d.ref = true →
      ∃ (t : Detector) (term : Nat → C) (E rho : R),
        (∀ i, i + 1 < cfg.N →
          memRead C.zero t.win i = memRead C.zero d.win (i + 1) ∧
          memRead R.zero t.en i = memRead R.zero d.en (i + 1)) ∧
        memRead C.zero t.win (cfg.N - 1) = y ∧ memRead R.zero t.en (cfg.N - 1) = cabs2 y ∧
        (∀ i, cfg.N ≤ i →
          memRead C.zero t.win i = memRead C.zero d.win i ∧ memRead R.zero t.en i = memRead R.zero d.en i) ∧
        t.ref = d.ref ∧ t.fill = min (d.fill + 1) cfg.N ∧
        (∀ i, i < cfg.N → term i = cmul (memRead C.zero t.win i) (conj (memRead C.zero d.ref i))) ∧
        t.S1 = ((List.range cfg.N).map term).foldl cadd C.zero ∧
        t.Sa1 = ((List.range (cfg.N / 2)).map term).foldl cadd C.zero ∧
        t.Sb1 = ((List.range' (cfg.N / 2) (cfg.N - cfg.N / 2)).map term).foldl cadd C.zero ∧
        E = (((List.range cfg.N).map (memRead R.zero t.en)).foldl R.add R.zero).div (R.ofNat cfg.N) ∧
        (t.fill < cfg.N ∨ E.gt Config.eDetMin = false → rho = R.zero) ∧
        (t.fill = cfg.N → E.gt Config.eDetMin = true →
          ∃ q, q = (cabs2 t.S1).sqrt.div ((R.ofNat cfg.N).mul E.sqrt) ∧
            rho = if q.ge R.zero then q else R.zero) ∧
        t.rho1 = rho ∧ t.rho2 = d.rho1 ∧ t.S2 = d.S1 ∧ t.pend = rho.gt thresh ∧
        ∃ den dw : R,
          den = (d.rho2.sub (Config.two.mul d.rho1)).add rho ∧
          dw =
            (if cfg.cfoEst then (carg (cmul t.S1 (conj d.S2))).div Config.two
              else (carg (cmul d.Sb1 (conj d.Sa1))).div ((R.ofNat cfg.N).div Config.two)) ∧
          detPush cfg thresh y d =
            (t,
              if d.pend then
                some
                  { tau :=
                      if den.ge R.zero then R.zero
                      else
                        R.clamp ((Config.half.mul (d.rho2.sub rho)).div den) Config.negHalf Config.half
                    dw := dw
                    phi := (carg d.S1).add (dw.mul (((R.ofNat cfg.N).add Config.one).div Config.two))
                    gain := (cabs2 d.S1).sqrt.div (R.ofNat cfg.N)
                    metric := d.rho1 }
              else none)

/-- R246: from a cleared detector the first N pushes report nothing, whatever their values, for any threshold that is
not negative. -/
def Obligations.FirstPushesSilent : Prop :=
  ∀ (cfg : Cfg) (thresh : R) (d : Detector) (ys : List C), thresh.ge R.zero = true → ys.length ≤ cfg.N →
    (ys.foldl
      (fun (p : Detector × Bool) y =>
        ((detPush cfg thresh y p.1).1, p.2 || (detPush cfg thresh y p.1).2.isSome))
      (detClear d, false)).2 = false

/-- R270, R273 to R276, R285, R286: the ids of the six schemes and their bits per symbol. DEM_SET_SCHEME selects schemes 1 to 6 and fails with BAD_OPERANDS on any other id; DEM_DEMOD
answers the decision and its phase error, and changes nothing. The decision of every symbol: by the signs of its components
in BPSK and QPSK; in 8PSK by how many of the eight boundaries its angle, taken into one turn, reaches, the eighth being the
wrap; in QAM, on each axis, by how many of the boundaries the scaled component reaches. A zero of either sign is not below
0, and a NaN is neither below 0 nor reaches a boundary. -/
def Obligations.DemodulatorCommands : Prop :=
  (∀ p ∈ ([(.bpsk, 1, 1), (.qpsk, 2, 2), (.psk8, 3, 3), (.qam16, 4, 4), (.qam64, 5, 6), (.qam256, 6, 8)] :
      List (Scheme × Nat × Nat)), p.1.id = p.2.1 ∧ p.1.bps = p.2.2) ∧
    (∀ (s : State) (sch : Scheme), exec (.demSetScheme (BitVec.ofNat 8 sch.id) []) s =
      .next ({ s with demScheme := sch }.respond [])) ∧
    (∀ (s : State) (id : BitVec 8), id = 0 ∨ 6 < id.toNat →
      exec (.demSetScheme id []) s = .next (s.failWith .badOperands [])) ∧
    (∀ (s : State) (re im : Word),
      ∃ (u : Nat) (sh : C), decideSymbol s.demScheme ⟨decR re, decR im⟩ = (u, sh) ∧
        exec (.demDemod [re, im]) s = .next
          (s.respond ([countWord u, encR (carg (cmul ⟨decR re, decR im⟩ (conj sh)))] ++ encC sh))) ∧
    (∀ y : C, decideSymbol .bpsk y =
      if y.re.lt R.zero then (1, ⟨Config.negOne, R.zero⟩) else (0, ⟨Config.one, R.zero⟩)) ∧
    (∀ y : C, decideSymbol .qpsk y =
      ((if y.re.lt R.zero then 2 else 0) + (if y.im.lt R.zero then 1 else 0),
        ⟨if y.re.lt R.zero then .num true 0x3F3504F3 else .num false 0x3F3504F3,
          if y.im.lt R.zero then .num true 0x3F3504F3 else .num false 0x3F3504F3⟩)) ∧
    (∀ y : C, ∃ a : R, a = (if (carg y).lt R.zero then (carg y).add (decR 0x40C90FDB) else carg y) ∧
      decideSymbol .psk8 y =
        ([(0, ⟨Config.one, R.zero⟩), (1, ⟨Config.rh, Config.rh⟩), (3, ⟨R.zero, Config.one⟩),
          (2, ⟨Config.negRh, Config.rh⟩), (6, ⟨Config.negOne, R.zero⟩), (7, ⟨Config.negRh, Config.negRh⟩),
          (5, ⟨R.zero, Config.negOne⟩), (4, ⟨Config.rh, Config.negRh⟩)] : List (Nat × C)).getD
          (([0x3EC90FDB, 0x3F96CBE4, 0x3FFB53D2, 0x402FEDE0, 0x406231D6, 0x408A3AE7, 0x40A35CE2,
              0x40BC7EDD] : List Word).countP (fun b => a.ge (decR b)) % 8) (0, C.zero)) ∧
    (∀ p ∈ ([(.qam16, 2, 0x404A62C2), (.qam64, 3, 0x40CF623A), (.qam256, 4, 0x41509D4E)] : List (Scheme × Nat × Word)),
      ∀ y : C, ∃ pI pQ : Nat,
        pI = (List.range' 1 (2 ^ p.2.1 - 1)).countP
          (fun t => (y.re.mul (decR p.2.2)).ge (R.ofInt (2 * (t : Int) - 2 ^ p.2.1))) ∧
        pQ = (List.range' 1 (2 ^ p.2.1 - 1)).countP
          (fun t => (y.im.mul (decR p.2.2)).ge (R.ofInt (2 * (t : Int) - 2 ^ p.2.1))) ∧
        decideSymbol p.1 y =
          (2 ^ p.2.1 * (pI ^^^ (pI / 2)) + (pQ ^^^ (pQ / 2)),
            ⟨(R.ofInt (2 * (pI : Int) - (2 ^ p.2.1 - 1))).div (decR p.2.2),
              (R.ofInt (2 * (pQ : Int) - (2 ^ p.2.1 - 1))).div (decR p.2.2)⟩)) ∧
    (R.num true 0).lt R.zero = false ∧
    ∀ (neg : Bool) (frac : Fin 8388607) (v : R),
      (R.nan neg frac).lt v = false ∧ (R.nan neg frac).ge v = false ∧
      ∃ neg' frac', (R.nan neg frac).mul v = .nan neg' frac'

/-- R348: the demodulator decides every constellation point as its own index and point, in every scheme. -/
def Obligations.PointsDemodulate : Prop :=
  ∀ (sch : Scheme) (u : Fin 256), u.val < 2 ^ sch.bps →
    (demod sch (point sch u.val)).u = u.val ∧ (demod sch (point sch u.val)).sh = point sch u.val

/-! ### The decode chain -/

/-- R325, R326, R327: the commands of the chain's stages, where their counts and ids are right;
DIL_DEINTERLEAVE at depth 0 and FEC_DECODE with an id above 2 fail with BAD_OPERANDS and answer one 0, whatever their
operands. R302, R303: the CRC by its bit recurrence, and its worked values; the ids of the FEC codes. -/
def Obligations.ChainStageCommands : Prop :=
  (Fec.none.id = 0 ∧ Fec.rep3.id = 1 ∧ Fec.hamming74.id = 2) ∧
    (∀ (s : State) (depth : BitVec 24) (l : Word) (ws : List Word), l.toNat ≤ Config.bitCap →
      ws.length = (l.toNat + 31) / 32 → depth ≠ 0 →
      exec (.dilDeinterleave depth (l :: ws)) s = .next
        (s.respond (l :: packBits (deinterleave depth.toNat (unpackBits l.toNat ws))))) ∧
    (∀ (s : State) (f : Fec) (l : Word) (ws : List Word), l.toNat ≤ Config.bitCap →
      ws.length = (l.toNat + 31) / 32 →
      ∃ v, fecDec f (unpackBits l.toNat ws) = v ∧ v.length = decLen f l.toNat ∧
        exec (.fecDecode (BitVec.ofNat 8 f.id) (l :: ws)) s = .next (s.respond (countWord v.length :: packBits v))) ∧
    (∀ (s : State) (ws : List Word),
      exec (.dilDeinterleave 0 ws) s = .next (s.failWith .badOperands [0]) ∧
      ∀ id : BitVec 8, 2 < id.toNat → exec (.fecDecode id ws) s = .next (s.failWith .badOperands [0])) ∧
    (∀ (s : State) (n : Word) (ws : List Word), n.toNat ≤ Config.payloadCap → ws.length = (n.toNat + 4 + 3) / 4 →
      ∃ by_ : List Byte, by_ = unpackBytes (n.toNat + 4) ws ∧
        exec (.crcCheck (n :: ws)) s = .next
          (s.respond
            [if crc32 (by_.take n.toNat) = BitVec.ofNat 32 (natOfBytes (by_.drop n.toNat)) then 1 else 0,
              crc32 (by_.take n.toNat)])) ∧
    (∀ bytes : List Byte, crc32 bytes =
      bytes.foldl
        (fun c b => (List.range 8).foldl
          (fun c _ => if c.getLsbD 0 then (c >>> 1) ^^^ 0xEDB88320 else c >>> 1) (c ^^^ b.setWidth 32))
        0xFFFFFFFF ^^^ 0xFFFFFFFF) ∧
    crc32 [0x31, 0x32, 0x33, 0x34, 0x35, 0x36, 0x37, 0x38, 0x39] = 0xCBF43926 ∧ crc32 [0xA5] = 0x74BEB8EA ∧
    crc32 [1, 1, 0, 1, 0, 0] = 0x463C3181 ∧ crc32 [] = 0

/-- R328: DEC_DECODE runs the chain where its counts, ids, depths and length are right, and answers the flag and the
message; where an id, a depth or the length is not, it fails with BAD_OPERANDS. R315, R316: the chain, of any string of at
least L2 bits, stage by stage, down to the message bytes and the check of the four bytes behind them against the CRC. -/
def Obligations.ChainDecodeCommand : Prop :=
  (∀ (n : Nat) (fi fo : Fec) (D1 D2 : Nat) (v : List Bool), chainL2 n fi fo ≤ v.length →
    ∃ (B0 L1 L2 : Nat) (u2 w u1 d : List Bool) (bytes : List Byte),
      B0 = 8 * (n + 4) ∧ L1 = encLen fo B0 ∧ L2 = encLen fi L1 ∧ chainL2 n fi fo = L2 ∧
      u2 = deinterleave D2 (v.take L2) ∧ w = (fecDec fi u2).take L1 ∧ u1 = deinterleave D1 w ∧
      d = (fecDec fo u1).take B0 ∧ bytes.length = n + 4 ∧
      (∀ i j, i < n + 4 → j < 8 → (bytes.getD i 0).getLsbD (7 - j) = d.getD (8 * i + j) false) ∧
      chainDecode n fi fo D1 D2 v =
        (bytes.take n,
          decide (crc32 (bytes.take n) =
            bytes.getD n 0 ++ bytes.getD (n + 1) 0 ++ bytes.getD (n + 2) 0 ++ bytes.getD (n + 3) 0))) ∧
  ∀ (s : State) (fi fo : BitVec 8) (n depths l : Word) (ws : List Word), l.toNat ≤ Config.bitCap →
    ws.length = (l.toNat + 31) / 32 →
    (∀ (gi go : Fec), gi.id = fi.toNat → go.id = fo.toNat → n.toNat ≤ Config.payloadCap →
      depths.toNat % 256 ≠ 0 → depths.toNat / 256 ≠ 0 → depths.toNat < 65536 →
      (chainL2 n.toNat gi go ≤ l.toNat →
        ∃ (msg : List Byte) (ok : Bool),
          chainDecode n.toNat gi go (depths.toNat % 256) (depths.toNat / 256) (unpackBits l.toNat ws) = (msg, ok) ∧
          msg.length = n.toNat ∧
          exec (.decDecode fi fo (n :: depths :: l :: ws)) s =
            .next (s.respond ((if ok then 1 else 0) :: packBytes msg))) ∧
      (l.toNat < chainL2 n.toNat gi go →
        exec (.decDecode fi fo (n :: depths :: l :: ws)) s = .next (s.failWith .badOperands [0]))) ∧
    (2 < fi.toNat ∨ 2 < fo.toNat ∨ Config.payloadCap < n.toNat ∨ depths.toNat % 256 = 0 ∨
        depths.toNat / 256 % 256 = 0 ∨ 65536 ≤ depths.toNat →
      exec (.decDecode fi fo (n :: depths :: l :: ws)) s = .next (s.failWith .badOperands [0]))

/-- R310: interleaving reads the bits out column by column, in the order the rule lists, and deinterleaving puts the k-th
bit at the k-th index of that order, so that it undoes interleaving, at every depth and length; depth 1 and any depth of at
least the length change nothing. -/
def Obligations.DeinterleaveInverts : Prop :=
  ∀ (D : Nat) (b : List Bool), 1 ≤ D →
    deinterleave D (interleave D b) = b ∧ (interleave D b).length = b.length ∧
    (D = 1 ∨ b.length ≤ D → interleave D b = b ∧ deinterleave D b = b) ∧
    ∃ (cols : Nat) (order : List Nat), cols = (b.length + D - 1) / D ∧
      order = (List.range cols).flatMap (fun c =>
        ((List.range D).map fun r => r * cols + c).filter fun i => decide (i < b.length)) ∧
      order.length = b.length ∧ interleave D b = order.map (fun i => b.getD i false) ∧
      ∀ k, k < b.length → (deinterleave D b).getD (order.getD k 0) false = b.getD k false

/-- R303 to R306: the codewords of the three codes, each bit by its equation, the padding of HAMMING74, and the lengths of
the table; every code decodes what it encodes; REP3 corrects any one wrong bit in each group of three, HAMMING74 any one in
each codeword, and both ignore the bits behind the last whole group. As every group of three and every word of seven is a
codeword with at most one wrong bit, this is the whole of the decoders. -/
def Obligations.FecCodes : Prop :=
  (∀ (f : Fec) (b : List Bool),
      (fecEnc f b).length = encLen f b.length ∧ (fecDec f (fecEnc f b)).take b.length = b ∧
      ∀ v : List Bool, (fecDec f v).length = decLen f v.length) ∧
    (∀ l : Nat, encLen .none l = l ∧ encLen .rep3 l = 3 * l ∧ encLen .hamming74 l = 7 * ((l + 3) / 4) ∧
      decLen .none l = l ∧ decLen .rep3 l = l / 3 ∧ decLen .hamming74 l = 4 * (l / 7)) ∧
    (∀ b : List Bool, fecEnc .none b = b ∧ fecDec .none b = b ∧ fecEnc .rep3 b = b.flatMap (fun x => [x, x, x]) ∧
      fecEnc .hamming74 b = fecEnc .hamming74 (b ++ List.replicate ((4 - b.length % 4) % 4) false)) ∧
    ∃ codeword : Bool × Bool × Bool × Bool → List Bool,
      (∀ d1 d2 d3 d4 : Bool, codeword (d1, d2, d3, d4) =
        [d1 ^^ d2 ^^ d4, d1 ^^ d3 ^^ d4, d1, d2 ^^ d3 ^^ d4, d2, d3, d4]) ∧
      (∀ g : List (Bool × Bool × Bool × Bool),
        fecEnc .hamming74 (g.flatMap fun d => [d.1, d.2.1, d.2.2.1, d.2.2.2]) = g.flatMap codeword) ∧
      (∀ (g : List (Bool × Option (Fin 3))) (rest : List Bool), rest.length < 3 →
        fecDec .rep3 ((g.flatMap fun p =>
          match p.2 with | none => [p.1, p.1, p.1] | some i => [p.1, p.1, p.1].modify i.val not) ++ rest) =
        g.map (·.1)) ∧
      ∀ (g : List ((Bool × Bool × Bool × Bool) × Option (Fin 7))) (rest : List Bool), rest.length < 7 →
        fecDec .hamming74 ((g.flatMap fun p =>
          match p.2 with | none => codeword p.1 | some i => (codeword p.1).modify i.val not) ++ rest) =
        g.flatMap fun p => [p.1.1, p.1.2.1, p.1.2.2.1, p.1.2.2.2]

/-- R317: the chain decodes what the transmitter's chain encodes, for every message, every pair of codes and every
pair of depths, whatever bits follow; the encoding has exactly L2 bits. -/
def Obligations.ChainRoundTrip : Prop :=
  ∀ (msg : List Byte) (fi fo : Fec) (D1 D2 : Nat) (tail : List Bool), 1 ≤ D1 → 1 ≤ D2 →
    (chainEncode msg fi fo D1 D2).length = chainL2 msg.length fi fo ∧
    chainDecode msg.length fi fo D1 D2 (chainEncode msg fi fo D1 D2 ++ tail) = (msg, true)

/-- R318: with code 0 at both stages, any one flipped bit makes the block invalid. -/
def Obligations.UncodedFlipDetected : Prop :=
  ∀ (msg : List Byte) (D1 D2 k : Nat), 1 ≤ D1 → 1 ≤ D2 → k < chainL2 msg.length .none .none →
    (chainDecode msg.length .none .none D1 D2 ((chainEncode msg .none .none D1 D2).modify k not)).2 = false

/-! ### The frame engine -/

/-- R340, R341: EXECUTE on a configured block runs its samples through the pipeline, in order, and answers no word; with
no samples it changes nothing. One sample is mixed down with the phase before it, the oscillator steps, the AGC takes
the mixer's output, the symbol synchroniser takes the AGC's, and each on-time output, in order, is a symbol. -/
def Obligations.ExecuteRuns : Prop :=
  (∀ (n : BitVec 24) (ws : List Word) (s : State), ws.length = 2 * n.toNat → s.configured = true →
      exec (.execute n ws) s = .next ((runSamples (samples ws) s).respond [])) ∧
    (∀ s : State, s.configured = true → exec (.execute 0 []) s = .next (s.respond [])) ∧
    (∀ s : State, runSamples [] s = s) ∧
    ∀ (x : C) (xs : List C) (s : State),
      ∃ (y z : C) (en e : R) (u : SymSync) (out : List C),
        y = cmul x (conj (cis s.nco.theta)) ∧
        en = ((Config.one.sub s.agc.bw).mul s.agc.e).add (s.agc.bw.mul (cabs2 y)) ∧
        e = (if en.ge R.zero && en.le Config.eMax then en else s.agc.e) ∧
        z = cscale (s.cfg.A.div (R.fmax e Config.eMin).sqrt) y ∧
        ssPush s.cfg z s.ss = (u, out) ∧
        runSamples (x :: xs) s =
          runSamples xs
            (out.foldl (fun t v => symbol v t)
              { s with
                nco := { s.nco with theta := s.nco.theta + s.nco.omega }
                agc := { s.agc with e := e }
                ss := u })

/-- R343: splitting a sample sequence into two EXECUTE commands gives the same state and the same records in the same
order as one; only the responses, one empty one for each command, tell them apart. -/
def Obligations.ExecuteSplits : Prop :=
  ∀ (n1 n2 n : BitVec 24) (a b : List Word) (s : State), n.toNat = n1.toNat + n2.toNat →
    a.length = 2 * n1.toNat → b.length = 2 * n2.toNat → s.configured = true →
    ∃ t u v : State, exec (.execute n (a ++ b)) s = .next t ∧ exec (.execute n1 a) s = .next u ∧
      exec (.execute n2 b) u = .next v ∧ v.resp = t.resp ++ [[]] ∧ { v with resp := t.resp } = t

/-- R89, R96, R343: whatever its samples, EXECUTE leaves the registers, the latched configuration, both memories, the
table, the reference, the threshold and the waiting commands as they were, and only adds records behind those on the
frame port. -/
def Obligations.ExecuteFrame : Prop :=
  ∀ (n : BitVec 24) (ws : List Word) (s t : State), exec (.execute n ws) s = .next t →
    t.cmds = s.cmds ∧ t.words = s.words ∧ t.cfg = s.cfg ∧ t.preMem = s.preMem ∧ t.coefMem = s.coefMem ∧
    t.ss.H = s.ss.H ∧ t.det.ref = s.det.ref ∧ t.thresh = s.thresh ∧ t.configured = s.configured ∧
    t.fsm.hdrSyms = s.fsm.hdrSyms ∧ (∃ recs, t.frames = s.frames ++ recs) ∧
    ∀ i, memRead C.zero t.preMem i = memRead C.zero s.preMem i ∧ memRead R.zero t.coefMem i = memRead R.zero s.coefMem i

/-- R80, R351, R361: no command but EXECUTE puts a record on the frame port, and none but EXECUTE, CONFIGURE and
RESET_BLOCK changes the phase. -/
def Obligations.OnlyExecuteMovesFrames : Prop :=
  ∀ (i : Instr) (s t : State), exec i s = .next t →
    (i.op ≠ .execute → t.frames = s.frames) ∧
    (i.op ∉ [Op.execute, .configure, .resetBlock] → t.fsm = s.fsm)

/-- R349, R350: what a detection does to the state. -/
def Obligations.DetectionSeeds : Prop :=
  ∀ (d : Detection) (s : State),
    ∃ (e : R) (c : C) (n : BitVec 32),
      e = (agcSeed s.cfg.A d.gain s.agc).e ∧
      c = cscale ((R.fmax s.agc.e Config.eMin).div (R.fmax e Config.eMin)).sqrt (conj (cis (toPhase d.phi))) ∧
      n.toNat = min (s.stats.nDet.toNat + 1) (2 ^ 32 - 1) ∧
      detect d s =
        { s with
          stats := { s.stats with nDet := n }
          lastDet := d
          nco :=
            { theta := s.nco.theta + toPhase d.phi
              omega := s.nco.omega + toPhase (d.dw.div (R.ofNat s.cfg.k))
              omegaSeek := s.nco.omega }
          agc := { e := e, bw := if s.cfg.bwSwitch then s.agc.bw else s.cfg.agcBwN }
          pllBw := if s.cfg.bwSwitch then s.pllBw else s.cfg.pllBwN
          ss :=
            { ssRotate s.cfg c s.ss with bw := if s.cfg.bwSwitch then s.ss.bw else s.cfg.ssBwN }
          demScheme := s.cfg.hdrMod
          fsm := { s.fsm with cnt := 0, bits := [], phase := .header } }

/-- R356: what the RESET phase does, and that it does nothing else. -/
def Obligations.FrameReset : Prop :=
  ∀ (restore : Bool) (s : State),
    doReset restore s =
      { s with
        agc := { s.agc with bw := s.cfg.agcBwW }
        pllBw := s.cfg.pllBwW
        ss := { s.ss with bw := s.cfg.ssBwW }
        nco := { s.nco with omega := if restore then s.nco.omegaSeek else s.nco.omega }
        fsm := { s.fsm with cnt := 0, bits := [], phase := .seek }
        det :=
          { ref := s.det.ref, win := [], en := [], fill := 0, pend := false, rho1 := R.zero, rho2 := R.zero,
            S1 := C.zero, S2 := C.zero, Sa1 := C.zero, Sb1 := C.zero } }

/-- R351, R352, R354, R361: one symbol. In SEEK it changes the detector alone unless that reports, and then the detection
acts. In HEADER and PAYLOAD it is demodulated, steps the PLL with the demodulator's error, adds its error energy in
PAYLOAD, stores its bits most significant first up to the part's length, and is counted; the part ends exactly when the
count reaches its bound. A phase moves only as the table says; and a record is added exactly when the payload's last symbol
is taken, one record, with the header's fields in its first word. -/
def Obligations.SymbolTransitions : Prop :=
  ∀ (y : C) (s : State), s.fsm.phase ≠ .reset →
    (s.fsm.phase = .seek →
      ((detPush s.cfg s.thresh y s.det).2 = none →
        symbol y s = { s with det := (detPush s.cfg s.thresh y s.det).1 }) ∧
      (∀ d, (detPush s.cfg s.thresh y s.det).2 = some d →
        symbol y s = detect d { s with det := (detPush s.cfg s.thresh y s.det).1 } ∧
          (symbol y s).fsm.phase = .header)) ∧
    (s.fsm.phase = .header ∨ s.fsm.phase = .payload →
      ∃ (u : Nat) (sh : C) (e e' : R) (lim : Nat) (t : State),
        decideSymbol s.demScheme y = (u, sh) ∧ e = carg (cmul y (conj sh)) ∧
        e' = (if e.ge Config.negPi && e.le Config.pi then e else R.zero) ∧
        lim =
          (if s.fsm.phase = .header then chainL2 6 s.cfg.hdrFi s.cfg.hdrFo
            else chainL2 s.fsm.hdr.len.toNat s.fsm.hdr.fecI s.fsm.hdr.fecO) ∧
        t =
          { s with
            nco :=
              { s.nco with
                theta := s.nco.theta + toPhase (s.pllBw.mul e')
                omega := s.nco.omega + toPhase (((s.pllBw.mul s.pllBw).div (R.ofNat (2 * s.cfg.k))).mul e') }
            fsm :=
              { s.fsm with
                evmAcc := if s.fsm.phase = .payload then s.fsm.evmAcc.add (cabs2 (csub y sh)) else s.fsm.evmAcc
                bits :=
                  s.fsm.bits ++
                    ((List.range s.demScheme.bps).map fun j => u.testBit (s.demScheme.bps - 1 - j)).take
                      (lim - s.fsm.bits.length)
                cnt := s.fsm.cnt + 1 } } ∧
        (s.fsm.phase = .header →
          symbol y s = if s.fsm.cnt + 1 = s.fsm.hdrSyms then headerDone t else t) ∧
        (s.fsm.phase = .payload →
          symbol y s = if s.fsm.cnt + 1 = s.fsm.paySyms then payloadDone t else t)) ∧
    (s.fsm.phase = .header → s.fsm.cnt + 1 = s.fsm.hdrSyms →
      ((symbol y s).fsm.phase = .payload ∨ (symbol y s).fsm.phase = .seek) ∧ (symbol y s).fsm.cnt = 0) ∧
    (s.fsm.phase = .payload → s.fsm.cnt + 1 = s.fsm.paySyms →
      (symbol y s).fsm.phase = .seek ∧
        ∃ rest, (symbol y s).frames = s.frames ++ [headerWord0 s.fsm.hdr :: rest]) ∧
    (s.fsm.phase ≠ .payload ∨ s.fsm.cnt + 1 ≠ s.fsm.paySyms → (symbol y s).frames = s.frames)

/-- R355, R358, R362: how a header and a payload end whose bits are all there. A valid header sets the descriptor, the
header words, the scheme and the payload's count and starts the payload; any other resets, with the frequency restored.
A payload updates the statistics, emits its record whether or not it is valid, and resets. -/
def Obligations.FramePartsEnd : Prop :=
  (∀ (s : State) (m0 m1 m2 m3 m4 m5 : Byte) (ok : Bool),
      chainL2 6 s.cfg.hdrFi s.cfg.hdrFo ≤ s.fsm.bits.length →
      chainDecode 6 s.cfg.hdrFi s.cfg.hdrFo s.cfg.D1 s.cfg.D2 s.fsm.bits = ([m0, m1, m2, m3, m4, m5], ok) →
      (∀ (sch : Scheme) (fi fo : Fec), ok = true → sch.id = m0.toNat → sch.bps = m1.toNat → fi.id = m4.toNat →
        fo.id = m5.toNat → 256 * m2.toNat + m3.toNat ≤ s.cfg.maxPayload →
        ∃ n : Word, n.toNat = min (s.stats.nHdr.toNat + 1) s.stats.nDet.toNat ∧
          headerDone s =
            { s with
              stats := { s.stats with nHdr := n }
              hdrW0 := BitVec.ofNat 32 ((256 * m2.toNat + m3.toNat) * 2 ^ 16 + m0.toNat * 2 ^ 8 + m1.toNat)
              hdrW1 := BitVec.ofNat 32 (m5.toNat * 2 ^ 8 + m4.toNat)
              demScheme := sch
              agc := { s.agc with bw := if s.cfg.bwSwitch then s.cfg.agcBwN else s.agc.bw }
              pllBw := if s.cfg.bwSwitch then s.cfg.pllBwN else s.pllBw
              ss := { s.ss with bw := if s.cfg.bwSwitch then s.cfg.ssBwN else s.ss.bw }
              fsm :=
                { s.fsm with
                  hdr :=
                    { mod := m0, bps := m1, len := BitVec.ofNat 16 (256 * m2.toNat + m3.toNat), fecI := fi, fecO := fo }
                  paySyms := (chainL2 (256 * m2.toNat + m3.toNat) fi fo + m1.toNat - 1) / m1.toNat
                  cnt := 0, bits := [], evmAcc := R.zero, phase := .payload } }) ∧
      (ok = false ∨ m0 = 0 ∨ 6 < m0.toNat ∨ (∃ sch : Scheme, sch.id = m0.toNat ∧ sch.bps ≠ m1.toNat) ∨ 2 < m4.toNat ∨
          2 < m5.toNat ∨ s.cfg.maxPayload < 256 * m2.toNat + m3.toNat →
        headerDone s = doReset true s)) ∧
    ∀ (s : State) (msg : List Byte) (ok : Bool),
      chainL2 s.fsm.hdr.len.toNat s.fsm.hdr.fecI s.fsm.hdr.fecO ≤ s.fsm.bits.length →
      chainDecode s.fsm.hdr.len.toNat s.fsm.hdr.fecI s.fsm.hdr.fecO s.cfg.D1 s.cfg.D2 s.fsm.bits = (msg, ok) →
      ∃ st : Stats,
        st.nDet = s.stats.nDet ∧ st.nHdr = s.stats.nHdr ∧
        st.nPay.toNat =
          (if ok then min (s.stats.nPay.toNat + 1) s.stats.nHdr.toNat else s.stats.nPay.toNat) ∧
        st.rssi = s.agc.e ∧ st.cfo = phaseToRad s.nco.omega ∧ st.evm = s.fsm.evmAcc.div (R.ofNat s.fsm.paySyms) ∧
        msg.length = s.fsm.hdr.len.toNat ∧
        payloadDone s =
          doReset false { s with stats := st, frames := s.frames ++ [frameRecord s.fsm.hdr msg ok st] }

/-- R360: the record, word by word, and its length. -/
def Obligations.FrameRecordWords : Prop :=
  ∀ (h : Header) (msg : List Byte) (ok : Bool) (st : Stats), msg.length = h.len.toNat →
    ∃ w1 : Word,
      w1.toNat = ok.toNat * 2 ^ 31 + h.fecO.id * 2 ^ 8 + h.fecI.id ∧
      frameRecord h msg ok st =
        [BitVec.ofNat 32 (h.len.toNat * 2 ^ 16 + h.mod.toNat * 2 ^ 8 + h.bps.toNat), w1, st.nDet, st.nHdr, st.nPay,
          encR st.rssi, encR st.cfo, encR st.evm] ++ packBytes msg ∧
      (frameRecord h msg ok st).length = 8 + (h.len.toNat + 3) / 4 ∧
      unpackBytes h.len.toNat ((frameRecord h msg ok st).drop 8) = msg

/-- R365, R366, R367: RESET_STATS, GET_STATS and GET_THRESHOLD. -/
def Obligations.AccessorCommands : Prop :=
  ∀ s : State,
    exec (.resetStats []) s = .next
      ({ s with
          stats := { nDet := 0, nHdr := 0, nPay := 0, rssi := R.zero, cfo := R.zero, evm := R.zero } }.respond []) ∧
    exec (.getStats []) s = .next
      (s.respond
        [s.stats.nDet, s.stats.nHdr, s.stats.nPay, encR s.stats.rssi, encR s.stats.cfo, encR s.stats.evm]) ∧
    exec (.getThreshold []) s = .next (s.respond [encR s.thresh]) ∧
    exec (.regRead 0x20 []) s = .next (s.respond [encR s.thresh])

/-! ### Invariants of every step -/

/-- The reset state meets every invariant below. -/
def Obligations.ResetIsSafe : Prop := Safe State.reset

/-- R80 to R84, R394 (log 12): from any state with canonical memories under a legal configuration, every step leaves
such a state. -/
def Obligations.MemoryStaysCanonical : Prop := KeptByStep MemoryOk

/-- R363, R464: every step keeps `n_det >= n_hdr >= n_pay`. -/
def Obligations.StatsStayOrdered : Prop := KeptByStep StatsOrdered

/-- R61, R353, R357: every step keeps the bounds of the symbol counter and of the bit buffer, and never leaves the block
in RESET. -/
def Obligations.FrameStaysBounded : Prop := KeptByStep FrameOk

/-- R214: every step keeps the interpolator's time to the next output in `(0, 3k/4]` and its rate state in
`[-rmax, rmax]`. -/
def Obligations.TimingStaysInRange : Prop := KeptByStep TimingOk

/-- R192, R53, R59: every step keeps the AGC energy, the bandwidths, the threshold and the detector's fill count in
their ranges. -/
def Obligations.LevelsStayInRange : Prop := KeptByStep LevelsOk
end

