-- ==== Sys2Proof/Laws/Encoding.lean ====
section
/-! SUPPORT. Laws of the encoding: the opcode map is one to one, a command word splits into its opcode and its
immediate, and decoding a joined word looks at each part alone. -/

namespace Sys2Proof

theorem ofCode_code (o : Op) : Op.ofCode o.code = some o := by cases o <;> rfl

theorem eq_code_of_ofCode {c : BitVec 8} {o : Op} (h : Op.ofCode c = some o) : c = o.code := by
  revert c; cases o <;> decide

/-- The number of the word `(op << 24) | imm` (R123). -/
theorem toNat_word (c : BitVec 8) (imm : BitVec 24) :
    BitVec.toNat (w := 32) (c ++ imm) = c.toNat * 2 ^ 24 + imm.toNat := by
  have h : BitVec.toNat (w := 8 + 24) (c ++ imm) = c.toNat * 2 ^ 24 + imm.toNat := by
    rw [BitVec.toNat_append, ← Nat.shiftLeft_add_eq_or_of_lt imm.isLt, Nat.shiftLeft_eq]
  exact h

theorem word_opcode (c : BitVec 8) (imm : BitVec 24) : BitVec.extractLsb' 24 8 (c ++ imm : Word) = c := by
  have hc := c.isLt
  have hi := imm.isLt
  apply BitVec.eq_of_toNat_eq
  rw [BitVec.extractLsb'_toNat, toNat_word, Nat.shiftRight_eq_div_pow]
  omega

theorem word_imm (c : BitVec 8) (imm : BitVec 24) : BitVec.extractLsb' 0 24 (c ++ imm : Word) = imm := by
  have hc := c.isLt
  have hi := imm.isLt
  apply BitVec.eq_of_toNat_eq
  rw [BitVec.extractLsb'_toNat, toNat_word, Nat.shiftRight_eq_div_pow]
  omega

/-- Every word is its opcode joined with its immediate. -/
theorem word_split (w : Word) : w = (w.extractLsb' 24 8 ++ w.extractLsb' 0 24 : Word) := by
  apply BitVec.eq_of_toNat_eq
  rw [toNat_word, BitVec.extractLsb'_toNat, BitVec.extractLsb'_toNat, Nat.shiftRight_eq_div_pow,
    Nat.shiftRight_eq_div_pow]
  omega

/-- All that `decode` can do. -/
theorem decode_word (c : BitVec 8) (imm : BitVec 24) (ws : List Word) :
    decode ⟨c ++ imm, ws⟩ =
      match Op.ofCode c with
      | none => .error (.reservedOp c)
      | some o => if imm.toNat < 2 ^ o.immBits then .ok (o.toInstr imm ws) else .error (.reservedImm o) := by
  cases hc : Op.ofCode c <;> simp only [decode, word_opcode, word_imm, hc]

/-- The two fields of format F16 as one number. -/
theorem toNat_fieldsF16 (fi fo : BitVec 8) :
    BitVec.toNat (w := 24) (BitVec.setWidth 24 (fo ++ fi)) = fo.toNat * 256 + fi.toNat := by
  have h1 := fi.isLt
  have h2 := fo.isLt
  rw [BitVec.toNat_setWidth, BitVec.toNat_append, ← Nat.shiftLeft_add_eq_or_of_lt fi.isLt, Nat.shiftLeft_eq]
  omega

/-- The immediate of every command fits its format's fields. -/
theorem imm_fits (i : Instr) : i.imm.toNat < 2 ^ i.op.immBits := by
  cases i <;>
    simp only [Instr.imm, Instr.op, Op.immBits, BitVec.toNat_setWidth] <;>
    first | omega | exact BitVec.isLt _ | decide

end Sys2Proof
end

