-- ==== Sys2Proof/Laws/State.lean ====
section
/-! SUPPORT. What each named update of the state leaves in each field, one lemma a field, so that no later proof unfolds
a record update. -/

namespace Sys2Proof.Machine

/-! ### `respond` -/

@[simp] theorem respond_cmds (s : State) (r : List Word) : (s.respond r).cmds = s.cmds := rfl
@[simp] theorem respond_resp (s : State) (r : List Word) : (s.respond r).resp = s.resp ++ [r] := rfl
@[simp] theorem respond_frames (s : State) (r : List Word) : (s.respond r).frames = s.frames := rfl
@[simp] theorem respond_words (s : State) (r : List Word) : (s.respond r).words = s.words := rfl
@[simp] theorem respond_cfg (s : State) (r : List Word) : (s.respond r).cfg = s.cfg := rfl
@[simp] theorem respond_preMem (s : State) (r : List Word) : (s.respond r).preMem = s.preMem := rfl
@[simp] theorem respond_coefMem (s : State) (r : List Word) : (s.respond r).coefMem = s.coefMem := rfl
@[simp] theorem respond_nco (s : State) (r : List Word) : (s.respond r).nco = s.nco := rfl
@[simp] theorem respond_pllBw (s : State) (r : List Word) : (s.respond r).pllBw = s.pllBw := rfl
@[simp] theorem respond_agc (s : State) (r : List Word) : (s.respond r).agc = s.agc := rfl
@[simp] theorem respond_ss (s : State) (r : List Word) : (s.respond r).ss = s.ss := rfl
@[simp] theorem respond_det (s : State) (r : List Word) : (s.respond r).det = s.det := rfl
@[simp] theorem respond_fsm (s : State) (r : List Word) : (s.respond r).fsm = s.fsm := rfl
@[simp] theorem respond_demScheme (s : State) (r : List Word) : (s.respond r).demScheme = s.demScheme := rfl
@[simp] theorem respond_stats (s : State) (r : List Word) : (s.respond r).stats = s.stats := rfl
@[simp] theorem respond_lastDet (s : State) (r : List Word) : (s.respond r).lastDet = s.lastDet := rfl
@[simp] theorem respond_hdrW0 (s : State) (r : List Word) : (s.respond r).hdrW0 = s.hdrW0 := rfl
@[simp] theorem respond_hdrW1 (s : State) (r : List Word) : (s.respond r).hdrW1 = s.hdrW1 := rfl
@[simp] theorem respond_configured (s : State) (r : List Word) : (s.respond r).configured = s.configured := rfl
@[simp] theorem respond_err (s : State) (r : List Word) : (s.respond r).err = s.err := rfl
@[simp] theorem respond_thresh (s : State) (r : List Word) : (s.respond r).thresh = s.thresh := rfl
@[simp] theorem respond_draws (s : State) (r : List Word) : (s.respond r).draws = s.draws := rfl

/-! ### `failWith` -/

@[simp] theorem failWith_cmds (s : State) (c : ErrCode) (r : List Word) : (s.failWith c r).cmds = s.cmds := rfl
@[simp] theorem failWith_resp (s : State) (c : ErrCode) (r : List Word) : (s.failWith c r).resp = s.resp ++ [r] := rfl
@[simp] theorem failWith_frames (s : State) (c : ErrCode) (r : List Word) : (s.failWith c r).frames = s.frames := rfl
@[simp] theorem failWith_words (s : State) (c : ErrCode) (r : List Word) : (s.failWith c r).words = s.words := rfl
@[simp] theorem failWith_cfg (s : State) (c : ErrCode) (r : List Word) : (s.failWith c r).cfg = s.cfg := rfl
@[simp] theorem failWith_preMem (s : State) (c : ErrCode) (r : List Word) : (s.failWith c r).preMem = s.preMem := rfl
@[simp] theorem failWith_coefMem (s : State) (c : ErrCode) (r : List Word) :
    (s.failWith c r).coefMem = s.coefMem := rfl
@[simp] theorem failWith_nco (s : State) (c : ErrCode) (r : List Word) : (s.failWith c r).nco = s.nco := rfl
@[simp] theorem failWith_pllBw (s : State) (c : ErrCode) (r : List Word) : (s.failWith c r).pllBw = s.pllBw := rfl
@[simp] theorem failWith_agc (s : State) (c : ErrCode) (r : List Word) : (s.failWith c r).agc = s.agc := rfl
@[simp] theorem failWith_ss (s : State) (c : ErrCode) (r : List Word) : (s.failWith c r).ss = s.ss := rfl
@[simp] theorem failWith_det (s : State) (c : ErrCode) (r : List Word) : (s.failWith c r).det = s.det := rfl
@[simp] theorem failWith_fsm (s : State) (c : ErrCode) (r : List Word) : (s.failWith c r).fsm = s.fsm := rfl
@[simp] theorem failWith_demScheme (s : State) (c : ErrCode) (r : List Word) :
    (s.failWith c r).demScheme = s.demScheme := rfl
@[simp] theorem failWith_stats (s : State) (c : ErrCode) (r : List Word) : (s.failWith c r).stats = s.stats := rfl
@[simp] theorem failWith_lastDet (s : State) (c : ErrCode) (r : List Word) :
    (s.failWith c r).lastDet = s.lastDet := rfl
@[simp] theorem failWith_hdrW0 (s : State) (c : ErrCode) (r : List Word) : (s.failWith c r).hdrW0 = s.hdrW0 := rfl
@[simp] theorem failWith_hdrW1 (s : State) (c : ErrCode) (r : List Word) : (s.failWith c r).hdrW1 = s.hdrW1 := rfl
@[simp] theorem failWith_configured (s : State) (c : ErrCode) (r : List Word) :
    (s.failWith c r).configured = s.configured := rfl
@[simp] theorem failWith_err (s : State) (c : ErrCode) (r : List Word) : (s.failWith c r).err = s.err.record c := rfl
@[simp] theorem failWith_thresh (s : State) (c : ErrCode) (r : List Word) : (s.failWith c r).thresh = s.thresh := rfl
@[simp] theorem failWith_draws (s : State) (c : ErrCode) (r : List Word) : (s.failWith c r).draws = s.draws := rfl

/-! ### `set_wide` -/

@[simp] theorem setWide_cmds (s : State) : (setWide s).cmds = s.cmds := rfl
@[simp] theorem setWide_resp (s : State) : (setWide s).resp = s.resp := rfl
@[simp] theorem setWide_frames (s : State) : (setWide s).frames = s.frames := rfl
@[simp] theorem setWide_words (s : State) : (setWide s).words = s.words := rfl
@[simp] theorem setWide_cfg (s : State) : (setWide s).cfg = s.cfg := rfl
@[simp] theorem setWide_preMem (s : State) : (setWide s).preMem = s.preMem := rfl
@[simp] theorem setWide_coefMem (s : State) : (setWide s).coefMem = s.coefMem := rfl
@[simp] theorem setWide_nco (s : State) : (setWide s).nco = s.nco := rfl
@[simp] theorem setWide_pllBw (s : State) : (setWide s).pllBw = s.cfg.pllBwW := rfl
@[simp] theorem setWide_agc (s : State) : (setWide s).agc = { s.agc with bw := s.cfg.agcBwW } := rfl
@[simp] theorem setWide_ss (s : State) : (setWide s).ss = { s.ss with bw := s.cfg.ssBwW } := rfl
@[simp] theorem setWide_det (s : State) : (setWide s).det = s.det := rfl
@[simp] theorem setWide_fsm (s : State) : (setWide s).fsm = s.fsm := rfl
@[simp] theorem setWide_demScheme (s : State) : (setWide s).demScheme = s.demScheme := rfl
@[simp] theorem setWide_stats (s : State) : (setWide s).stats = s.stats := rfl
@[simp] theorem setWide_lastDet (s : State) : (setWide s).lastDet = s.lastDet := rfl
@[simp] theorem setWide_hdrW0 (s : State) : (setWide s).hdrW0 = s.hdrW0 := rfl
@[simp] theorem setWide_hdrW1 (s : State) : (setWide s).hdrW1 = s.hdrW1 := rfl
@[simp] theorem setWide_configured (s : State) : (setWide s).configured = s.configured := rfl
@[simp] theorem setWide_err (s : State) : (setWide s).err = s.err := rfl
@[simp] theorem setWide_thresh (s : State) : (setWide s).thresh = s.thresh := rfl
@[simp] theorem setWide_draws (s : State) : (setWide s).draws = s.draws := rfl

/-! ### `set_narrow` -/

@[simp] theorem setNarrow_cmds (s : State) : (setNarrow s).cmds = s.cmds := rfl
@[simp] theorem setNarrow_resp (s : State) : (setNarrow s).resp = s.resp := rfl
@[simp] theorem setNarrow_frames (s : State) : (setNarrow s).frames = s.frames := rfl
@[simp] theorem setNarrow_words (s : State) : (setNarrow s).words = s.words := rfl
@[simp] theorem setNarrow_cfg (s : State) : (setNarrow s).cfg = s.cfg := rfl
@[simp] theorem setNarrow_preMem (s : State) : (setNarrow s).preMem = s.preMem := rfl
@[simp] theorem setNarrow_coefMem (s : State) : (setNarrow s).coefMem = s.coefMem := rfl
@[simp] theorem setNarrow_nco (s : State) : (setNarrow s).nco = s.nco := rfl
@[simp] theorem setNarrow_pllBw (s : State) : (setNarrow s).pllBw = s.cfg.pllBwN := rfl
@[simp] theorem setNarrow_agc (s : State) : (setNarrow s).agc = { s.agc with bw := s.cfg.agcBwN } := rfl
@[simp] theorem setNarrow_ss (s : State) : (setNarrow s).ss = { s.ss with bw := s.cfg.ssBwN } := rfl
@[simp] theorem setNarrow_det (s : State) : (setNarrow s).det = s.det := rfl
@[simp] theorem setNarrow_fsm (s : State) : (setNarrow s).fsm = s.fsm := rfl
@[simp] theorem setNarrow_demScheme (s : State) : (setNarrow s).demScheme = s.demScheme := rfl
@[simp] theorem setNarrow_stats (s : State) : (setNarrow s).stats = s.stats := rfl
@[simp] theorem setNarrow_lastDet (s : State) : (setNarrow s).lastDet = s.lastDet := rfl
@[simp] theorem setNarrow_hdrW0 (s : State) : (setNarrow s).hdrW0 = s.hdrW0 := rfl
@[simp] theorem setNarrow_hdrW1 (s : State) : (setNarrow s).hdrW1 = s.hdrW1 := rfl
@[simp] theorem setNarrow_configured (s : State) : (setNarrow s).configured = s.configured := rfl
@[simp] theorem setNarrow_err (s : State) : (setNarrow s).err = s.err := rfl
@[simp] theorem setNarrow_thresh (s : State) : (setNarrow s).thresh = s.thresh := rfl
@[simp] theorem setNarrow_draws (s : State) : (setNarrow s).draws = s.draws := rfl

/-! ### `do_reset` -/

@[simp] theorem doReset_cmds (b : Bool) (s : State) : (doReset b s).cmds = s.cmds := rfl
@[simp] theorem doReset_resp (b : Bool) (s : State) : (doReset b s).resp = s.resp := rfl
@[simp] theorem doReset_frames (b : Bool) (s : State) : (doReset b s).frames = s.frames := rfl
@[simp] theorem doReset_words (b : Bool) (s : State) : (doReset b s).words = s.words := rfl
@[simp] theorem doReset_cfg (b : Bool) (s : State) : (doReset b s).cfg = s.cfg := rfl
@[simp] theorem doReset_preMem (b : Bool) (s : State) : (doReset b s).preMem = s.preMem := rfl
@[simp] theorem doReset_coefMem (b : Bool) (s : State) : (doReset b s).coefMem = s.coefMem := rfl
@[simp] theorem doReset_nco (b : Bool) (s : State) :
    (doReset b s).nco = { s.nco with omega := if b then s.nco.omegaSeek else s.nco.omega } := rfl
@[simp] theorem doReset_pllBw (b : Bool) (s : State) : (doReset b s).pllBw = s.cfg.pllBwW := rfl
@[simp] theorem doReset_agc (b : Bool) (s : State) : (doReset b s).agc = { s.agc with bw := s.cfg.agcBwW } := rfl
@[simp] theorem doReset_ss (b : Bool) (s : State) : (doReset b s).ss = { s.ss with bw := s.cfg.ssBwW } := rfl
@[simp] theorem doReset_det (b : Bool) (s : State) : (doReset b s).det = detClear s.det := rfl
@[simp] theorem doReset_fsm (b : Bool) (s : State) :
    (doReset b s).fsm = { s.fsm with cnt := 0, bits := [], phase := .seek } := rfl
@[simp] theorem doReset_demScheme (b : Bool) (s : State) : (doReset b s).demScheme = s.demScheme := rfl
@[simp] theorem doReset_stats (b : Bool) (s : State) : (doReset b s).stats = s.stats := rfl
@[simp] theorem doReset_lastDet (b : Bool) (s : State) : (doReset b s).lastDet = s.lastDet := rfl
@[simp] theorem doReset_hdrW0 (b : Bool) (s : State) : (doReset b s).hdrW0 = s.hdrW0 := rfl
@[simp] theorem doReset_hdrW1 (b : Bool) (s : State) : (doReset b s).hdrW1 = s.hdrW1 := rfl
@[simp] theorem doReset_configured (b : Bool) (s : State) : (doReset b s).configured = s.configured := rfl
@[simp] theorem doReset_err (b : Bool) (s : State) : (doReset b s).err = s.err := rfl
@[simp] theorem doReset_thresh (b : Bool) (s : State) : (doReset b s).thresh = s.thresh := rfl
@[simp] theorem doReset_draws (b : Bool) (s : State) : (doReset b s).draws = s.draws := rfl

/-! ### A symbol taken -/

@[simp] theorem takeSymbol_cmds (y : C) (s : State) : (takeSymbol y s).cmds = s.cmds := rfl
@[simp] theorem takeSymbol_resp (y : C) (s : State) : (takeSymbol y s).resp = s.resp := rfl
@[simp] theorem takeSymbol_frames (y : C) (s : State) : (takeSymbol y s).frames = s.frames := rfl
@[simp] theorem takeSymbol_words (y : C) (s : State) : (takeSymbol y s).words = s.words := rfl
@[simp] theorem takeSymbol_cfg (y : C) (s : State) : (takeSymbol y s).cfg = s.cfg := rfl
@[simp] theorem takeSymbol_preMem (y : C) (s : State) : (takeSymbol y s).preMem = s.preMem := rfl
@[simp] theorem takeSymbol_coefMem (y : C) (s : State) : (takeSymbol y s).coefMem = s.coefMem := rfl
@[simp] theorem takeSymbol_pllBw (y : C) (s : State) : (takeSymbol y s).pllBw = s.pllBw := rfl
@[simp] theorem takeSymbol_agc (y : C) (s : State) : (takeSymbol y s).agc = s.agc := rfl
@[simp] theorem takeSymbol_ss (y : C) (s : State) : (takeSymbol y s).ss = s.ss := rfl
@[simp] theorem takeSymbol_det (y : C) (s : State) : (takeSymbol y s).det = s.det := rfl
@[simp] theorem takeSymbol_demScheme (y : C) (s : State) : (takeSymbol y s).demScheme = s.demScheme := rfl
@[simp] theorem takeSymbol_stats (y : C) (s : State) : (takeSymbol y s).stats = s.stats := rfl
@[simp] theorem takeSymbol_lastDet (y : C) (s : State) : (takeSymbol y s).lastDet = s.lastDet := rfl
@[simp] theorem takeSymbol_hdrW0 (y : C) (s : State) : (takeSymbol y s).hdrW0 = s.hdrW0 := rfl
@[simp] theorem takeSymbol_hdrW1 (y : C) (s : State) : (takeSymbol y s).hdrW1 = s.hdrW1 := rfl
@[simp] theorem takeSymbol_configured (y : C) (s : State) : (takeSymbol y s).configured = s.configured := rfl
@[simp] theorem takeSymbol_err (y : C) (s : State) : (takeSymbol y s).err = s.err := rfl
@[simp] theorem takeSymbol_thresh (y : C) (s : State) : (takeSymbol y s).thresh = s.thresh := rfl
@[simp] theorem takeSymbol_draws (y : C) (s : State) : (takeSymbol y s).draws = s.draws := rfl

/-! ### `latch_config` -/

@[simp] theorem latchConfig_cmds (c : Cfg) (r : List C) (s : State) : (latchConfig c r s).cmds = s.cmds := rfl
@[simp] theorem latchConfig_resp (c : Cfg) (r : List C) (s : State) : (latchConfig c r s).resp = s.resp := rfl
@[simp] theorem latchConfig_frames (c : Cfg) (r : List C) (s : State) : (latchConfig c r s).frames = s.frames := rfl
@[simp] theorem latchConfig_words (c : Cfg) (r : List C) (s : State) : (latchConfig c r s).words = s.words := rfl
@[simp] theorem latchConfig_cfg (c : Cfg) (r : List C) (s : State) : (latchConfig c r s).cfg = c := rfl
@[simp] theorem latchConfig_preMem (c : Cfg) (r : List C) (s : State) : (latchConfig c r s).preMem = s.preMem := rfl
@[simp] theorem latchConfig_coefMem (c : Cfg) (r : List C) (s : State) :
    (latchConfig c r s).coefMem = s.coefMem := rfl
@[simp] theorem latchConfig_nco (c : Cfg) (r : List C) (s : State) : (latchConfig c r s).nco = s.nco := rfl
@[simp] theorem latchConfig_pllBw (c : Cfg) (r : List C) (s : State) : (latchConfig c r s).pllBw = s.pllBw := rfl
@[simp] theorem latchConfig_agc (c : Cfg) (r : List C) (s : State) : (latchConfig c r s).agc = s.agc := rfl
@[simp] theorem latchConfig_ss (c : Cfg) (r : List C) (s : State) :
    (latchConfig c r s).ss = { s.ss with H := latchTaps c.P c.L s.coefMem } := rfl
@[simp] theorem latchConfig_det (c : Cfg) (r : List C) (s : State) :
    (latchConfig c r s).det = { s.det with ref := memSetPrefix C.zero r [] } := rfl
@[simp] theorem latchConfig_fsm (c : Cfg) (r : List C) (s : State) : (latchConfig c r s).fsm = s.fsm := rfl
@[simp] theorem latchConfig_demScheme (c : Cfg) (r : List C) (s : State) :
    (latchConfig c r s).demScheme = s.demScheme := rfl
@[simp] theorem latchConfig_stats (c : Cfg) (r : List C) (s : State) : (latchConfig c r s).stats = s.stats := rfl
@[simp] theorem latchConfig_lastDet (c : Cfg) (r : List C) (s : State) :
    (latchConfig c r s).lastDet = s.lastDet := rfl
@[simp] theorem latchConfig_hdrW0 (c : Cfg) (r : List C) (s : State) : (latchConfig c r s).hdrW0 = s.hdrW0 := rfl
@[simp] theorem latchConfig_hdrW1 (c : Cfg) (r : List C) (s : State) : (latchConfig c r s).hdrW1 = s.hdrW1 := rfl
@[simp] theorem latchConfig_configured (c : Cfg) (r : List C) (s : State) :
    (latchConfig c r s).configured = s.configured := rfl
@[simp] theorem latchConfig_err (c : Cfg) (r : List C) (s : State) : (latchConfig c r s).err = s.err := rfl
@[simp] theorem latchConfig_thresh (c : Cfg) (r : List C) (s : State) : (latchConfig c r s).thresh = s.thresh := rfl
@[simp] theorem latchConfig_draws (c : Cfg) (r : List C) (s : State) : (latchConfig c r s).draws = s.draws := rfl

/-! ### `start_receiver` -/

@[simp] theorem startReceiver_cmds (s : State) : (startReceiver s).cmds = s.cmds := rfl
@[simp] theorem startReceiver_resp (s : State) : (startReceiver s).resp = s.resp := rfl
@[simp] theorem startReceiver_frames (s : State) : (startReceiver s).frames = s.frames := rfl
@[simp] theorem startReceiver_words (s : State) : (startReceiver s).words = s.words := rfl
@[simp] theorem startReceiver_cfg (s : State) : (startReceiver s).cfg = s.cfg := rfl
@[simp] theorem startReceiver_preMem (s : State) : (startReceiver s).preMem = s.preMem := rfl
@[simp] theorem startReceiver_coefMem (s : State) : (startReceiver s).coefMem = s.coefMem := rfl
@[simp] theorem startReceiver_nco (s : State) :
    (startReceiver s).nco = { theta := 0, omega := 0, omegaSeek := 0 } := rfl
@[simp] theorem startReceiver_pllBw (s : State) : (startReceiver s).pllBw = s.cfg.pllBwW := rfl
@[simp] theorem startReceiver_agc (s : State) :
    (startReceiver s).agc = { e := s.cfg.A.mul s.cfg.A, bw := s.cfg.agcBwW } := rfl
@[simp] theorem startReceiver_ss (s : State) : (startReceiver s).ss = ssInit s.cfg s.ss := rfl
@[simp] theorem startReceiver_det (s : State) : (startReceiver s).det = detClear s.det := rfl
@[simp] theorem startReceiver_fsm (s : State) :
    (startReceiver s).fsm = { State.reset.fsm with hdrSyms := s.cfg.hdrSyms } := rfl
@[simp] theorem startReceiver_demScheme (s : State) : (startReceiver s).demScheme = s.cfg.hdrMod := rfl
@[simp] theorem startReceiver_stats (s : State) : (startReceiver s).stats = State.reset.stats := rfl
@[simp] theorem startReceiver_lastDet (s : State) : (startReceiver s).lastDet = State.reset.lastDet := rfl
@[simp] theorem startReceiver_hdrW0 (s : State) : (startReceiver s).hdrW0 = 0 := rfl
@[simp] theorem startReceiver_hdrW1 (s : State) : (startReceiver s).hdrW1 = 0 := rfl
@[simp] theorem startReceiver_configured (s : State) : (startReceiver s).configured = true := rfl
@[simp] theorem startReceiver_err (s : State) : (startReceiver s).err = s.err := rfl
@[simp] theorem startReceiver_thresh (s : State) : (startReceiver s).thresh = s.thresh := rfl
@[simp] theorem startReceiver_draws (s : State) : (startReceiver s).draws = s.draws := rfl

/-! ### RESET_BLOCK -/

@[simp] theorem resetBlock_cmds (s : State) : (resetBlock s).cmds = s.cmds := rfl
@[simp] theorem resetBlock_resp (s : State) : (resetBlock s).resp = s.resp := rfl
@[simp] theorem resetBlock_frames (s : State) : (resetBlock s).frames = s.frames := rfl
@[simp] theorem resetBlock_words (s : State) : (resetBlock s).words = State.reset.words := rfl
@[simp] theorem resetBlock_cfg (s : State) : (resetBlock s).cfg = State.reset.cfg := rfl
@[simp] theorem resetBlock_preMem (s : State) : (resetBlock s).preMem = State.reset.preMem := rfl
@[simp] theorem resetBlock_coefMem (s : State) : (resetBlock s).coefMem = State.reset.coefMem := rfl
@[simp] theorem resetBlock_nco (s : State) : (resetBlock s).nco = State.reset.nco := rfl
@[simp] theorem resetBlock_pllBw (s : State) : (resetBlock s).pllBw = State.reset.pllBw := rfl
@[simp] theorem resetBlock_agc (s : State) : (resetBlock s).agc = State.reset.agc := rfl
@[simp] theorem resetBlock_ss (s : State) : (resetBlock s).ss = State.reset.ss := rfl
@[simp] theorem resetBlock_det (s : State) : (resetBlock s).det = State.reset.det := rfl
@[simp] theorem resetBlock_fsm (s : State) : (resetBlock s).fsm = State.reset.fsm := rfl
@[simp] theorem resetBlock_demScheme (s : State) : (resetBlock s).demScheme = State.reset.demScheme := rfl
@[simp] theorem resetBlock_stats (s : State) : (resetBlock s).stats = State.reset.stats := rfl
@[simp] theorem resetBlock_lastDet (s : State) : (resetBlock s).lastDet = State.reset.lastDet := rfl
@[simp] theorem resetBlock_hdrW0 (s : State) : (resetBlock s).hdrW0 = State.reset.hdrW0 := rfl
@[simp] theorem resetBlock_hdrW1 (s : State) : (resetBlock s).hdrW1 = State.reset.hdrW1 := rfl
@[simp] theorem resetBlock_configured (s : State) : (resetBlock s).configured = State.reset.configured := rfl
@[simp] theorem resetBlock_err (s : State) : (resetBlock s).err = State.reset.err := rfl
@[simp] theorem resetBlock_thresh (s : State) : (resetBlock s).thresh = State.reset.thresh := rfl
@[simp] theorem resetBlock_draws (s : State) : (resetBlock s).draws = s.draws := rfl

/-! ### Small records -/

@[simp] theorem detClear_ref (d : Detector) : (detClear d).ref = d.ref := rfl
@[simp] theorem detClear_win (d : Detector) : (detClear d).win = [] := rfl
@[simp] theorem detClear_en (d : Detector) : (detClear d).en = [] := rfl
@[simp] theorem detClear_fill (d : Detector) : (detClear d).fill = 0 := rfl
@[simp] theorem detClear_pend (d : Detector) : (detClear d).pend = false := rfl
@[simp] theorem ssInit_H (c : Cfg) (u : SymSync) : (ssInit c u).H = u.H := rfl
@[simp] theorem ssInit_bw (c : Cfg) (u : SymSync) : (ssInit c u).bw = c.ssBwW := rfl
@[simp] theorem ssInit_buf (c : Cfg) (u : SymSync) : (ssInit c u).buf = [] := rfl
@[simp] theorem ssRotate_H (c : Cfg) (z : C) (u : SymSync) : (ssRotate c z u).H = u.H := rfl
@[simp] theorem ssRotate_bw (c : Cfg) (z : C) (u : SymSync) : (ssRotate c z u).bw = u.bw := rfl
@[simp] theorem ssRotate_tau (c : Cfg) (z : C) (u : SymSync) : (ssRotate c z u).tau = u.tau := rfl
@[simp] theorem ssRotate_r (c : Cfg) (z : C) (u : SymSync) : (ssRotate c z u).r = u.r := rfl
@[simp] theorem ncoStep_omega (n : Nco) : (ncoStep n).omega = n.omega := rfl
@[simp] theorem ncoStep_theta (n : Nco) : (ncoStep n).theta = n.theta + n.omega := rfl
@[simp] theorem pllStep_omegaSeek (k : Nat) (b e : R) (n : Nco) : (pllStep k b e n).omegaSeek = n.omegaSeek := rfl

end Sys2Proof.Machine
end

