-- ==== Sys2Proof/Laws/Ops.lean ====
section
/-! SUPPORT. How a command ends: what `settle` answers, in general, and for each error code. -/

namespace Sys2Proof.Machine

@[simp] theorem settle_ok (o : Op) (s t : State) (r : List Word) : settle o s (.ok (t, r)) = .next (t.respond r) := rfl

@[simp] theorem settle_error (o : Op) (s : State) (c : ErrCode) :
    settle o s (.error c) = .next (s.failWith c (failResponse c o)) := rfl

/-- Every command ends in a next state: the completed state with its response, or the failed one. -/
theorem settle_next {o : Op} {s t : State} {x : CmdResult} (h : settle o s x = .next t) :
    (∃ u r, x = .ok (u, r) ∧ t = u.respond r) ∨ ∃ c, x = .error c ∧ t = s.failWith c (failResponse c o) := by
  rcases x with c | ⟨u, r⟩
  · exact .inr ⟨c, rfl, by cases h; rfl⟩
  · exact .inl ⟨u, r, rfl, by cases h; rfl⟩

/-- The response of a failure by its number of words (R421 to R423). -/
theorem failResponse_eq (c : ErrCode) (o : Op) :
    failResponse c o =
      if o = .configure then [countWord c.code]
      else match responseWords o with | some n => List.replicate n 0 | none => [0] := by
  cases o <;> rfl

/-- Recording a code twice is recording it once. -/
theorem record_record (e : ErrRec) {c : ErrCode} (h : c ≠ .none) : (e.record c).record c = e.record c := by
  unfold ErrRec.record
  split <;> simp_all

end Sys2Proof.Machine
end

