-- ==== Sys2Proof/Laws/Exec.lean ====
section
/-! SUPPORT. What every command can do, said once: from `exec i s = next t` either `t` is the failed state, or `t` is
the state of one constructor of `Effect`, with its response. Later proofs about all commands take cases on it and unfold
no meaning. -/

namespace Sys2Proof.Machine

/-- The completed commands: the command, the state before, the state after, the response. -/
inductive Effect (s : State) : Instr → State → List Word → Prop where
  | nop : Effect s (.nop []) s []
  | resetBlock : Effect s (.resetBlock []) (Machine.resetBlock s) []
  | configure (cfg : Cfg) (ref : List C) (h : checkConfig s.words s.preMem = .ok (cfg, ref)) :
      Effect s (.configure []) (startReceiver (latchConfig cfg ref s)) [countWord 0]
  | regRead (a : BitVec 8) (r : Reg) (h : Reg.ofAddr a = some r) : Effect s (.regRead a []) s [regValue s r]
  | regWrite (a : BitVec 8) (v : Word) (r : Reg) (h : Reg.ofAddr a = some r) (t : State)
      (ht : regWritten s v r = .ok t) : Effect s (.regWrite a [v]) t []
  | preWrite (idx : BitVec 10) (re im : Word) :
      Effect s (.preWrite idx [re, im]) { s with preMem := memWrite C.zero idx.toNat (decC re im) s.preMem } []
  | coefWrite (idx : BitVec 15) (w : Word) (h : idx.toNat < Config.coefWords) :
      Effect s (.coefWrite idx [w]) { s with coefMem := memWrite R.zero idx.toNat (decR w) s.coefMem } []
  | execute (n : BitVec 24) (ws : List Word) (hn : ws.length = 2 * n.toNat) (hc : s.configured = true) :
      Effect s (.execute n ws) (runSamples (samples ws) s) []
  | resetStats : Effect s (.resetStats []) { s with stats := State.reset.stats } []
  | getStats : Effect s (.getStats []) s
      [s.stats.nDet, s.stats.nHdr, s.stats.nPay, encR s.stats.rssi, encR s.stats.cfo, encR s.stats.evm]
  | getThreshold : Effect s (.getThreshold []) s [encR s.thresh]
  | setThreshold (w : Word) (h : (decR w).within R.zero Config.one = true) :
      Effect s (.setThreshold [w]) { s with thresh := decR w } []
  | oscMixDown (re im : Word) : Effect s (.oscMixDown [re, im]) s (encC (mixDown s.nco (decC re im)))
  | oscMixUp (re im : Word) : Effect s (.oscMixUp [re, im]) s (encC (mixUp s.nco (decC re im)))
  | oscCexp : Effect s (.oscCexp []) s (encC (cis s.nco.theta))
  | oscStep : Effect s (.oscStep []) { s with nco := ncoStep s.nco } []
  | oscAdjPhase (d : Word) :
      Effect s (.oscAdjPhase [d]) { s with nco := { s.nco with theta := s.nco.theta + d } } []
  | oscAdjFreq (d : Word) : Effect s (.oscAdjFreq [d]) { s with nco := { s.nco with omega := s.nco.omega + d } } []
  | pllSetBw (w : Word) (h : (decR w).within R.zero Config.one = true) :
      Effect s (.pllSetBw [w]) { s with pllBw := decR w } []
  | pllStep (w : Word) : Effect s (.pllStep [w]) { s with nco := Machine.pllStep s.cfg.k s.pllBw (decR w) s.nco } []
  | agcSetBw (w : Word) (h : (decR w).within R.zero Config.one = true) :
      Effect s (.agcSetBw [w]) { s with agc := { s.agc with bw := decR w } } []
  | agcExecute (re im : Word) :
      Effect s (.agcExecute [re, im]) { s with agc := (Machine.agcExecute s.cfg.A (decC re im) s.agc).1 }
        (encC (Machine.agcExecute s.cfg.A (decC re im) s.agc).2.1 ++
          [encR (Machine.agcExecute s.cfg.A (decC re im) s.agc).2.2])
  | agcSeed (w : Word) : Effect s (.agcSeed [w]) { s with agc := Machine.agcSeed s.cfg.A (decR w) s.agc } []
  | ssSetBw (w : Word) (h : (decR w).within R.zero Config.one = true) :
      Effect s (.ssSetBw [w]) { s with ss := { s.ss with bw := decR w } } []
  | ssExecute (n : BitVec 24) (ws : List Word) (hn : ws.length = 2 * n.toNat) (hc : s.configured = true) :
      Effect s (.ssExecute n ws) { s with ss := (ssRun s.cfg (samples ws) s.ss).1 }
        (countWord (ssRun s.cfg (samples ws) s.ss).2.length :: (ssRun s.cfg (samples ws) s.ss).2.flatMap encC)
  | detPush (re im : Word) (hc : s.configured = true) :
      Effect s (.detPush [re, im]) { s with det := (Machine.detPush s.cfg s.thresh (decC re im) s.det).1 }
        (detResponse (Machine.detPush s.cfg s.thresh (decC re im) s.det).2)
  | detReset : Effect s (.detReset []) { s with det := detClear s.det } []
  | demSetScheme (id : BitVec 8) (sch : Scheme) (h : Scheme.ofId id.toNat = some sch) :
      Effect s (.demSetScheme id []) { s with demScheme := sch } []
  | demDemod (re im : Word) :
      Effect s (.demDemod [re, im]) s
        (countWord (demod s.demScheme (decC re im)).u :: encR (demod s.demScheme (decC re im)).e ::
          encC (demod s.demScheme (decC re im)).sh)
  | dilDeinterleave (depth : BitVec 24) (l : Word) (ws : List Word) (hn : bitsCount (l :: ws) = some (ws.length + 1))
      (hd : depth ≠ 0) :
      Effect s (.dilDeinterleave depth (l :: ws)) s
        (bitsResponse (deinterleave depth.toNat (unpackBits l.toNat ws)))
  | fecDecode (id : BitVec 8) (f : Fec) (hf : Fec.ofId id.toNat = some f) (l : Word) (ws : List Word)
      (hn : bitsCount (l :: ws) = some (ws.length + 1)) :
      Effect s (.fecDecode id (l :: ws)) s (bitsResponse (fecDec f (unpackBits l.toNat ws)))
  | crcCheck (n : Word) (ws : List Word) (hn : crcCount (n :: ws) = some (ws.length + 1)) :
      Effect s (.crcCheck (n :: ws)) s
        [flagWord (checkBlock n.toNat (unpackBytes (n.toNat + 4) ws)).2,
          crc32 (checkBlock n.toNat (unpackBytes (n.toNat + 4) ws)).1]
  | decDecode (fi fo : BitVec 8) (gi go : Fec) (hi : Fec.ofId fi.toNat = some gi) (ho : Fec.ofId fo.toNat = some go)
      (n depths l : Word) (ws : List Word) (hn : decCount (n :: depths :: l :: ws) = some (ws.length + 3))
      (hp : n.toNat ≤ Config.payloadCap) (h1 : (depths.extractLsb' 0 8).toNat ≠ 0)
      (h2 : (depths.extractLsb' 8 8).toNat ≠ 0) (h3 : depths.extractLsb' 16 16 = 0)
      (hl : chainL2 n.toNat gi go ≤ l.toNat) :
      Effect s (.decDecode fi fo (n :: depths :: l :: ws)) s
        (flagWord
            (chainDecode n.toNat gi go (depths.extractLsb' 0 8).toNat (depths.extractLsb' 8 8).toNat
              (unpackBits l.toNat ws)).2 ::
          packBytes
            (chainDecode n.toNat gi go (depths.extractLsb' 0 8).toNat (depths.extractLsb' 8 8).toNat
              (unpackBits l.toNat ws)).1)

/-- A command ends in failure with a code, or in one of its effects. -/
def Ends (i : Instr) (s : State) (x : CmdResult) : Prop :=
  (∃ c, x = .error c ∧ c ≠ .none) ∨ ∃ t r, x = .ok (t, r) ∧ Effect s i t r

theorem Ends.fail {i : Instr} {s : State} {c : ErrCode} (h : c ≠ .none := by decide) : Ends i s (.error c) :=
  .inl ⟨c, rfl, h⟩

theorem Ends.done {i : Instr} {s t : State} {r : List Word} (h : Effect s i t r) : Ends i s (.ok (t, r)) :=
  .inr ⟨t, r, rfl, h⟩

theorem checkConfig_error {w : CfgWords} {m : Cells C} {c : ErrCode} (h : checkConfig w m = .error c) : c ≠ .none := by
  unfold checkConfig at h
  repeat' split at h
  all_goals first | cases h; decide | cases h

theorem regWritten_error {s : State} {v : Word} {r : Reg} {c : ErrCode} (h : regWritten s v r = .error c) :
    c ≠ .none := by
  unfold regWritten at h
  repeat' split at h
  all_goals first | cases h; decide | cases h

/-- What `exec` is for every command. -/
theorem exec_eq (i : Instr) (s : State) : ∃ x, exec i s = settle i.op s x ∧ Ends i s x := by
  cases i with
  | nop ws => refine ⟨_, rfl, ?_⟩; split; exacts [.done .nop, .fail]
  | resetBlock ws => refine ⟨_, rfl, ?_⟩; split; exacts [.done .resetBlock, .fail]
  | configure ws =>
    refine ⟨_, rfl, ?_⟩
    split
    · split
      · next c h => exact .fail (checkConfig_error h)
      · next cfg ref h => exact .done (.configure cfg ref h)
    · exact .fail
  | regRead a ws =>
    refine ⟨_, rfl, ?_⟩
    split
    · split
      · next r h => exact .done (.regRead a r h)
      · exact .fail
    · exact .fail
  | regWrite a ws =>
    refine ⟨_, rfl, ?_⟩
    split
    · split
      · next r h =>
        split
        · next t ht => exact .done (.regWrite a _ r h t ht)
        · next c hc => exact .fail (regWritten_error hc)
      · exact .fail
    · exact .fail
  | preWrite idx ws => refine ⟨_, rfl, ?_⟩; split; exacts [.done (.preWrite idx _ _), .fail]
  | coefWrite idx ws =>
    refine ⟨_, rfl, ?_⟩
    split
    · split
      · exact .fail
      · next h => exact .done (.coefWrite idx _ (Nat.lt_of_not_le h))
    · exact .fail
  | execute n ws =>
    refine ⟨_, rfl, ?_⟩
    split
    · exact .fail
    · next hn =>
      split
      · exact .fail
      · next hc => exact .done (.execute n ws (by simpa using hn) (by simpa using hc))
  | resetStats ws => refine ⟨_, rfl, ?_⟩; split; exacts [.done .resetStats, .fail]
  | getStats ws => refine ⟨_, rfl, ?_⟩; split; exacts [.done .getStats, .fail]
  | getThreshold ws => refine ⟨_, rfl, ?_⟩; split; exacts [.done .getThreshold, .fail]
  | setThreshold ws =>
    refine ⟨_, rfl, ?_⟩
    split
    · split
      · next h => exact .done (.setThreshold _ h)
      · exact .fail
    · exact .fail
  | oscMixDown ws => refine ⟨_, rfl, ?_⟩; split; exacts [.done (.oscMixDown _ _), .fail]
  | oscMixUp ws => refine ⟨_, rfl, ?_⟩; split; exacts [.done (.oscMixUp _ _), .fail]
  | oscCexp ws => refine ⟨_, rfl, ?_⟩; split; exacts [.done .oscCexp, .fail]
  | oscStep ws => refine ⟨_, rfl, ?_⟩; split; exacts [.done .oscStep, .fail]
  | oscAdjPhase ws => refine ⟨_, rfl, ?_⟩; split; exacts [.done (.oscAdjPhase _), .fail]
  | oscAdjFreq ws => refine ⟨_, rfl, ?_⟩; split; exacts [.done (.oscAdjFreq _), .fail]
  | pllSetBw ws =>
    refine ⟨_, rfl, ?_⟩
    split
    · split
      · next h => exact .done (.pllSetBw _ h)
      · exact .fail
    · exact .fail
  | pllStep ws => refine ⟨_, rfl, ?_⟩; split; exacts [.done (.pllStep _), .fail]
  | agcSetBw ws =>
    refine ⟨_, rfl, ?_⟩
    split
    · split
      · next h => exact .done (.agcSetBw _ h)
      · exact .fail
    · exact .fail
  | agcExecute ws => refine ⟨_, rfl, ?_⟩; split; exacts [.done (.agcExecute _ _), .fail]
  | agcSeed ws => refine ⟨_, rfl, ?_⟩; split; exacts [.done (.agcSeed _), .fail]
  | ssSetBw ws =>
    refine ⟨_, rfl, ?_⟩
    split
    · split
      · next h => exact .done (.ssSetBw _ h)
      · exact .fail
    · exact .fail
  | ssExecute n ws =>
    refine ⟨_, rfl, ?_⟩
    split
    · exact .fail
    · next hn =>
      split
      · exact .fail
      · next hc => exact .done (.ssExecute n ws (by simpa using hn) (by simpa using hc))
  | detPush ws =>
    refine ⟨_, rfl, ?_⟩
    split
    · split
      · exact .fail
      · next hc => exact .done (.detPush _ _ (by simpa using hc))
    · exact .fail
  | detReset ws => refine ⟨_, rfl, ?_⟩; split; exacts [.done .detReset, .fail]
  | demSetScheme id ws =>
    refine ⟨_, rfl, ?_⟩
    split
    · split
      · next sch h => exact .done (.demSetScheme id sch h)
      · exact .fail
    · exact .fail
  | demDemod ws => refine ⟨_, rfl, ?_⟩; split; exacts [.done (.demDemod _ _), .fail]
  | dilDeinterleave depth ws =>
    refine ⟨_, rfl, ?_⟩
    split
    · exact .fail
    · split
      · exact .fail
      · next hn =>
        split
        · exact .fail
        · next hd => exact .done (.dilDeinterleave depth _ _ (by simpa using hn) hd)
  | fecDecode id ws =>
    refine ⟨_, rfl, ?_⟩
    split
    · exact .fail
    · split
      · exact .fail
      · next hn =>
        split
        · next f hf => exact .done (.fecDecode id f hf _ _ (by simpa using hn))
        · exact .fail
  | crcCheck ws =>
    refine ⟨_, rfl, ?_⟩
    split
    · exact .fail
    · split
      · exact .fail
      · next hn => exact .done (.crcCheck _ _ (by simpa using hn))
  | decDecode fi fo ws =>
    refine ⟨_, rfl, ?_⟩
    split
    · split
      · exact .fail
      · next hn =>
        split
        · next gi go hi ho =>
          dsimp only
          split
          · exact .fail
          · next hp =>
            split
            · exact .fail
            · next hD =>
              split
              · exact .fail
              · next hl =>
                simp only [Bool.or_eq_true, decide_eq_true_eq, not_or, ne_eq, not_not] at hD
                exact .done (.decDecode fi fo gi go hi ho _ _ _ _ (by simpa using hn) (Nat.le_of_not_lt hp) hD.1.1
                  hD.1.2 hD.2 (Nat.le_of_not_lt hl))
        · exact .fail
    · exact .fail

/-- Every command ends in a next state. -/
theorem exec_total (i : Instr) (s : State) : ∃ t, exec i s = .next t := by
  obtain ⟨x, hx, -⟩ := exec_eq i s
  rcases x with c | ⟨u, r⟩
  · exact ⟨_, hx.trans (settle_error _ _ _)⟩
  · exact ⟨_, hx.trans (settle_ok _ _ _ _)⟩

/-- From a next state: the failed state, or a completed effect with its response. -/
theorem exec_next {i : Instr} {s t : State} (h : exec i s = .next t) :
    (∃ c, c ≠ .none ∧ t = s.failWith c (failResponse c i.op)) ∨ ∃ u r, Effect s i u r ∧ t = u.respond r := by
  obtain ⟨x, hx, hc | hd⟩ := exec_eq i s
  · obtain ⟨c, rfl, hc⟩ := hc
    rw [hx, settle_error] at h
    exact .inl ⟨c, hc, by cases h; rfl⟩
  · obtain ⟨u, r, rfl, he⟩ := hd
    rw [hx, settle_ok] at h
    exact .inr ⟨u, r, he, by cases h; rfl⟩

end Sys2Proof.Machine
end

