-- ==== Sys2Proof/Laws/Frame.lean ====
section
/-! SUPPORT. What the frame engine and the configuration checks can do, said once each: the ways a header ends, a
symbol's ways, a register write's ways, and all that a passing check establishes. -/

namespace Sys2Proof.Machine

/-- A header ends in a reset or in the start of a payload. -/
theorem headerDone_cases (s : State) :
    headerDone s = doReset true { s with draws := (frameDecode 6 s.cfg.hdrFi s.cfg.hdrFo s).2.2 } ∨
      ∃ sch h, parseHeader s.cfg.maxPayload (frameDecode 6 s.cfg.hdrFi s.cfg.hdrFo s).1 = some (sch, h) ∧
        headerDone s = startPayload sch h { s with draws := (frameDecode 6 s.cfg.hdrFi s.cfg.hdrFo s).2.2 } := by
  unfold headerDone
  dsimp only
  split
  · exact .inl rfl
  · next sch h hp =>
    refine .inr ⟨sch, h, ?_, rfl⟩
    split at hp
    · exact hp
    · cases hp

/-- Everything a symbol can do. -/
theorem symbol_cases (y : C) (s : State) :
    (s.fsm.phase = .seek ∧ (detPush s.cfg s.thresh y s.det).2 = none ∧
        symbol y s = { s with det := (detPush s.cfg s.thresh y s.det).1 }) ∨
      (∃ d, s.fsm.phase = .seek ∧ (detPush s.cfg s.thresh y s.det).2 = some d ∧
        symbol y s = detect d { s with det := (detPush s.cfg s.thresh y s.det).1 }) ∨
      (s.fsm.phase = .header ∧ s.fsm.cnt + 1 = s.fsm.hdrSyms ∧ symbol y s = headerDone (takeSymbol y s)) ∨
      (s.fsm.phase = .header ∧ s.fsm.cnt + 1 ≠ s.fsm.hdrSyms ∧ symbol y s = takeSymbol y s) ∨
      (s.fsm.phase = .payload ∧ s.fsm.cnt + 1 = s.fsm.paySyms ∧ symbol y s = payloadDone (takeSymbol y s)) ∨
      (s.fsm.phase = .payload ∧ s.fsm.cnt + 1 ≠ s.fsm.paySyms ∧ symbol y s = takeSymbol y s) ∨
      (s.fsm.phase = .reset ∧ symbol y s = doReset false s) := by
  unfold symbol
  cases hp : s.fsm.phase with
  | seek =>
    unfold seekSymbol
    dsimp only
    cases hd : (detPush s.cfg s.thresh y s.det).2 with
    | none => simp
    | some d => simp
  | header =>
    by_cases h : s.fsm.cnt + 1 = s.fsm.hdrSyms
    · have h2 : (takeSymbol y s).fsm.cnt = (takeSymbol y s).fsm.hdrSyms := h
      simp [h, h2]
    · have h2 : ¬ (takeSymbol y s).fsm.cnt = (takeSymbol y s).fsm.hdrSyms := h
      simp [h, h2]
  | payload =>
    by_cases h : s.fsm.cnt + 1 = s.fsm.paySyms
    · have h2 : (takeSymbol y s).fsm.cnt = (takeSymbol y s).fsm.paySyms := h
      simp [h, h2]
    · have h2 : ¬ (takeSymbol y s).fsm.cnt = (takeSymbol y s).fsm.paySyms := h
      simp [h, h2]
  | reset => simp

theorem words_get_set (w : CfgWords) (v : Word) (r q : CfgReg) : (w.set v r).get q = if q = r then v else w.get q := by
  cases r <;> cases q <;> rfl

/-- All that a passing configuration check establishes. -/
theorem checkConfig_ok {w : CfgWords} {m : Cells C} {cfg : Cfg} {ref : List C}
    (h : checkConfig w m = .ok (cfg, ref)) :
    w.nPre ≠ 0 ∧ paramsOk w = true ∧ normaliseRef (rawReference w m) = some ref ∧
      ∃ sch fi fo, Scheme.ofId w.hdrMod.toNat = some sch ∧ headerFec w.hdrFec = some (fi, fo) ∧
        cfg = decodeCfg w sch fi fo := by
  unfold checkConfig at h
  split at h
  · cases h
  · next h0 =>
    split at h
    · cases h
    · next hp =>
      split at h
      · cases h
      · next ref' hn =>
        split at h
        · cases h
        · next sch hs =>
          split at h
          · cases h
          · next fi fo hf =>
            cases h
            exact ⟨h0, by simpa using hp, hn, sch, fi, fo, hs, hf, rfl⟩

/-! ### Lengths -/

theorem length_chunks {α : Type} (k n : Nat) (l : List α) : (chunks k n l).length = n := by
  induction n generalizing l with
  | zero => rfl
  | succ n ih => simp [chunks, ih]

theorem length_bytesOfBits (n : Nat) (b : List Bool) : (bytesOfBits n b).length = n := by
  simp [bytesOfBits, length_chunks]

theorem length_chainDecode (n : Nat) (fi fo : Fec) (D1 D2 : Nat) (v : List Bool) :
    (chainDecode n fi fo D1 D2 v).1.length = n := by
  simp [chainDecode, checkBlock, length_bytesOfBits]

theorem length_genRef (poly init : Word) (n : Nat) : (genRef poly init n).length = n := by
  unfold genRef
  rw [List.length_map]
  generalize polyDegree poly = d
  induction n generalizing init with
  | zero => rfl
  | succ n ih => simp [lfsrBits, ih]

end Sys2Proof.Machine
end

