-- ==== Sys2Proof/Laws/Memory.lean ====
section
/-! SUPPORT. Laws of the memories: every operation keeps the canonical form, and what each leaves to be read. -/

namespace Sys2Proof.Machine

variable {α : Type} [DecidableEq α] {d : α}

@[simp] theorem cellsWf_nil (d : α) (cap lo : Nat) : cellsWf d cap lo [] = true := rfl

theorem cellsWf_cons {cap lo j : Nat} {v : α} {m : Cells α} :
    cellsWf d cap lo ((j, v) :: m) = true ↔ lo ≤ j ∧ j < cap ∧ v ≠ d ∧ cellsWf d cap (j + 1) m = true := by
  simp [cellsWf, and_assoc]

theorem cellsWf_mono {cap lo lo' : Nat} {m : Cells α} (h : cellsWf d cap lo m = true) (hl : lo' ≤ lo) :
    cellsWf d cap lo' m = true := by
  cases m with
  | nil => rfl
  | cons c m =>
    obtain ⟨j, v⟩ := c
    rw [cellsWf_cons] at h ⊢
    exact ⟨by omega, h.2⟩

omit [DecidableEq α] in
@[simp] theorem memRead_nil (d : α) (i : Nat) : memRead d [] i = d := rfl

omit [DecidableEq α] in
theorem memRead_cons (d : α) (j : Nat) (v : α) (m : Cells α) (i : Nat) :
    memRead d ((j, v) :: m) i = if j = i then v else memRead d m i := rfl

/-- Below its lowest index a memory reads as unlisted. -/
theorem memRead_below {cap lo i : Nat} {m : Cells α} (h : cellsWf d cap lo m = true) (hi : i < lo) :
    memRead d m i = d := by
  induction m generalizing lo with
  | nil => rfl
  | cons c m ih =>
    obtain ⟨j, v⟩ := c
    rw [cellsWf_cons] at h
    rw [memRead_cons, if_neg (by omega)]
    exact ih h.2.2.2 (by omega)

theorem cellsWf_consCell {cap lo i : Nat} {v : α} {m : Cells α} (h : cellsWf d cap (i + 1) m = true)
    (hl : lo ≤ i) (hc : i < cap) : cellsWf d cap lo (consCell d i v m) = true := by
  unfold consCell
  split
  · exact cellsWf_mono h (by omega)
  · next hv => exact cellsWf_cons.2 ⟨hl, hc, hv, h⟩

theorem memRead_consCell {cap i : Nat} {v : α} {m : Cells α} (h : cellsWf d cap (i + 1) m = true) (j : Nat) :
    memRead d (consCell d i v m) j = if j = i then v else memRead d m j := by
  unfold consCell
  split
  · next hv =>
    split
    · next hj => rw [hv, hj]; exact memRead_below h (by omega)
    · rfl
  · rw [memRead_cons]; simp only [eq_comm]

/-- `MemWrite` keeps the canonical form. -/
theorem cellsWf_memWrite {cap lo i : Nat} {v : α} {m : Cells α} (h : cellsWf d cap lo m = true) (hl : lo ≤ i)
    (hc : i < cap) : cellsWf d cap lo (memWrite d i v m) = true := by
  induction m generalizing lo with
  | nil => exact cellsWf_consCell rfl hl hc
  | cons c m ih =>
    obtain ⟨j, w⟩ := c
    have h' := cellsWf_cons.1 h
    unfold memWrite
    split
    · exact cellsWf_consCell (cellsWf_cons.2 ⟨by omega, h'.2⟩) hl hc
    · split
      · next hij => subst hij; exact cellsWf_consCell h'.2.2.2 hl hc
      · exact cellsWf_cons.2 ⟨h'.1, h'.2.1, h'.2.2.1, ih h'.2.2.2 (by omega)⟩

/-- What `MemWrite` leaves to be read: the value at its index, every other entry as before. -/
theorem memRead_memWrite {cap lo i : Nat} {v : α} {m : Cells α} (h : cellsWf d cap lo m = true) (j : Nat) :
    memRead d (memWrite d i v m) j = if j = i then v else memRead d m j := by
  induction m generalizing lo with
  | nil => exact memRead_consCell (cap := i + 1) rfl j
  | cons c m ih =>
    obtain ⟨k, w⟩ := c
    have h' := cellsWf_cons.1 h
    unfold memWrite
    split
    · exact memRead_consCell (cap := cap) (cellsWf_cons.2 ⟨by omega, h'.2⟩) j
    · split
      · next hik =>
        subst hik
        rw [memRead_consCell h'.2.2.2, memRead_cons]
        split
        · rfl
        · rw [if_neg (by omega)]
      · rw [memRead_cons, ih h'.2.2.2, memRead_cons]
        split <;> split <;> first | rfl | omega

/-- The part of a memory from an index on. -/
theorem cellsWf_dropWhile {cap lo k : Nat} {m : Cells α} (h : cellsWf d cap lo m = true) :
    cellsWf d cap (max lo k) (m.dropWhile fun c => decide (c.1 < k)) = true := by
  induction m generalizing lo with
  | nil => rfl
  | cons c m ih =>
    obtain ⟨j, v⟩ := c
    have h' := cellsWf_cons.1 h
    rw [List.dropWhile_cons]
    split
    · next hj =>
      simp only [decide_eq_true_eq] at hj
      exact cellsWf_mono (ih h'.2.2.2) (by omega)
    · next hj =>
      simp only [decide_eq_true_eq] at hj
      exact cellsWf_cons.2 ⟨by omega, h'.2⟩

omit [DecidableEq α] in
theorem memRead_dropWhile {m : Cells α} {k i : Nat} (h : k ≤ i) :
    memRead d (m.dropWhile fun c => decide (c.1 < k)) i = memRead d m i := by
  induction m with
  | nil => rfl
  | cons c m ih =>
    obtain ⟨j, v⟩ := c
    rw [List.dropWhile_cons]
    split
    · next hj =>
      simp only [decide_eq_true_eq] at hj
      rw [ih, memRead_cons, if_neg (by omega)]
    · rfl

theorem memWalk_eq {cap lo n : Nat} {m : Cells α} (h : cellsWf d cap lo m = true) :
    memWalk d lo n m = (List.range' lo n).map (memRead d m) := by
  induction n generalizing lo m with
  | zero => cases m <;> rfl
  | succ n ih =>
    cases m with
    | nil =>
      unfold memWalk
      rw [ih (lo := lo + 1) (m := []) rfl, List.range'_succ, List.map_cons, memRead_nil]
    | cons c m =>
      obtain ⟨j, v⟩ := c
      have h' := cellsWf_cons.1 h
      unfold memWalk
      rw [List.range'_succ, List.map_cons, memRead_cons]
      split
      · next hj =>
        subst hj
        rw [ih h'.2.2.2]
        refine congrArg _ (List.map_congr_left fun i hi => ?_)
        rw [List.mem_range'_1] at hi
        rw [memRead_cons, if_neg (by omega)]
      · next hj =>
        rw [memRead_below h'.2.2.2 (by omega), ih (m := (j, v) :: m) (cellsWf_cons.2 ⟨by omega, h'.2⟩)]

/-- Entries `lo` to `lo + n - 1`, one read each. -/
theorem memSlice_eq {cap lo n : Nat} {m : Cells α} (h : cellsWf d cap 0 m = true) :
    memSlice d m lo n = (List.range' lo n).map (memRead d m) := by
  unfold memSlice
  rw [memWalk_eq (cellsWf_mono (cellsWf_dropWhile h) (by omega : lo ≤ max 0 lo))]
  refine List.map_congr_left fun i hi => ?_
  rw [List.mem_range'_1] at hi
  exact memRead_dropWhile hi.1

omit [DecidableEq α] in
theorem length_memWalk (lo n : Nat) (m : Cells α) : (memWalk d lo n m).length = n := by
  induction n generalizing lo m with
  | zero => cases m <;> rfl
  | succ n ih =>
    cases m with
    | nil => simp [memWalk, ih]
    | cons c m => obtain ⟨j, v⟩ := c; unfold memWalk; split <;> simp [ih]

omit [DecidableEq α] in
@[simp] theorem length_memSlice (m : Cells α) (lo n : Nat) : (memSlice d m lo n).length = n := length_memWalk _ _ _

theorem cellsWf_memOfList {cap lo : Nat} {l : List α} {rest : Cells α}
    (h : cellsWf d cap (lo + l.length) rest = true) (hc : lo + l.length ≤ cap) :
    cellsWf d cap lo (memOfList d lo l rest) = true := by
  induction l generalizing lo with
  | nil => exact h
  | cons v l ih =>
    rw [List.length_cons] at h hc
    exact cellsWf_consCell (ih (by rwa [Nat.add_right_comm]) (by omega)) (Nat.le_refl _) (by omega)

theorem memRead_memOfList {cap lo : Nat} {l : List α} {rest : Cells α}
    (h : cellsWf d cap (lo + l.length) rest = true) (hc : lo + l.length ≤ cap) (j : Nat) :
    memRead d (memOfList d lo l rest) j =
      if lo ≤ j ∧ j < lo + l.length then l.getD (j - lo) d else memRead d rest j := by
  induction l generalizing lo with
  | nil => rw [if_neg (by simp only [List.length_nil]; omega)]; rfl
  | cons v l ih =>
    rw [List.length_cons] at h hc ⊢
    have h1 : cellsWf d cap (lo + 1 + l.length) rest = true := by rwa [Nat.add_right_comm]
    show memRead d (consCell d lo v (memOfList d (lo + 1) l rest)) j = _
    rw [memRead_consCell (cellsWf_memOfList h1 (by omega)), ih h1 (by omega)]
    split
    · next hj => subst hj; rw [if_pos (by omega)]; simp
    · split
      · next h2 => rw [if_pos (by omega), show j - lo = (j - (lo + 1)) + 1 by omega]; rfl
      · rw [if_neg (by omega)]

/-- Setting the first entries keeps the canonical form, within the capacity. -/
theorem cellsWf_memSetPrefix {cap : Nat} {l : List α} {m : Cells α} (h : cellsWf d cap 0 m = true)
    (hc : l.length ≤ cap) : cellsWf d cap 0 (memSetPrefix d l m) = true :=
  cellsWf_memOfList (cellsWf_mono (cellsWf_dropWhile h) (by omega)) (by omega)

/-- What setting the first entries leaves to be read. -/
theorem memRead_memSetPrefix {cap : Nat} {l : List α} {m : Cells α} (h : cellsWf d cap 0 m = true)
    (hc : l.length ≤ cap) (j : Nat) :
    memRead d (memSetPrefix d l m) j = if j < l.length then l.getD j d else memRead d m j := by
  unfold memSetPrefix
  rw [memRead_memOfList (cap := cap) (cellsWf_mono (cellsWf_dropWhile h) (by omega)) (by omega)]
  simp only [Nat.zero_le, true_and, Nat.zero_add, Nat.sub_zero]
  split
  · rfl
  · exact memRead_dropWhile (by omega)

/-! ### The coefficient table (R84, R394) -/

/-- Latching coefficient memory makes a table in canonical form. -/
theorem cellsWf_latchTaps {P L cap lo : Nat} {m : Cells R} (hP : P ≤ Config.pMax) (hL : L ≤ Config.lMax)
    (h : cellsWf R.zero cap lo m = true) :
    cellsWf R.zero (Config.pMax * Config.lMax) (lo / L * Config.lMax + lo % L) (latchTaps P L m) = true := by
  unfold latchTaps
  induction m generalizing lo with
  | nil => rfl
  | cons c m ih =>
    obtain ⟨j, v⟩ := c
    have h' := cellsWf_cons.1 h
    rcases Nat.eq_zero_or_pos L with hz | hpos
    · subst hz
      have : ∀ l : Cells R, l.filter (fun c => decide (c.1 < P * 0)) = [] := by intro l; simp
      rw [this]; rfl
    have step : ∀ a b, a < b → a / L * Config.lMax + a % L < b / L * Config.lMax + b % L := by
      intro a b hab
      have h1 := Nat.div_add_mod a L
      have h2 := Nat.div_add_mod b L
      have h3 := Nat.mod_lt a hpos
      rcases Nat.lt_or_ge (a / L) (b / L) with hlt | hge
      · have : (a / L + 1) * Config.lMax ≤ b / L * Config.lMax := Nat.mul_le_mul_right _ hlt
        rw [Nat.add_mul] at this; omega
      · have hq : a / L = b / L := Nat.le_antisymm (Nat.div_le_div_right hab.le) hge
        rw [hq] at h1 ⊢; omega
    rw [List.filter_cons]
    split
    · next hj =>
      simp only [decide_eq_true_eq] at hj
      rw [List.map_cons, cellsWf_cons]
      have hb : j / L < P := (Nat.div_lt_iff_lt_mul hpos).2 hj
      refine ⟨?_, ?_, h'.2.2.1, ?_⟩
      · rcases Nat.eq_or_lt_of_le h'.1 with he | hlt
        · rw [he]
        · exact (step _ _ hlt).le
      · have h3 := Nat.mod_lt j hpos
        have : (j / L + 1) * Config.lMax ≤ Config.pMax * Config.lMax := Nat.mul_le_mul_right _ (by omega)
        rw [Nat.add_mul] at this
        show j / L * Config.lMax + j % L < Config.pMax * Config.lMax
        omega
      · exact cellsWf_mono (ih h'.2.2.2) (step _ _ (Nat.lt_succ_self j))
    · refine cellsWf_mono (ih h'.2.2.2) ?_
      rcases Nat.lt_or_ge lo (j + 1) with hlt | hge
      · exact (step _ _ hlt).le
      · omega

/-- What latching coefficient memory leaves to be read: tap j of branch b is entry `b*L + j`. -/
theorem memRead_latchTaps {P L b j : Nat} {m : Cells R} (hL : L ≤ Config.lMax) (hj : j < Config.lMax) :
    memRead R.zero (latchTaps P L m) (b * Config.lMax + j) =
      if b < P ∧ j < L then memRead R.zero m (b * L + j) else R.zero := by
  unfold latchTaps
  induction m with
  | nil => simp
  | cons c m ih =>
    obtain ⟨i, v⟩ := c
    rw [List.filter_cons]
    split
    · next hi =>
      simp only [decide_eq_true_eq] at hi
      have hpos : 0 < L := by rcases Nat.eq_zero_or_pos L with h | h; · simp [h] at hi
                              · exact h
      rw [List.map_cons, memRead_cons, ih]
      have hm := Nat.mod_lt i hpos
      have hdm := Nat.div_add_mod i L
      have hb : i / L < P := (Nat.div_lt_iff_lt_mul hpos).2 hi
      by_cases hk : i / L * Config.lMax + i % L = b * Config.lMax + j
      · have hl : 0 < Config.lMax := by decide
        have h1 : i / L = b := by
          have h3 := congrArg (· / Config.lMax) hk
          rwa [Nat.mul_comm, Nat.mul_add_div hl, Nat.mul_comm b, Nat.mul_add_div hl, Nat.div_eq_of_lt (show i % L < Config.lMax by omega),
            Nat.div_eq_of_lt hj, Nat.add_zero, Nat.add_zero] at h3
        have h2 : i % L = j := by rw [h1] at hk; omega
        rw [if_pos hk, if_pos ⟨by omega, by omega⟩, memRead_cons, if_pos]
        rw [← h1, ← h2, Nat.mul_comm]; exact hdm.symm
      · rw [if_neg hk]
        split
        · next hbj =>
          rw [memRead_cons, if_neg]
          intro he
          apply hk
          have h1 : i / L = b := by
            rw [he, Nat.mul_comm, Nat.mul_add_div hpos, Nat.div_eq_of_lt hbj.2, Nat.add_zero]
          have h2 : i % L = j := by rw [he, Nat.mul_comm, Nat.mul_add_mod, Nat.mod_eq_of_lt hbj.2]
          rw [h1, h2]
        · rfl
    · next hi =>
      simp only [decide_eq_true_eq] at hi
      rw [ih]
      split
      · next hbj =>
        rw [memRead_cons, if_neg]
        intro he
        apply hi
        rw [he]
        calc b * L + j < b * L + L := by omega
          _ = (b + 1) * L := by rw [Nat.add_mul, Nat.one_mul]
          _ ≤ P * L := Nat.mul_le_mul_right _ hbj.1
      · rfl

end Sys2Proof.Machine
end

