-- ==== Sys2Proof/Laws/Num.lean ====
section
/-! SUPPORT. Laws of the reference instantiation of `R`: rounding is monotone and exact on values of `R`, comparison is
comparison of an integer, and each operation on finite values is one rounding of the exact result. -/

namespace Sys2Proof

/-! ### Words and values -/

theorem toNat_packSign (neg : Bool) {m : Nat} (h : m < 2 ^ 31) :
    (packSign neg m).toNat = neg.toNat * 2 ^ 31 + m := by
  unfold packSign; cases neg <;> simp <;> omega

theorem decR_packSign_num (neg : Bool) (m : Nat) (h : m < 2139095041) : decR (packSign neg m) = .num neg ⟨m, h⟩ := by
  have h1 := toNat_packSign neg (m := m) (by omega)
  have h2 : (packSign neg m).toNat % 2 ^ 31 = m := by omega
  have h3 : decide (2 ^ 31 ≤ (packSign neg m).toNat) = neg := by cases neg <;> simp at h1 ⊢ <;> omega
  unfold decR
  simp only [h2, h3, dif_pos h]

theorem decR_packSign_nan (neg : Bool) (f : Nat) (h : f < 8388607) :
    decR (packSign neg (2139095041 + f)) = .nan neg ⟨f, h⟩ := by
  have h1 := toNat_packSign neg (m := 2139095041 + f) (by omega)
  have h2 : (packSign neg (2139095041 + f)).toNat % 2 ^ 31 = 2139095041 + f := by omega
  have h3 : decide (2 ^ 31 ≤ (packSign neg (2139095041 + f)).toNat) = neg := by
    cases neg <;> simp at h1 ⊢ <;> omega
  unfold decR
  simp only [h2, h3, dif_neg (show ¬ (2139095041 + f < 2139095041) by omega), Nat.add_sub_cancel_left]

/-! ### Rounding -/

theorem rne_le (a b : Nat) : rne a b ≤ a / b + 1 := by dsimp only [rne]; split <;> omega

theorem le_rne (a b : Nat) : a / b ≤ rne a b := by dsimp only [rne]; split <;> omega

theorem rne_mono {a b : Nat} (d : Nat) (h : a ≤ b) : rne a d ≤ rne b d := by
  have hq : a / d ≤ b / d := Nat.div_le_div_right h
  rcases Nat.lt_or_ge (a / d) (b / d) with hlt | hge
  · have h1 := rne_le a d
    have h2 := le_rne b d
    omega
  · have e : a / d = b / d := Nat.le_antisymm hq hge
    have hr : a % d ≤ b % d := by
      have h1 := Nat.div_add_mod a d
      have h2 := Nat.div_add_mod b d
      rw [e] at h1; omega
    unfold rne
    simp only [e, Bool.or_eq_true, decide_eq_true_eq, Bool.and_eq_true, beq_iff_eq]
    split <;> split <;> omega

/-- The exponent shift of `roundUnits`. -/
def unitShift (q : Nat) : Nat := if q < 2 ^ 24 then 0 else q.log2 - 23

theorem roundUnits_eq (num den : Nat) :
    roundUnits num den =
      min (unitShift (num / den) * 2 ^ 23 + rne num (den * 2 ^ unitShift (num / den))) infBits := rfl

theorem unitShift_zero {q : Nat} (h : q < 2 ^ 24) : unitShift q = 0 := if_pos h

theorem unitShift_pos {q : Nat} (h : 2 ^ 24 ≤ q) : 24 ≤ q.log2 ∧ unitShift q = q.log2 - 23 := by
  refine ⟨(Nat.le_log2 (by omega)).2 h, ?_⟩
  unfold unitShift; rw [if_neg (by omega)]

theorem div_unitShift_lt (q : Nat) : q / 2 ^ unitShift q < 2 ^ 24 := by
  rcases Nat.lt_or_ge q (2 ^ 24) with h | h
  · rw [unitShift_zero h]; simpa using h
  · obtain ⟨h1, h2⟩ := unitShift_pos h
    rw [h2, Nat.div_lt_iff_lt_mul (by positivity), ← Nat.pow_add]
    have := @Nat.lt_log2_self q
    rwa [show 24 + (q.log2 - 23) = q.log2 + 1 by omega]

theorem le_div_unitShift {q : Nat} (h : 2 ^ 24 ≤ q) : 2 ^ 23 ≤ q / 2 ^ unitShift q := by
  obtain ⟨h1, h2⟩ := unitShift_pos h
  rw [h2, Nat.le_div_iff_mul_le (by positivity), ← Nat.pow_add, show 23 + (q.log2 - 23) = q.log2 by omega]
  exact Nat.log2_self_le (by omega)

theorem unitShift_mono {a b : Nat} (h : a ≤ b) : unitShift a ≤ unitShift b := by
  rcases Nat.lt_or_ge a (2 ^ 24) with ha | ha
  · rw [unitShift_zero ha]; omega
  · obtain ⟨h1, h2⟩ := unitShift_pos ha
    obtain ⟨h3, h4⟩ := unitShift_pos (ha.trans h)
    have : a.log2 ≤ b.log2 := by
      rw [Nat.le_log2 (by omega)]
      exact (Nat.log2_self_le (by omega)).trans h
    omega

/-- Rounding is monotone. -/
theorem roundUnits_mono {a b : Nat} (d : Nat) (h : a ≤ b) : roundUnits a d ≤ roundUnits b d := by
  rw [roundUnits_eq, roundUnits_eq]
  have hq : a / d ≤ b / d := Nat.div_le_div_right h
  have hs := unitShift_mono hq
  refine min_le_min_right _ ?_
  rcases Nat.lt_or_ge (unitShift (a / d)) (unitShift (b / d)) with hlt | hge
  · have h1 := rne_le a (d * 2 ^ unitShift (a / d))
    rw [← Nat.div_div_eq_div_mul] at h1
    have h2 := div_unitShift_lt (a / d)
    have h3 := le_rne b (d * 2 ^ unitShift (b / d))
    rw [← Nat.div_div_eq_div_mul] at h3
    have h4 : 2 ^ 24 ≤ b / d := by
      by_contra hc
      rw [unitShift_zero (q := b / d) (by omega)] at hlt; omega
    have h5 := le_div_unitShift h4
    have h6 : (unitShift (a / d) + 1) * 2 ^ 23 ≤ unitShift (b / d) * 2 ^ 23 := Nat.mul_le_mul_right _ hlt
    omega
  · rw [Nat.le_antisymm hs hge]
    exact Nat.add_le_add_left (rne_mono _ h) _

theorem rne_mul_self (a : Nat) {d : Nat} (h : 0 < d) : rne (a * d) d = a := by
  unfold rne
  simp [Nat.mul_div_cancel _ h]; omega

/-- A finite pattern is the rounding of its own magnitude. -/
theorem roundUnits_units {m : Nat} (h : m < infBits) : roundUnits (units m) 1 = m := by
  rw [roundUnits_eq, Nat.div_one, Nat.one_mul]
  unfold infBits at *
  unfold units
  split
  · next h0 =>
    have : m < 2 ^ 23 := by omega
    rw [unitShift_zero (by omega)]
    have := rne_mul_self m (d := 1) (by omega)
    simp at *; omega
  · next h0 =>
    obtain ⟨e, f, he, hf, hm⟩ : ∃ e f, m / 2 ^ 23 = e + 1 ∧ m % 2 ^ 23 = f ∧ m = (e + 1) * 2 ^ 23 + f :=
      ⟨m / 2 ^ 23 - 1, m % 2 ^ 23, by omega, rfl, by omega⟩
    have hfl : f < 2 ^ 23 := by omega
    rw [he, hf, Nat.add_sub_cancel]
    have hsh : unitShift ((2 ^ 23 + f) * 2 ^ e) = e := by
      rcases e with _ | e
      · rw [unitShift_zero (by omega)]
      · have h2 : 2 ^ 24 ≤ (2 ^ 23 + f) * 2 ^ (e + 1) := by
          calc 2 ^ 24 = 2 ^ 23 * 2 ^ 1 := by norm_num
            _ ≤ (2 ^ 23 + f) * 2 ^ (e + 1) := Nat.mul_le_mul (by omega) (Nat.pow_le_pow_right (by omega) (by omega))
        obtain ⟨_, h4⟩ := unitShift_pos h2
        rw [h4]
        have : ((2 ^ 23 + f) * 2 ^ (e + 1)).log2 = 23 + (e + 1) := by
          apply (Nat.log2_eq_iff (by positivity)).2
          constructor
          · rw [Nat.pow_add]; exact Nat.mul_le_mul_right _ (by omega)
          · rw [show 23 + (e + 1) + 1 = 24 + (e + 1) by omega, Nat.pow_add 2 24]
            exact Nat.mul_lt_mul_of_pos_right (by omega) (by positivity)
        omega
    rw [hsh, rne_mul_self _ (by positivity)]
    omega

theorem units_lt_units {a b : Nat} (hb : b < infBits) (h : a < b) : units a < units b := by
  by_contra hc
  have := roundUnits_mono 1 (Nat.le_of_not_lt hc)
  rw [roundUnits_units hb, roundUnits_units (by omega)] at this
  omega

theorem units_le_units {a b : Nat} (hb : b < infBits) (h : a ≤ b) : units a ≤ units b := by
  rcases Nat.lt_or_ge a b with h1 | h1
  · exact (units_lt_units hb h1).le
  · rw [show a = b by omega]

theorem roundUnits_le (num den : Nat) : roundUnits num den ≤ infBits := min_le_right _ _

/-! ### Comparison -/

/-- The integer a value that is no NaN orders as. -/
theorem R.ord_num (neg : Bool) (m : Fin 2139095041) :
    (R.num neg m).ord = some (if neg then -(m.val : Int) else m.val) := by
  obtain ⟨m, hm⟩ := m
  rcases m with _ | m <;> cases neg <;> simp [R.ord]

@[simp] theorem R.ord_nan (neg : Bool) (f : Fin 8388607) : (R.nan neg f).ord = none := rfl

theorem R.le_iff (a b : R) : a.le b = true ↔ ∃ x y, a.ord = some x ∧ b.ord = some y ∧ x ≤ y := by
  unfold R.le
  split
  · next x y h1 h2 => simp [h1, h2]
  · next h =>
    simp only [Bool.false_eq_true, false_iff, not_exists, not_and]
    intro x y h1 h2
    exact absurd h2 (h x y h1)

theorem R.lt_iff (a b : R) : a.lt b = true ↔ ∃ x y, a.ord = some x ∧ b.ord = some y ∧ x < y := by
  unfold R.lt
  split
  · next x y h1 h2 => simp [h1, h2]
  · next h =>
    simp only [Bool.false_eq_true, false_iff, not_exists, not_and]
    intro x y h1 h2
    exact absurd h2 (h x y h1)

theorem R.eq_iff (a b : R) : a.eq b = true ↔ ∃ x, a.ord = some x ∧ b.ord = some x := by
  unfold R.eq
  split
  · next x y h1 h2 => simp [h1, h2, eq_comm]
  · next h =>
    simp only [Bool.false_eq_true, false_iff, not_exists, not_and]
    intro x h1 h2
    exact absurd h2 (h x x h1)

/-- The values of an interval, by their integers. -/
theorem R.within_iff (v lo hi : R) :
    v.within lo hi = true ↔ ∃ x l h, v.ord = some x ∧ lo.ord = some l ∧ hi.ord = some h ∧ l ≤ x ∧ x ≤ h := by
  unfold R.within R.ge
  rw [Bool.and_eq_true, R.le_iff, R.le_iff]
  constructor
  · rintro ⟨⟨l, x, h1, h2, h3⟩, x', h, h4, h5, h6⟩
    rw [h2] at h4; cases h4
    exact ⟨x, l, h, h2, h1, h5, h3, h6⟩
  · rintro ⟨x, l, h, h1, h2, h3, h4, h5⟩
    exact ⟨⟨l, x, h2, h1, h4⟩, x, h, h1, h3, h5⟩

theorem R.within_ge {v lo hi : R} (h : v.within lo hi = true) : v.ge lo = true := by
  unfold R.within at h; simp_all

theorem R.within_le {v lo hi : R} (h : v.within lo hi = true) : v.le hi = true := by
  unfold R.within at h; simp_all

/-- A clamp between ordered bounds lies between them. -/
theorem R.clamp_cases (v lo hi : R) : v.clamp lo hi = lo ∨ v.clamp lo hi = hi ∨
    (v.clamp lo hi = v ∧ v.ge lo = true ∧ v.gt hi = false) := by
  unfold R.clamp
  split
  · exact .inl rfl
  · split
    · exact .inr (.inl rfl)
    · next h1 h2 => exact .inr (.inr ⟨rfl, by simpa using h1, by simpa using h2⟩)

/-! ### Operations on finite values -/

/-- The exact value of a finite pattern with a sign, in units of 2^-149. -/
def signedUnits (neg : Bool) (m : Nat) : Int := if neg then -(units m : Int) else units m

/-- The value nearest an integer number of units, as an ordered integer. -/
def roundInt (z : Int) : Int := if z < 0 then -(roundUnits z.natAbs 1 : Int) else roundUnits z.natAbs 1

theorem roundInt_mono {a b : Int} (h : a ≤ b) : roundInt a ≤ roundInt b := by
  unfold roundInt
  have hz := roundUnits_mono 1 (Nat.zero_le (b.natAbs))
  split <;> split
  · have := roundUnits_mono 1 (show b.natAbs ≤ a.natAbs by omega); omega
  · omega
  · omega
  · have := roundUnits_mono 1 (show a.natAbs ≤ b.natAbs by omega); omega

theorem roundUnits_zero : roundUnits 0 1 = 0 := by decide +kernel

theorem roundInt_signedUnits {neg : Bool} {m : Nat} (h : m < infBits) :
    roundInt (signedUnits neg m) = if neg then -(m : Int) else m := by
  have hu := roundUnits_units h
  unfold roundInt signedUnits
  cases neg
  · simp only [Bool.false_eq_true, if_false, Int.natAbs_natCast, hu]
    rw [if_neg (by omega)]
  · simp only [if_true, Int.natAbs_neg, Int.natAbs_natCast, hu]
    split
    · rfl
    · have h0 : units m = 0 := by omega
      rw [h0, roundUnits_zero] at hu
      omega

theorem R.ord_round (neg : Bool) (a d : Nat) :
    (R.round neg a d).ord = some (if neg then -(roundUnits a d : Int) else roundUnits a d) := by
  unfold R.round R.mk
  rw [R.ord_num]
  simp [Nat.min_eq_left (roundUnits_le a d)]

theorem roundInt_natCast (n : Nat) : roundInt n = roundUnits n 1 := by
  unfold roundInt; rw [if_neg (by omega), Int.natAbs_natCast]

theorem roundInt_neg (z : Int) : roundInt (-z) = -roundInt z := by
  unfold roundInt
  rw [Int.natAbs_neg]
  rcases Int.lt_trichotomy z 0 with h | h | h
  · rw [if_neg (by omega), if_pos h, Int.neg_neg]
  · subst h; simp [roundUnits_zero]
  · rw [if_pos (by omega), if_neg (by omega)]

/-- The sum of two finite values orders as the rounding of the exact sum. -/
theorem R.ord_addNum (nanAs : R) (na nb : Bool) (ma mb : Nat) (ha : ma < infBits) (hb : mb < infBits) :
    (addNum nanAs na ma nb mb).ord = some (roundInt (signedUnits na ma + signedUnits nb mb)) := by
  have key : ∀ (n : Bool) (u : Nat) (z : Int), z = (if n then -(u : Int) else u) →
      (R.round n u 1).ord = some (roundInt z) := by
    intro n u z hz
    rw [R.ord_round, hz]
    cases n <;> simp [roundInt_natCast, roundInt_neg]
  unfold addNum
  rw [if_neg (by omega), if_neg (by omega)]
  dsimp only
  split
  · next h => subst h; apply key; cases na <;> simp [signedUnits]; omega
  · next h =>
    have hn : nb = !na := by cases na <;> cases nb <;> simp_all
    subst hn
    split
    · next h1 => apply key; cases na <;> simp [signedUnits] <;> omega
    · split
      · next h1 h2 => apply key; cases na <;> simp [signedUnits] <;> omega
      · next h1 h2 =>
        have e : signedUnits na ma + signedUnits (!na) mb = ((0 : Nat) : Int) := by
          cases na <;> simp [signedUnits] <;> omega
        rw [e, roundInt_natCast, roundUnits_zero]; rfl

theorem R.ord_add (na nb : Bool) (ma mb : Fin 2139095041) (ha : ma.val < infBits) (hb : mb.val < infBits) :
    ((R.num na ma).add (.num nb mb)).ord = some (roundInt (signedUnits na ma + signedUnits nb mb)) :=
  R.ord_addNum _ _ _ _ _ ha hb

theorem R.ord_sub (na nb : Bool) (ma mb : Fin 2139095041) (ha : ma.val < infBits) (hb : mb.val < infBits) :
    ((R.num na ma).sub (.num nb mb)).ord = some (roundInt (signedUnits na ma - signedUnits nb mb)) := by
  have := R.ord_addNum (R.freeNan .sub (.num na ma) (.num nb mb)) na (!nb) ma mb ha hb
  have e : signedUnits (!nb) mb = -signedUnits nb mb := by cases nb <;> simp [signedUnits]
  rw [e, ← Int.sub_eq_add_neg] at this
  exact this

/-- The product of two finite values. -/
theorem R.mul_num (na nb : Bool) (ma mb : Fin 2139095041) (ha : ma.val < infBits) (hb : mb.val < infBits) :
    (R.num na ma).mul (.num nb mb) = R.round (na != nb) (units ma * units mb) (2 ^ 149) := by
  unfold R.mul
  simp [show ma.val ≠ infBits by omega, show mb.val ≠ infBits by omega]

/-- The quotient of a finite value by a finite value that is no zero. -/
theorem R.div_num (na nb : Bool) (ma mb : Fin 2139095041) (ha : ma.val < infBits) (hb : mb.val < infBits)
    (h0 : mb.val ≠ 0) :
    (R.num na ma).div (.num nb mb) = R.round (na != nb) (units ma * 2 ^ 149) (units mb) := by
  unfold R.div
  simp [show ma.val ≠ infBits by omega, show mb.val ≠ infBits by omega, h0]

end Sys2Proof
end

