-- ==== Sys2Proof/Laws/PerInstr.lean ====
section
/-! SUPPORT. A statement about every command as syntax, one lemma per constructor: the top byte of its word is its
opcode of R116, and the reserved bits of its immediate are zero (R113). -/

namespace Sys2Proof.Laws.OpcodeByte

/-- The opcode byte that R116 gives a command. -/
def opcode : Instr → Nat
  | .nop _ => 0x00
  | .resetBlock _ => 0x01
  | .configure _ => 0x02
  | .regRead _ _ => 0x03
  | .regWrite _ _ => 0x04
  | .preWrite _ _ => 0x05
  | .coefWrite _ _ => 0x06
  | .execute _ _ => 0x10
  | .resetStats _ => 0x11
  | .getStats _ => 0x12
  | .getThreshold _ => 0x13
  | .setThreshold _ => 0x14
  | .oscMixDown _ => 0x20
  | .oscMixUp _ => 0x21
  | .oscCexp _ => 0x22
  | .oscStep _ => 0x23
  | .oscAdjPhase _ => 0x24
  | .oscAdjFreq _ => 0x25
  | .pllSetBw _ => 0x28
  | .pllStep _ => 0x29
  | .agcSetBw _ => 0x30
  | .agcExecute _ => 0x31
  | .agcSeed _ => 0x32
  | .ssSetBw _ => 0x38
  | .ssExecute _ _ => 0x39
  | .detPush _ => 0x40
  | .detReset _ => 0x41
  | .demSetScheme _ _ => 0x48
  | .demDemod _ => 0x49
  | .dilDeinterleave _ _ => 0x50
  | .fecDecode _ _ => 0x51
  | .crcCheck _ => 0x52
  | .decDecode _ _ _ => 0x53

def Statement (i : Instr) : Prop :=
  ((encode i).cmd.extractLsb' 24 8).toNat = opcode i ∧
    ((encode i).cmd.extractLsb' 0 24).toNat < 2 ^ i.op.immBits

/-- The immediate part, for every command. -/
theorem statement_of (i : Instr) (h : i.op.code.toNat = opcode i) : Statement i := by
  refine ⟨?_, ?_⟩
  · show (BitVec.extractLsb' 24 8 (i.op.code ++ i.imm : Word)).toNat = _
    rw [word_opcode, h]
  · show (BitVec.extractLsb' 0 24 (i.op.code ++ i.imm : Word)).toNat < _
    rw [word_imm]
    exact imm_fits i

theorem nop (ws : List Word) : Statement (.nop ws) := statement_of _ rfl
theorem resetBlock (ws : List Word) : Statement (.resetBlock ws) := statement_of _ rfl
theorem configure (ws : List Word) : Statement (.configure ws) := statement_of _ rfl
theorem regRead (a : BitVec 8) (ws : List Word) : Statement (.regRead a ws) := statement_of _ rfl
theorem regWrite (a : BitVec 8) (ws : List Word) : Statement (.regWrite a ws) := statement_of _ rfl
theorem preWrite (x : BitVec 10) (ws : List Word) : Statement (.preWrite x ws) := statement_of _ rfl
theorem coefWrite (x : BitVec 15) (ws : List Word) : Statement (.coefWrite x ws) := statement_of _ rfl
theorem execute (n : BitVec 24) (ws : List Word) : Statement (.execute n ws) := statement_of _ rfl
theorem resetStats (ws : List Word) : Statement (.resetStats ws) := statement_of _ rfl
theorem getStats (ws : List Word) : Statement (.getStats ws) := statement_of _ rfl
theorem getThreshold (ws : List Word) : Statement (.getThreshold ws) := statement_of _ rfl
theorem setThreshold (ws : List Word) : Statement (.setThreshold ws) := statement_of _ rfl
theorem oscMixDown (ws : List Word) : Statement (.oscMixDown ws) := statement_of _ rfl
theorem oscMixUp (ws : List Word) : Statement (.oscMixUp ws) := statement_of _ rfl
theorem oscCexp (ws : List Word) : Statement (.oscCexp ws) := statement_of _ rfl
theorem oscStep (ws : List Word) : Statement (.oscStep ws) := statement_of _ rfl
theorem oscAdjPhase (ws : List Word) : Statement (.oscAdjPhase ws) := statement_of _ rfl
theorem oscAdjFreq (ws : List Word) : Statement (.oscAdjFreq ws) := statement_of _ rfl
theorem pllSetBw (ws : List Word) : Statement (.pllSetBw ws) := statement_of _ rfl
theorem pllStep (ws : List Word) : Statement (.pllStep ws) := statement_of _ rfl
theorem agcSetBw (ws : List Word) : Statement (.agcSetBw ws) := statement_of _ rfl
theorem agcExecute (ws : List Word) : Statement (.agcExecute ws) := statement_of _ rfl
theorem agcSeed (ws : List Word) : Statement (.agcSeed ws) := statement_of _ rfl
theorem ssSetBw (ws : List Word) : Statement (.ssSetBw ws) := statement_of _ rfl
theorem ssExecute (n : BitVec 24) (ws : List Word) : Statement (.ssExecute n ws) := statement_of _ rfl
theorem detPush (ws : List Word) : Statement (.detPush ws) := statement_of _ rfl
theorem detReset (ws : List Word) : Statement (.detReset ws) := statement_of _ rfl
theorem demSetScheme (x : BitVec 8) (ws : List Word) : Statement (.demSetScheme x ws) := statement_of _ rfl
theorem demDemod (ws : List Word) : Statement (.demDemod ws) := statement_of _ rfl
theorem dilDeinterleave (x : BitVec 24) (ws : List Word) : Statement (.dilDeinterleave x ws) := statement_of _ rfl
theorem fecDecode (x : BitVec 8) (ws : List Word) : Statement (.fecDecode x ws) := statement_of _ rfl
theorem crcCheck (ws : List Word) : Statement (.crcCheck ws) := statement_of _ rfl
theorem decDecode (fi : BitVec 8) (fo : BitVec 8) (ws : List Word) : Statement (.decDecode fi fo ws) := statement_of _ rfl

end Sys2Proof.Laws.OpcodeByte
end

