-- ==== Sys2Proof/Laws/Pipeline.lean ====
section
/-! SUPPORT. What the sample pipeline leaves alone: the ports but the frame port, the registers, the memories, the
latched configuration, and everything else that only a command writes. -/

namespace Sys2Proof.Machine

/-- `t` comes from `s` by work of the pipeline: what no sample writes is as it was, and records were only added. -/
structure Streamed (s t : State) : Prop where
  cmds : t.cmds = s.cmds
  resp : t.resp = s.resp
  frames : ∃ recs, t.frames = s.frames ++ recs
  words : t.words = s.words
  cfg : t.cfg = s.cfg
  preMem : t.preMem = s.preMem
  coefMem : t.coefMem = s.coefMem
  configured : t.configured = s.configured
  err : t.err = s.err
  thresh : t.thresh = s.thresh
  hdrSyms : t.fsm.hdrSyms = s.fsm.hdrSyms
  table : t.ss.H = s.ss.H
  ref : t.det.ref = s.det.ref

theorem Streamed.refl (s : State) : Streamed s s :=
  ⟨rfl, rfl, ⟨[], by simp⟩, rfl, rfl, rfl, rfl, rfl, rfl, rfl, rfl, rfl, rfl⟩

theorem Streamed.trans {s t u : State} (h1 : Streamed s t) (h2 : Streamed t u) : Streamed s u := by
  obtain ⟨r1, e1⟩ := h1.frames
  obtain ⟨r2, e2⟩ := h2.frames
  exact
    { cmds := h2.cmds.trans h1.cmds, resp := h2.resp.trans h1.resp
      frames := ⟨r1 ++ r2, by rw [e2, e1, List.append_assoc]⟩
      words := h2.words.trans h1.words, cfg := h2.cfg.trans h1.cfg, preMem := h2.preMem.trans h1.preMem
      coefMem := h2.coefMem.trans h1.coefMem, configured := h2.configured.trans h1.configured
      err := h2.err.trans h1.err, thresh := h2.thresh.trans h1.thresh, hdrSyms := h2.hdrSyms.trans h1.hdrSyms
      table := h2.table.trans h1.table, ref := h2.ref.trans h1.ref }

/-- An update that keeps each field, the frame port included. -/
theorem Streamed.of_same {s t : State} (cmds : t.cmds = s.cmds) (resp : t.resp = s.resp)
    (frames : t.frames = s.frames) (words : t.words = s.words) (cfg : t.cfg = s.cfg) (preMem : t.preMem = s.preMem)
    (coefMem : t.coefMem = s.coefMem) (configured : t.configured = s.configured) (err : t.err = s.err)
    (thresh : t.thresh = s.thresh) (hdrSyms : t.fsm.hdrSyms = s.fsm.hdrSyms) (table : t.ss.H = s.ss.H)
    (ref : t.det.ref = s.det.ref) : Streamed s t :=
  ⟨cmds, resp, ⟨[], by simp [frames]⟩, words, cfg, preMem, coefMem, configured, err, thresh, hdrSyms, table, ref⟩

theorem setNarrow_streamed (s : State) : Streamed s (setNarrow s) := by
  apply Streamed.of_same <;> rfl

theorem doReset_streamed (b : Bool) (s : State) : Streamed s (doReset b s) := by
  apply Streamed.of_same <;> rfl

theorem detect_streamed (d : Detection) (s : State) : Streamed s (detect d s) := by
  unfold detect
  dsimp only
  split
  · apply Streamed.of_same <;> rfl
  · apply Streamed.of_same <;> rfl

theorem startPayload_streamed (sch : Scheme) (h : Header) (s : State) : Streamed s (startPayload sch h s) := by
  unfold startPayload
  dsimp only
  split
  · apply Streamed.of_same <;> rfl
  · apply Streamed.of_same <;> rfl

theorem headerDone_streamed (s : State) : Streamed s (headerDone s) := by
  unfold headerDone
  dsimp only
  have h : Streamed s { s with draws := (frameDecode 6 s.cfg.hdrFi s.cfg.hdrFo s).2.2 } := by
    apply Streamed.of_same <;> rfl
  split
  · exact h.trans (doReset_streamed _ _)
  · exact h.trans (startPayload_streamed _ _ _)

theorem payloadDone_streamed (s : State) : Streamed s (payloadDone s) := by
  unfold payloadDone
  dsimp only
  refine Streamed.trans ?_ (doReset_streamed _ _)
  exact ⟨rfl, rfl, ⟨_, rfl⟩, rfl, rfl, rfl, rfl, rfl, rfl, rfl, rfl, rfl, rfl⟩

theorem takeSymbol_streamed (y : C) (s : State) : Streamed s (takeSymbol y s) := by
  apply Streamed.of_same <;> rfl

@[simp] theorem detPush_ref (cfg : Cfg) (thresh : R) (y : C) (d : Detector) :
    (detPush cfg thresh y d).1.ref = d.ref := rfl

theorem seekSymbol_streamed (y : C) (s : State) : Streamed s (seekSymbol y s) := by
  unfold seekSymbol
  dsimp only
  have h : Streamed s { s with det := (detPush s.cfg s.thresh y s.det).1 } := by
    apply Streamed.of_same <;> rfl
  split
  · exact h
  · exact h.trans (detect_streamed _ _)

theorem symbol_streamed (y : C) (s : State) : Streamed s (symbol y s) := by
  unfold symbol
  split
  · exact seekSymbol_streamed y s
  · dsimp only
    split
    · exact (takeSymbol_streamed y s).trans (headerDone_streamed _)
    · exact takeSymbol_streamed y s
  · dsimp only
    split
    · exact (takeSymbol_streamed y s).trans (payloadDone_streamed _)
    · exact takeSymbol_streamed y s
  · exact doReset_streamed _ _

theorem foldl_symbol_streamed (ys : List C) (s : State) : Streamed s (ys.foldl (fun s y => symbol y s) s) := by
  induction ys generalizing s with
  | nil => exact .refl s
  | cons y ys ih => exact (symbol_streamed y s).trans (ih _)

/-! ### The symbol synchroniser -/

/-- The loop of `ss_push` writes the timing state alone. -/
theorem ssLoop_keeps (cfg : Cfg) (n : Nat) (u : SymSync) (out : List C) :
    (ssLoop cfg n u out).1.H = u.H ∧ (ssLoop cfg n u out).1.bw = u.bw ∧ (ssLoop cfg n u out).1.buf = u.buf := by
  induction n generalizing u out with
  | zero => exact ⟨rfl, rfl, rfl⟩
  | succ n ih =>
    unfold ssLoop
    split
    · have h := ih (ssTurn cfg u).1 (out ++ (ssTurn cfg u).2)
      have h2 : (ssTurn cfg u).1.H = u.H ∧ (ssTurn cfg u).1.bw = u.bw ∧ (ssTurn cfg u).1.buf = u.buf := by
        unfold ssTurn
        dsimp only
        split <;> exact ⟨rfl, rfl, rfl⟩
      exact ⟨h.1.trans h2.1, h.2.1.trans h2.2.1, h.2.2.trans h2.2.2⟩
    · exact ⟨rfl, rfl, rfl⟩

@[simp] theorem ssPush_H (cfg : Cfg) (x : C) (u : SymSync) : (ssPush cfg x u).1.H = u.H :=
  (ssLoop_keeps cfg ssFuel (ssShift cfg x u) []).1

@[simp] theorem ssPush_bw (cfg : Cfg) (x : C) (u : SymSync) : (ssPush cfg x u).1.bw = u.bw :=
  (ssLoop_keeps cfg ssFuel (ssShift cfg x u) []).2.1

theorem ssPush_buf (cfg : Cfg) (x : C) (u : SymSync) :
    (ssPush cfg x u).1.buf = memSetPrefix C.zero ((x :: ssLine cfg u).take cfg.L) u.buf :=
  (ssLoop_keeps cfg ssFuel (ssShift cfg x u) []).2.2

/-! ### Samples -/

theorem frontEnd_streamed (x : C) (s : State) : Streamed s (frontEnd x s).1 := by
  apply Streamed.of_same <;> rfl

theorem sample_streamed (x : C) (s : State) : Streamed s (sample x s) := by
  unfold sample
  dsimp only
  refine Streamed.trans ?_ (foldl_symbol_streamed _ _)
  refine (frontEnd_streamed x s).trans ?_
  apply Streamed.of_same <;> first | rfl | exact ssPush_H _ _ _

theorem runSamples_streamed (xs : List C) (s : State) : Streamed s (runSamples xs s) := by
  unfold runSamples
  induction xs generalizing s with
  | nil => exact .refl s
  | cons x xs ih => exact (sample_streamed x s).trans (ih _)

end Sys2Proof.Machine
end

