-- ==== Sys2Proof/Machine/Assembler.lean ====
section
/-! DEFINITION. The pseudo-commands of the assembler (30_encoding.md R122) and the mnemonics of R116. The block sees
only the expansions. -/

namespace Sys2Proof.Machine

/-- The mnemonic of an operation (R116). -/
def mnemonic : Op → String
  | .nop => "NOP" | .resetBlock => "RESET_BLOCK" | .configure => "CONFIGURE" | .regRead => "REG_READ"
  | .regWrite => "REG_WRITE" | .preWrite => "PRE_WRITE" | .coefWrite => "COEF_WRITE" | .execute => "EXECUTE"
  | .resetStats => "RESET_STATS" | .getStats => "GET_STATS" | .getThreshold => "GET_THRESHOLD"
  | .setThreshold => "SET_THRESHOLD" | .oscMixDown => "OSC_MIX_DOWN" | .oscMixUp => "OSC_MIX_UP"
  | .oscCexp => "OSC_CEXP" | .oscStep => "OSC_STEP" | .oscAdjPhase => "OSC_ADJ_PHASE"
  | .oscAdjFreq => "OSC_ADJ_FREQ" | .pllSetBw => "PLL_SET_BW" | .pllStep => "PLL_STEP"
  | .agcSetBw => "AGC_SET_BW" | .agcExecute => "AGC_EXECUTE" | .agcSeed => "AGC_SEED"
  | .ssSetBw => "SS_SET_BW" | .ssExecute => "SS_EXECUTE" | .detPush => "DET_PUSH" | .detReset => "DET_RESET"
  | .demSetScheme => "DEM_SET_SCHEME" | .demDemod => "DEM_DEMOD" | .dilDeinterleave => "DIL_DEINTERLEAVE"
  | .fecDecode => "FEC_DECODE" | .crcCheck => "CRC_CHECK" | .decDecode => "DEC_DECODE"

/-- The pseudo-commands (R122). -/
inductive Pseudo where
  | regWriteR (addr : BitVec 8) (x : R)
  | clearErr
  | preLoad (zs : List C)
  | coefLoad (cs : List R)
  | readStatus
  | setWide
  | setNarrow
deriving DecidableEq, Repr

/-- The expansion of a pseudo-command (R122). SET_WIDE and SET_NARROW expand with the values the assembler is told:
the wide and narrow bandwidths of `cfg`. No word stands for an index above a memory's field (R113), and R122 does not say
what a longer load gives: here the index wraps, so that PRE_LOAD starts again at entry 0 after 1024 values and COEF_LOAD
after 32768 (DESIGN CHOICE, log 19). -/
def expand (cfg : Cfg) : Pseudo → List Instr
  | .regWriteR addr x => [.regWrite addr [encR x]]
  | .clearErr => [.regWrite 0x01 [0]]
  | .preLoad zs => zs.zipIdx.map fun p => .preWrite (BitVec.ofNat 10 p.2) (encC p.1)
  | .coefLoad cs => cs.zipIdx.map fun p => .coefWrite (BitVec.ofNat 15 p.2) [encR p.1]
  | .readStatus => [.regRead 0x00 []]
  | .setWide => [.agcSetBw [encR cfg.agcBwW], .pllSetBw [encR cfg.pllBwW], .ssSetBw [encR cfg.ssBwW]]
  | .setNarrow => [.agcSetBw [encR cfg.agcBwN], .pllSetBw [encR cfg.pllBwN], .ssSetBw [encR cfg.ssBwN]]

end Sys2Proof.Machine
end

