-- ==== Sys2Proof/Tests/Slice0.lean ====
section
/-! SUPPORT. The author's own tests. Expected results come from the examples of the rules named in each section's
comment, never from the model. The last part shows, for each obligation with hypotheses, values that meet them. -/

namespace Sys2Proof.Tests

-- The tests' kernel evaluations run one after another: side by side each would hold a thread of its own.
set_option Elab.async false

open Sys2Proof Sys2Proof.Machine

/-- The state after a command. -/
def after (i : Instr) (s : State) : State :=
  match exec i s with
  | .next t => t
  | _ => s

/-- The response words of a command. -/
def answer (i : Instr) (s : State) : List Word := ((after i s).resp.getLast?).getD []

/-- The code a command fails with, from a state whose ERR is clear. -/
def code (i : Instr) (s : State) : ErrCode := (after i s).err.last

/-- A block as CONFIGURE leaves it, but for the reference. -/
def ready : State := { State.reset with configured := true }

/-- The reset state with the oscillator at a phase and a frequency. -/
def osc (theta omega : Word) : State := { State.reset with nco := { theta := theta, omega := omega, omegaSeek := 0 } }

/-! ### WellFormed (R112, R117): an ill-formed term for each check, and the well-formed ones beside it -/

theorem test_wf_refuses_fixed_count_zero : (Instr.nop [0]).wellFormed = false := by decide
theorem test_wf_refuses_fixed_count_one : (Instr.regWrite 0x20 []).wellFormed = false := by decide
theorem test_wf_refuses_fixed_count_two : (Instr.oscMixDown [0]).wellFormed = false := by decide
theorem test_wf_refuses_sample_count :
    (Instr.execute 2 [0, 0, 0]).wellFormed = false ∧ (Instr.ssExecute 1 []).wellFormed = false := by decide
theorem test_wf_refuses_absent_leading_operand :
    (Instr.dilDeinterleave 1 []).wellFormed = false ∧ (Instr.fecDecode 0 []).wellFormed = false ∧
      (Instr.crcCheck []).wellFormed = false ∧ (Instr.decDecode 0 0 [1, 0x801]).wellFormed = false := by decide
theorem test_wf_refuses_leading_count_above_bound :
    (Instr.fecDecode 0 (295201 :: List.replicate 9226 0)).wellFormed = false ∧
      (Instr.crcCheck (4097 :: List.replicate 1026 0)).wellFormed = false ∧
      (Instr.decDecode 0 0 (1 :: 0x801 :: 295201 :: List.replicate 9226 0)).wellFormed = false := by decide +kernel
theorem test_wf_refuses_total_count :
    (Instr.dilDeinterleave 3 [33, 0]).wellFormed = false ∧ (Instr.crcCheck [1, 0]).wellFormed = false ∧
      (Instr.decDecode 0 0 [1, 0x801, 40, 0]).wellFormed = false := by decide
theorem test_wf_accepts :
    (Instr.nop []).wellFormed = true ∧ (Instr.execute 1 [0, 0]).wellFormed = true ∧
      (Instr.dilDeinterleave 3 [33, 0, 0]).wellFormed = true ∧ (Instr.crcCheck [1, 0, 0]).wellFormed = true ∧
      (Instr.decDecode 0 0 [1, 0x801, 40, 0, 0]).wellFormed = true := by decide

/-! ### Decoding: a word of each command, written from the tables of R113 and R116, field by field in binary -/

theorem test_decode_administration :
    decode ⟨0b00000000000000000000000000000000, []⟩ = .ok (.nop []) ∧
      decode ⟨0b00000001000000000000000000000000, []⟩ = .ok (.resetBlock []) ∧
      decode ⟨0b00000010000000000000000000000000, []⟩ = .ok (.configure []) := by decide
theorem test_decode_registers :
    decode ⟨0b00000011000000000000000000111011, []⟩ = .ok (.regRead 0x3B []) ∧
      decode ⟨0b00000100000000000000000010100101, [7]⟩ = .ok (.regWrite 0xA5 [7]) := by decide
theorem test_decode_memories :
    decode ⟨0b00000101000000000000001000000011, [1, 2]⟩ = .ok (.preWrite 515 [1, 2]) ∧
      decode ⟨0b00000110000000000100000001000000, [1]⟩ = .ok (.coefWrite 16448 [1]) := by decide
theorem test_decode_frame_engine :
    decode ⟨0b00010000100000000000000000000001, []⟩ = .ok (.execute 0x800001 []) ∧
      decode ⟨0b00010001000000000000000000000000, []⟩ = .ok (.resetStats []) ∧
      decode ⟨0b00010010000000000000000000000000, []⟩ = .ok (.getStats []) ∧
      decode ⟨0b00010011000000000000000000000000, []⟩ = .ok (.getThreshold []) ∧
      decode ⟨0b00010100000000000000000000000000, [5]⟩ = .ok (.setThreshold [5]) := by decide
theorem test_decode_oscillator :
    decode ⟨0b00100000000000000000000000000000, [1, 2]⟩ = .ok (.oscMixDown [1, 2]) ∧
      decode ⟨0b00100001000000000000000000000000, [1, 2]⟩ = .ok (.oscMixUp [1, 2]) ∧
      decode ⟨0b00100010000000000000000000000000, []⟩ = .ok (.oscCexp []) ∧
      decode ⟨0b00100011000000000000000000000000, []⟩ = .ok (.oscStep []) ∧
      decode ⟨0b00100100000000000000000000000000, [9]⟩ = .ok (.oscAdjPhase [9]) ∧
      decode ⟨0b00100101000000000000000000000000, [9]⟩ = .ok (.oscAdjFreq [9]) := by decide
theorem test_decode_pll :
    decode ⟨0b00101000000000000000000000000000, [9]⟩ = .ok (.pllSetBw [9]) ∧
      decode ⟨0b00101001000000000000000000000000, [9]⟩ = .ok (.pllStep [9]) := by decide
theorem test_decode_agc :
    decode ⟨0b00110000000000000000000000000000, [9]⟩ = .ok (.agcSetBw [9]) ∧
      decode ⟨0b00110001000000000000000000000000, [8, 9]⟩ = .ok (.agcExecute [8, 9]) ∧
      decode ⟨0b00110010000000000000000000000000, [9]⟩ = .ok (.agcSeed [9]) := by decide
theorem test_decode_symbol_sync :
    decode ⟨0b00111000000000000000000000000000, [9]⟩ = .ok (.ssSetBw [9]) ∧
      decode ⟨0b00111001000000000000000000000101, []⟩ = .ok (.ssExecute 5 []) := by decide
theorem test_decode_detector :
    decode ⟨0b01000000000000000000000000000000, [8, 9]⟩ = .ok (.detPush [8, 9]) ∧
      decode ⟨0b01000001000000000000000000000000, []⟩ = .ok (.detReset []) := by decide
theorem test_decode_demodulator :
    decode ⟨0b01001000000000000000000000000100, []⟩ = .ok (.demSetScheme 4 []) ∧
      decode ⟨0b01001001000000000000000000000000, [8, 9]⟩ = .ok (.demDemod [8, 9]) := by decide
theorem test_decode_chain :
    decode ⟨0b01010000000000000000000000000011, [0]⟩ = .ok (.dilDeinterleave 3 [0]) ∧
      decode ⟨0b01010001000000000000000000000010, [0]⟩ = .ok (.fecDecode 2 [0]) ∧
      decode ⟨0b01010010000000000000000000000000, [0, 0]⟩ = .ok (.crcCheck [0, 0]) ∧
      decode ⟨0b01010011000000000000000100000010, [1]⟩ = .ok (.decDecode 2 1 [1]) := by decide

/-- Reserved words (R119): a gap of the map, and each format's lowest reserved bit (R113). -/
theorem test_decode_reserved :
    decode ⟨0x07000000, []⟩ = .error (.reservedOp 0x07) ∧ decode ⟨0x54000000, []⟩ = .error (.reservedOp 0x54) ∧
      decode ⟨0x00000001, []⟩ = .error (.reservedImm .nop) ∧ decode ⟨0x03000100, []⟩ = .error (.reservedImm .regRead) ∧
      decode ⟨0x05000400, []⟩ = .error (.reservedImm .preWrite) ∧
      decode ⟨0x06008000, []⟩ = .error (.reservedImm .coefWrite) ∧
      decode ⟨0x48000104, []⟩ = .error (.reservedImm .demSetScheme) ∧
      decode ⟨0x53010000, []⟩ = .error (.reservedImm .decDecode) := by decide
theorem test_encode_word : encode (.decDecode 2 1 [7]) = ⟨0x53000102, [7]⟩ := by decide
theorem test_table_word : decodeTableWord 32 0x10000002 = some (.execute 2 [0, 0, 0, 0]) := by decide +kernel
theorem test_step_runs_fetched_word :
    step (State.reset.withFetchWord 32 0x22000000) = exec (.oscCexp []) State.reset := by rfl

/-! ### One step: administration and registers (R390 to R399) -/

theorem test_nop_answers_no_word : answer (.nop []) State.reset = [] := by decide
theorem test_reset_block_clears_configured : (after (.resetBlock []) ready).configured = false := by decide
theorem test_reset_block_counts_operands : code (.resetBlock [1]) ready = .badOperands := by decide
theorem test_configure_reset_words :
    answer (.configure []) State.reset = [0] ∧ (after (.configure []) State.reset).fsm.hdrSyms = 40 := by
  decide +kernel
theorem test_configure_without_preamble :
    answer (.configure []) { State.reset with words := { CfgWords.reset with nPre := 0 } } = [4] := by decide +kernel
theorem test_reg_read_max_payload : answer (.regRead 0x1B []) State.reset = [0x00001000] := by decide
theorem test_reg_read_unmapped :
    answer (.regRead 0x05 []) State.reset = [0] ∧ code (.regRead 0x05 []) State.reset = .badReg := by decide
theorem test_reg_write_freq : (after (.regWrite 0x22 [0x00A2F983]) State.reset).nco.omega = 10680707 := by decide
theorem test_reg_write_thresh_above_one : code (.regWrite 0x20 [0x3FC00000]) State.reset = .badOperands := by decide
theorem test_pre_write :
    memRead C.zero (after (.preWrite 3 [0xBF800000, 0]) State.reset).preMem 3 = ⟨Config.negOne, R.zero⟩ := by decide
theorem test_coef_write :
    memRead R.zero (after (.coefWrite 2 [0x3F800000]) State.reset).coefMem 2 = Config.one := by decide
theorem test_coef_write_above_last : code (.coefWrite 16448 [0x3F800000]) State.reset = .badOperands := by decide

/-! ### The frame engine (R340, R341, R356, R365 to R368) -/

theorem test_execute_before_configure : code (.execute 0 []) State.reset = .notConfigured := by decide
/-- With bandwidth 1 the AGC takes the sample's energy (R196), and the oscillator advances once (R341). -/
theorem test_execute_sample :
    (after (.execute 1 [0x40000000, 0])
      { ready with agc := { e := Config.one, bw := Config.one }, nco := { theta := 0, omega := 5, omegaSeek := 0 } }).agc.e =
      Config.four := by decide +kernel
theorem test_execute_advances_phase :
    (after (.execute 1 [0x40000000, 0]) { ready with nco := { theta := 0xFFFFFFFF, omega := 3, omegaSeek := 0 } }).nco.theta
      = 2 := by decide +kernel
theorem test_reset_stats :
    (after (.resetStats []) { State.reset with stats := { State.reset.stats with nDet := 3 } }).stats.nDet = 0 := by
  decide
theorem test_get_stats :
    answer (.getStats []) { State.reset with stats := { State.reset.stats with nDet := 1, nHdr := 1 } }
      = [1, 1, 0, 0, 0, 0] := by decide
theorem test_get_threshold : answer (.getThreshold []) State.reset = [0x3F000000] := by decide
theorem test_set_threshold_one : (after (.setThreshold [0x3F800000]) State.reset).thresh = Config.one := by decide
theorem test_set_threshold_nan : code (.setThreshold [0x7FC00000]) State.reset = .badOperands := by decide

/-! ### Oscillator and PLL (R160 to R171) -/

theorem test_mix_down : answer (.oscMixDown [0x3F800000, 0]) (osc 0x40000000 0) = [0x00000000, 0xBF800000] := by
  decide +kernel
theorem test_mix_up : answer (.oscMixUp [0x40000000, 0]) (osc 0x40000000 0) = [0x00000000, 0x40000000] := by
  decide +kernel
theorem test_cexp : answer (.oscCexp []) (osc 0x80000000 0) = [0xBF800000, 0x00000000] := by decide +kernel
theorem test_osc_step_wraps : (after (.oscStep []) (osc 0xC0000000 0x40000000)).nco.theta = 0 := by decide
theorem test_adj_phase : (after (.oscAdjPhase [0x40000000]) State.reset).nco.theta = 0x40000000 := by decide
theorem test_adj_freq_wraps : (after (.oscAdjFreq [0xFFFFFFF0]) (osc 0 0x10)).nco.omega = 0 := by decide
theorem test_pll_set_bw : (after (.pllSetBw [0x3F000000]) State.reset).pllBw = Config.half := by decide
theorem test_pll_step :
    (after (.pllStep [0x3E800000]) { State.reset with pllBw := Config.half }).nco =
      { theta := 0x0517CC18, omega := 0x00A2F983, omegaSeek := 0 } := by decide +kernel
theorem test_pll_step_error_above_pi :
    (after (.pllStep [0x40490FDC]) { State.reset with pllBw := Config.half }).nco = State.reset.nco := by decide +kernel

/-! ### AGC (R195 to R197) -/

theorem test_agc_set_bw : (after (.agcSetBw [0x3C000000]) State.reset).agc.bw = R.ofBits 0x3C000000 := by decide
theorem test_agc_execute_full_bandwidth :
    answer (.agcExecute [0x40000000, 0]) { State.reset with agc := { e := Config.one, bw := Config.one } } =
      [0x3F800000, 0x00000000, 0x40000000] := by decide +kernel
theorem test_agc_execute_half_bandwidth :
    answer (.agcExecute [0x40000000, 0x3F800000])
      { State.reset with agc := { e := Config.three, bw := Config.half } } =
      [0x3F800000, 0x3F000000, 0x40000000] := by decide +kernel
theorem test_agc_seed :
    (after (.agcSeed [0x3F000000]) { State.reset with agc := { e := Config.four, bw := Config.half } }).agc.e =
      Config.one := by decide +kernel
theorem test_agc_seed_nan : (after (.agcSeed [0x7FC00000]) State.reset).agc = State.reset.agc := by decide +kernel

/-! ### Symbol synchroniser (R225, R226), on the impulse table of R226's example -/

/-- k = 2, m = 1, P = 1, one branch 0, 0, 1, 0, 0, bandwidth 0. -/
def impulse : State :=
  { ready with
    cfg := { Cfg.reset with m := 1, P := 1, L := 5 }
    ss := { State.reset.ss with bw := R.zero, H := [(2, Config.one)] } }

theorem test_ss_set_bw : (after (.ssSetBw [0x3E800000]) State.reset).ss.bw = R.ofBits 0x3E800000 := by decide
theorem test_ss_execute :
    answer (.ssExecute 6 [0x3F800000, 0, 0, 0, 0xBF800000, 0, 0, 0, 0x3F800000, 0, 0, 0]) impulse =
      [3, 0, 0, 0x3F800000, 0, 0xBF800000, 0] := by decide +kernel
theorem test_ss_execute_none : answer (.ssExecute 0 []) impulse = [0] := by decide +kernel

/-! ### Detector (R255, R256), N = 2, reference (1,0), (-1,0), threshold 0.5 -/

/-- The state of R255's example 1 after its first two pushes. -/
def twoPushes : State :=
  { ready with
    cfg := { Cfg.reset with N := 2 }
    det :=
      { State.reset.det with
        ref := [(0, ⟨Config.one, R.zero⟩), (1, ⟨Config.negOne, R.zero⟩)]
        win := [(0, ⟨Config.one, R.zero⟩), (1, ⟨Config.negOne, R.zero⟩)]
        en := [(0, Config.one), (1, Config.one)]
        fill := 2, pend := true, rho1 := Config.one, S1 := ⟨Config.two, R.zero⟩
        Sa1 := ⟨Config.one, R.zero⟩, Sb1 := ⟨Config.one, R.zero⟩ } }

theorem test_det_push_reports :
    answer (.detPush [0, 0]) twoPushes = [1, 0x3E8C02D4, 0, 0, 0x3F800000, 0x3F800000] := by decide +kernel
theorem test_det_push_fill_gate :
    answer (.detPush [0x3F800000, 0]) { twoPushes with det := detClear twoPushes.det } = [0, 0, 0, 0, 0, 0] := by
  decide +kernel
/-- R247 with D21: a concave-up fit (0, 1/4, 1) gives 0; the concave one (0, 1, 1) the clamped vertex 1/2. -/
theorem test_det_tau :
    detTau R.zero (decR 0x3E800000) Config.one = R.zero ∧ detTau R.zero Config.one Config.one = Config.half := by
  decide +kernel
theorem test_det_reset : (after (.detReset []) twoPushes).det.pend = false := by decide

/-! ### Demodulator (R285, R286) -/

theorem test_dem_set_scheme : (after (.demSetScheme 4 []) State.reset).demScheme = .qam16 := by decide
theorem test_dem_set_scheme_seven : code (.demSetScheme 7 []) State.reset = .badOperands := by decide
theorem test_dem_demod_16qam :
    answer (.demDemod [0x3E99999A, 0xBF666666]) { State.reset with demScheme := .qam16 } =
      [12, 0x3306EC82, 0x3EA1E89B, 0xBF72DCE8] := by decide +kernel
theorem test_dem_demod_bpsk :
    answer (.demDemod [0xBF000000, 0x3E800000]) { State.reset with demScheme := .bpsk } =
      [1, 0xBEED6338, 0xBF800000, 0] := by decide +kernel

/-! ### Decode chain (R325 to R328) -/

theorem test_deinterleave : answer (.dilDeinterleave 3 [7, 0xB2000000]) State.reset = [7, 0xC6000000] := by
  decide +kernel
theorem test_deinterleave_depth_zero : code (.dilDeinterleave 0 [7, 0xB2000000]) State.reset = .badOperands := by
  decide +kernel
theorem test_fec_rep3 : answer (.fecDecode 1 [11, 0xCBA00000]) State.reset = [3, 0xA0000000] := by decide +kernel
theorem test_fec_hamming : answer (.fecDecode 2 [7, 0x6E000000]) State.reset = [4, 0xB0000000] := by decide +kernel
theorem test_crc_valid : answer (.crcCheck [1, 0xA574BEB8, 0xEA000000]) State.reset = [1, 0x74BEB8EA] := by
  decide +kernel
theorem test_crc_invalid : answer (.crcCheck [1, 0xA574BEB8, 0xEB000000]) State.reset = [0, 0x74BEB8EA] := by
  decide +kernel
theorem test_dec_flipped : answer (.decDecode 0 0 [1, 0x0801, 40, 0xF83DCE37, 0x5A000000]) State.reset =
    [0, 0xA5000000] := by decide +kernel
theorem test_dec_layered :
    answer
      (.decDecode 2 1
        [1, 0x0503, 210, 0xBFBBCFDA, 0xA40FD548, 0xBC66AC06, 0x6A8A62B9, 0xAE6FFC8D, 0xB59ADFDA, 0xDF690000])
      State.reset = [1, 0xA5000000] := by decide +kernel
theorem test_expand_set_wide :
    expand Cfg.reset .setWide = [.agcSetBw [0x3D800000], .pllSetBw [0x3D800000], .ssSetBw [0x3E800000]] := by decide

/-! ### Witnesses: concrete values that meet the hypotheses of each obligation together, at the ends of their ranges -/

theorem witness_DecodeEncode : ∃ i, decode ⟨0x10FFFFFF, []⟩ = .ok i := ⟨_, rfl⟩

theorem witness_StepRunsDecodedCommand :
    ∃ (s : State) (t : Transaction) (rest : List Transaction) (i : Instr), s.cmds = t :: rest ∧ decode t = .ok i :=
  ⟨{ State.reset with cmds := [⟨0x23000000, []⟩] }, ⟨0x23000000, []⟩, [], .oscStep [], rfl, by decide⟩
theorem witness_StepRunsDecodedCommand_none : State.reset.cmds = [] := rfl

theorem witness_IllegalWords :
    ∃ (s : State) (t u : Transaction) (rest : List Transaction), s.cmds = t :: u :: rest ∧
      (t.cmd.extractLsb' 24 8).toNat = 0x54 ∧ u.cmd.extractLsb' 24 8 = Op.regRead.code ∧
      2 ^ Op.regRead.immBits ≤ (u.cmd.extractLsb' 0 24).toNat :=
  ⟨{ State.reset with cmds := [⟨0x54000000, []⟩, ⟨0x03000100, []⟩] }, ⟨0x54000000, []⟩, ⟨0x03000100, []⟩, [], rfl,
    by decide, by decide, by decide⟩

theorem witness_FailureOrder :
    (Instr.execute 1 [0]).wellFormed = false ∧ (Instr.execute 1 [0, 0]).op = .execute ∧
      (Instr.execute 1 [0, 0]).wellFormed = true ∧ (Instr.ssExecute 0 []).wellFormed = true ∧
      (Instr.detPush [0, 0]).wellFormed = true ∧ State.reset.configured = false := by decide

theorem witness_ReadingCommandsChangeNothing :
    (Instr.demDemod [0x3F800000, 0]).op = .demDemod ∧
      ∃ t, exec (.demDemod [0x3F800000, 0]) State.reset = .next t := ⟨rfl, exec_total _ _⟩

theorem witness_WritesIdempotent :
    Memory.wf State.reset = true ∧
      ∃ t u, exec (.preWrite 1023 [0x3F800000, 0]) State.reset = .next t ∧
        exec (.preWrite 1023 [0x3F800000, 0]) t = .next u :=
  ⟨by decide, _, _, rfl, rfl⟩

theorem witness_RegisterReads :
    ∀ a ∈ ([0x05, 0x37, 0x3E, 0xFF] : List (BitVec 8)),
      a.toNat ∈ [0x05, 0x06, 0x07, 0x1D, 0x1E, 0x1F, 0x2A, 0x2B, 0x33, 0x34, 0x35, 0x36, 0x37] ∨ 0x3E ≤ a.toNat := by
  decide

theorem witness_RegisterClasses :
    (∃ r, exec (.regRead 0x1C []) State.reset = .next (State.reset.respond r)) ∧ (0x08 : BitVec 8) ≠ 0x1C ∧
      ∀ a ∈ ([0x00, 0x1F, 0x24, 0xFF] : List (BitVec 8)),
        a.toNat ∈ [0x00, 0x02, 0x03, 0x04, 0x05, 0x06, 0x07, 0x1D, 0x1E, 0x1F] ∨ 0x24 ≤ a.toNat :=
  ⟨⟨_, rfl⟩, by decide, by decide⟩

theorem witness_MemoryWritesStore :
    Memory.wf State.reset = true ∧ (16447 : BitVec 15).toNat < 16448 ∧ 16448 ≤ (16448 : BitVec 15).toNat := by decide

/-- The reset words, whose checks all pass, and words for each check that fails. -/
theorem witness_ConfigureStarts :
    (∃ c, checkConfig State.reset.words State.reset.preMem = .ok c) ∧
      checkConfig { CfgWords.reset with nPre := 0 } [] = .error .cfgBadPreamble := by
  refine ⟨?_, by decide +kernel⟩
  cases h : checkConfig State.reset.words State.reset.preMem with
  | ok c => exact ⟨c, rfl⟩
  | error c =>
    have h2 : (match checkConfig State.reset.words State.reset.preMem with | .ok _ => true | .error _ => false) = true :=
      by decide +kernel
    rw [h] at h2
    cases h2
theorem witness_ConfigureAccepts : ∃ c, checkConfig CfgWords.reset [] = .ok c := witness_ConfigureStarts.1
/-- The same with the reference from preamble memory: one entry, and no generator. -/
theorem witness_ConfigureAccepts_memory :
    (match checkConfig { CfgWords.reset with preSrc := 0 } [(0, ⟨Config.one, R.zero⟩)] with
      | .ok _ => true
      | .error _ => false) = true ∧
      cellsWf C.zero Config.nMax 0 [(0, ⟨Config.one, R.zero⟩)] = true := by decide +kernel
theorem witness_ConfigureLatches :
    (∃ c, checkConfig State.reset.words State.reset.preMem = .ok c) ∧
      ∃ t, exec (.configure []) State.reset = .next t := ⟨witness_ConfigureStarts.1, exec_total _ _⟩

theorem witness_ConfigureCheckOrder :
    ({ CfgWords.reset with nPre := 0 } : CfgWords).nPre = 0 ∧
      paramsOk { CfgWords.reset with kSps := 3 } = false ∧ CfgWords.reset.nPre ≠ 0 ∧ paramsOk CfgWords.reset = true ∧
      paramsOk { CfgWords.reset with preSrc := 0 } = true ∧
      normaliseRef (rawReference { CfgWords.reset with preSrc := 0 } []) = none ∧
      normaliseRef (rawReference CfgWords.reset []) ≠ none ∧
      6 < ({ CfgWords.reset with hdrMod := 7 } : CfgWords).hdrMod.toNat ∧ CfgWords.reset.hdrMod.toNat ≤ 6 ∧
      2 < ({ CfgWords.reset with hdrFec := 3 } : CfgWords).hdrFec.toNat % 256 ∧
      2 < ({ CfgWords.reset with hdrFec := 0x300 } : CfgWords).hdrFec.toNat / 256 ∧
      CfgWords.reset.hdrFec.toNat / 256 ≤ 2 ∧
      paramsOk { CfgWords.reset with preInit := BitVec.ofNat 32 (2 ^ CfgWords.reset.prePoly.toNat.log2) } = false := by
  decide +kernel

theorem witness_GeneratedReferenceExact : 1 ≤ 1024 ∧ 1024 ≤ Config.nMax := by decide
theorem witness_GeneratorRecurrence :
    1 ≤ 6 ∧ (2 ^ 6 ≤ (0x43 : Word).toNat ∧ (0x43 : Word).toNat < 2 ^ 7 ∧ (1 : Word).toNat < 2 ^ 6) ∧
      2 ^ 31 ≤ (0xFFFFFFFF : Word).toNat ∧ (0xFFFFFFFF : Word).toNat < 2 ^ 32 ∧ (0x7FFFFFFF : Word).toNat < 2 ^ 31 := by
  decide

theorem witness_ExactArithmetic :
    (0x7F7FFFFF : Fin 2139095041).val < 0x7F800000 ∧ 2 ^ 24 - 1 < 2 ^ 24 ∧ 0 < (1 : Fin 2139095041).val ∧
      0 < (0x7F800000 : Fin 2139095041).val ∧ (-4096 : Int).natAbs ≤ 4096 ∧ 12 ≤ 12 := by decide
/-- R12: `atan2(0, x)` is 0 at the least positive `x` and at infinity. -/
theorem test_atan2_zero :
    R.zero.atan2 (.num false 1) = R.zero ∧ R.zero.atan2 (.num false 0x7F800000) = R.zero := by decide +kernel
theorem witness_PackingRoundTrip :
    63 < 32 * ((([true] ++ List.replicate 32 false).length + 31) / 32) ∧ 7 < 4 * ((5 + 3) / 4) ∧
      32 ≤ 32 * ([0xFFFFFFFF] : List Word).length ∧ 31 < 32 ∧ 4 ≤ 4 * ([0xFFFFFFFF] : List Word).length ∧ 3 < 4 := by
  decide
/-- R85, by hand: 33 bits whose first and last are 1, and 5 bytes. -/
theorem test_packing :
    packBits ([true] ++ List.replicate 31 false ++ [true]) = [0x80000000, 0x80000000] ∧
      packBytes [1, 2, 3, 4, 5] = [0x01020304, 0x05000000] := by decide +kernel
/-- R152's guard: the least angle whose product with PHASE_SCALE is 2^62, and the largest finite one. -/
theorem witness_PhaseConversions :
    (0x4FC90FDA : Fin 2139095041).val < 0x4FC90FDB ∧ (0 : Fin 2139095041).val < 0x4FC90FDB ∧
    0x4FC90FDB ≤ (0x4FC90FDB : Fin 2139095041).val ∧ 0x4FC90FDB ≤ (0x7F7FFFFF : Fin 2139095041).val ∧
      (R.num false 0x4FC90FDB).mul Config.phaseScale = Config.twoPow62 := by decide +kernel

theorem witness_OscillatorMoves : ([0] : List Word).length ≠ 0 ∧ ([] : List Word).length ≠ 1 := by decide
theorem witness_NopDoesNothing :
    ([0] : List Word).length ≠ 0 ∧ (0xFFFFFF : BitVec 24) ≠ 0 ∧
      ({ State.reset with cmds := [⟨(0x00 : BitVec 8) ++ (1 : BitVec 24), []⟩] } : State).cmds =
        [⟨(0x00 : BitVec 8) ++ (1 : BitVec 24), []⟩] := ⟨by decide, by decide, rfl⟩
theorem witness_OscillatorWriters : ∃ t, exec (.regWrite 0x20 [0x3F000000]) State.reset = .next t := ⟨_, rfl⟩

theorem witness_PllIgnoresBadError :
    1 ≤ 16 ∧ Config.half.within R.zero Config.one = true ∧ (decR 0x40490FDC).within Config.negPi Config.pi = false ∧
      (decR 0x7FC00000).within Config.negPi Config.pi = false ∧ 16 ≤ Config.kMax := by decide

theorem witness_UnitRangeWrites :
    (decR 0x3F800000).ge R.zero = true ∧ (decR 0x3F800000).le Config.one = true ∧
      (decR 0x80000000).ge R.zero = true ∧ (decR 0x80000000).le Config.one = true ∧
      ((decR 0x3F800001).ge R.zero && (decR 0x3F800001).le Config.one) = false ∧
      ((decR 0x7FC00000).ge R.zero && (decR 0x7FC00000).le Config.one) = false := by decide

/-- The reset configuration is one that CONFIGURE accepts. -/
theorem cfgOk_reset : CfgOk Cfg.reset := by constructor <;> decide +kernel

theorem witness_SymbolSyncExecutes :
    ready.configured = true ∧ ([0x3F800000, 0] : List Word).length = 2 * (1 : BitVec 24).toNat := by decide
theorem witness_SymbolSyncShifts :
    CfgOk Cfg.reset ∧ cellsWf C.zero Config.lMax 0 impulse.ss.buf = true ∧ 11 + 1 < Cfg.reset.L ∧
      cellsWf R.zero (Config.pMax * Config.lMax) 0 impulse.ss.H = true ∧ impulse.ss.tau.gt R.zero = true ∧
      impulse.ss.tau.le ((Config.three.mul (R.ofNat Cfg.reset.k)).div Config.four) = true ∧
      impulse.ss.r.within (R.zero.sub Cfg.reset.rmax) Cfg.reset.rmax = true :=
  ⟨cfgOk_reset, by decide, by decide, by decide +kernel, by decide, by decide +kernel, by decide +kernel⟩
theorem witness_DetectorCommands :
    twoPushes.configured = true ∧ 1 ≤ twoPushes.cfg.N ∧ twoPushes.cfg.N ≤ Config.nMax ∧
      cellsWf C.zero Config.nMax 0 twoPushes.det.win = true ∧ cellsWf R.zero Config.nMax 0 twoPushes.det.en = true ∧
      cellsWf C.zero Config.nMax 0 twoPushes.det.ref = true ∧ 0 + 1 < twoPushes.cfg.N ∧
      min (twoPushes.det.fill + 1) twoPushes.cfg.N = twoPushes.cfg.N ∧
      min ((detClear twoPushes.det).fill + 1) twoPushes.cfg.N < twoPushes.cfg.N ∧
      (((Config.one.add R.zero).div (R.ofNat twoPushes.cfg.N)).gt Config.eDetMin) = true := by decide +kernel
theorem witness_FirstPushesSilent :
    R.zero.ge R.zero = true ∧ ([⟨Config.one, R.zero⟩, C.zero] : List C).length ≤ twoPushes.cfg.N := by decide
theorem witness_DemodulatorCommands : (0 : BitVec 8) = 0 ∧ 6 < (7 : BitVec 8).toNat := by decide
theorem witness_PointsDemodulate : (255 : Fin 256).val < 2 ^ Scheme.qam256.bps := by decide

theorem witness_ChainStageCommands :
    (33 : Word).toNat ≤ Config.bitCap ∧ ([1, 2] : List Word).length = ((33 : Word).toNat + 31) / 32 ∧
      (1 : BitVec 24) ≠ 0 ∧ (0 : Word).toNat ≤ Config.payloadCap ∧
      ([0] : List Word).length = ((0 : Word).toNat + 4 + 3) / 4 ∧ 2 < (3 : BitVec 8).toNat := by decide
theorem witness_ChainDecodeCommand :
    (32 : Word).toNat ≤ Config.bitCap ∧ ([0] : List Word).length = ((32 : Word).toNat + 31) / 32 ∧
      Fec.none.id = (0 : BitVec 8).toNat ∧ (0x0101 : Word).toNat % 256 ≠ 0 ∧ (0x0101 : Word).toNat / 256 ≠ 0 ∧
      (0xFFFF : Word).toNat < 65536 ∧ chainL2 0 .none .none ≤ (32 : Word).toNat ∧
      (31 : Word).toNat < chainL2 0 .none .none ∧ 2 < (3 : BitVec 8).toNat ∧ 65536 ≤ (0x10101 : Word).toNat ∧
      chainL2 0 .none .none ≤ (List.replicate 32 false).length ∧ 3 < 0 + 4 ∧ 7 < 8 := by decide
theorem witness_DeinterleaveInverts :
    1 ≤ 3 ∧ ([true, false, true] : List Bool).length ≤ 3 ∧ 2 < ([true, false, true] : List Bool).length := by decide
theorem witness_FecCodes :
    ([true, true] : List Bool).length < 3 ∧ ([true, true, true, true, true, true] : List Bool).length < 7 := by decide
theorem witness_UncodedFlipDetected : 39 < chainL2 1 .none .none := by decide
theorem witness_ChainRoundTrip : 1 ≤ 1 ∧ 1 ≤ 255 := by decide

theorem witness_ExecuteRuns :
    ([0x3F800000, 0] : List Word).length = 2 * (1 : BitVec 24).toNat ∧ ready.configured = true := by decide
theorem witness_ExecuteSplits :
    (2 : BitVec 24).toNat = (1 : BitVec 24).toNat + (1 : BitVec 24).toNat ∧
      ([0x3F800000, 0] : List Word).length = 2 * (1 : BitVec 24).toNat ∧ ready.configured = true := by decide
theorem witness_ExecuteFrame : ∃ t, exec (.execute 1 [0x3F800000, 0]) ready = .next t := exec_total _ _
theorem witness_OnlyExecuteMovesFrames : ∃ t, exec (.detReset []) twoPushes = .next t := ⟨_, rfl⟩

theorem witness_SymbolTransitions_seek :
    ready.fsm.phase = .seek ∧ (detPush ready.cfg ready.thresh C.zero ready.det).2 = none ∧
      (detPush twoPushes.cfg twoPushes.thresh C.zero twoPushes.det).2.isSome = true := by decide +kernel
theorem witness_SymbolTransitions_header :
    ∀ n ∈ [38, 39],
      ({ ready with fsm := { ready.fsm with phase := .header, cnt := n, hdrSyms := 40 } } : State).fsm.phase = .header ∧
        (n + 1 = 40 ∨ n + 1 ≠ 40) := by decide
theorem witness_SymbolTransitions_payload :
    ({ ready with fsm := { ready.fsm with phase := .payload, cnt := 15, paySyms := 16 } } : State).fsm.cnt + 1 =
      ({ ready with fsm := { ready.fsm with phase := .payload, cnt := 15, paySyms := 16 } } : State).fsm.paySyms := by
  decide
/-- A header and a payload whose bits are all there, by the transmitter's chain; and a header of scheme 7. -/
theorem witness_FramePartsEnd :
    chainL2 6 .none .none ≤ (chainEncode (headerMessage .qpsk 1 .none .none) .none .none 1 8).length ∧
      chainDecode 6 .none .none 1 8 (chainEncode (headerMessage .qpsk 1 .none .none) .none .none 1 8) =
        ([2, 2, 0, 1, 0, 0], true) ∧
      Scheme.qpsk.id = (2 : Byte).toNat ∧ Scheme.qpsk.bps = (2 : Byte).toNat ∧
      chainDecode 6 .none .none 1 8 (chainEncode [7, 2, 0, 1, 0, 0] .none .none 1 8) = ([7, 2, 0, 1, 0, 0], true) ∧
      6 < (7 : Byte).toNat ∧
      chainDecode 1 .rep3 .hamming74 1 8 (chainEncode [0xA5] .rep3 .hamming74 1 8) = ([0xA5], true) := by
  decide +kernel
theorem witness_FrameRecordWords : ([0xA5] : List Byte).length = ({ State.reset.fsm.hdr with len := 1 } : Header).len.toNat :=
  by decide

/-- A state with a command waiting that meets every invariant. -/
def waiting : State := { State.reset with cmds := [⟨0x23000000, []⟩] }

theorem witness_KeptByStep :
    MemoryOk waiting ∧ StatsOrdered waiting ∧ FrameOk waiting ∧ LevelsOk waiting ∧ TimingOk waiting ∧
      ∃ t, step waiting = .next t :=
  ⟨⟨cfgOk_reset, by decide⟩, ⟨Nat.le_refl _, Nat.le_refl _⟩,
    ⟨cfgOk_reset, ⟨rfl, rfl⟩, fun _ => rfl, fun h => by cases h⟩,
    ⟨cfgOk_reset, by decide, by decide, by decide, by decide, by decide, by decide⟩,
    ⟨cfgOk_reset, by decide, by decide +kernel, by decide +kernel⟩, _, rfl⟩

end Sys2Proof.Tests
end

/-! PROOFS of the family 00_scope.md: the real type `R` in its reference instantiation (R12, R14) and the mixing commands
with the complex operations they use (R13, R160 to R162). The exactness properties rest on one notion, `R.IsUnits x z`:
the finite value `x` is exactly `z` units of 2^-149. An operation whose exact result is representable returns it. -/

namespace Sys2Proof

/-! ### Words and values (R14) -/

theorem decR_encR (v : R) : decR (encR v) = v := by
  cases v with
  | num neg m => exact decR_packSign_num neg m.val m.isLt
  | nan neg f => exact decR_packSign_nan neg f.val f.isLt

/-- A word is its sign bit above its bits [30:0]. -/
theorem packSign_of_word (w : Word) : packSign (decide (2 ^ 31 ≤ w.toNat)) (w.toNat % 2 ^ 31) = w := by
  apply BitVec.eq_of_toNat_eq
  rw [toNat_packSign _ (Nat.mod_lt _ (by decide))]
  have hw := w.isLt
  rcases Nat.lt_or_ge w.toNat (2 ^ 31) with h | h
  · rw [decide_eq_false (by omega)]; simp; omega
  · rw [decide_eq_true h]; simp; omega

theorem encR_decR (w : Word) : encR (decR w) = w := by
  unfold decR
  dsimp only
  split
  · next hnum => exact packSign_of_word w
  · next hnan =>
    rw [encR]
    dsimp only
    rw [Nat.add_sub_cancel' (Nat.le_of_not_lt hnan)]
    exact packSign_of_word w

/-- Settles O22: a word is its sign above its bits [30:0], and each value packs to the word it is read from. -/
theorem wordsAndValues : Obligations.WordsAndValues := ⟨encR_decR, decR_encR⟩

/-! ### Rounding of a fraction that is a whole number of units -/

theorem rne_mul_mul (a b : Nat) {d : Nat} (h : 0 < d) : rne (a * d) (b * d) = rne a b := by
  have hcmp : b * d < 2 * (a % b * d) ↔ b < 2 * (a % b) := by
    rw [← Nat.mul_assoc]; exact Nat.mul_lt_mul_right h
  have htie : 2 * (a % b * d) = b * d ↔ 2 * (a % b) = b := by
    rw [← Nat.mul_assoc]; exact Nat.mul_left_inj h.ne'
  unfold rne
  simp only [Nat.mul_div_mul_right a b h, Nat.mul_mod_mul_right, Bool.or_eq_true, Bool.and_eq_true,
    decide_eq_true_eq, beq_iff_eq, hcmp, htie]

theorem roundUnits_mul_mul (a b : Nat) {d : Nat} (h : 0 < d) : roundUnits (a * d) (b * d) = roundUnits a b := by
  rw [roundUnits_eq, roundUnits_eq, Nat.mul_div_mul_right a b h, Nat.mul_right_comm b d, rne_mul_mul a _ h]

theorem roundUnits_mul_self (n : Nat) {d : Nat} (h : 0 < d) : roundUnits (n * d) d = roundUnits n 1 := by
  simpa using roundUnits_mul_mul n 1 h

/-- A finite value is the rounding of its own magnitude, written as a fraction. -/
theorem round_units_mul (neg : Bool) {m : Fin 2139095041} (hm : m.val < infBits) {d : Nat} (hd : 0 < d) :
    R.round neg (units m * d) d = .num neg m := by
  unfold R.round R.mk
  rw [roundUnits_mul_self _ hd, roundUnits_units hm]
  simp only [Nat.min_eq_left hm.le]

/-! ### Representable magnitudes -/

/-- Some finite pattern has exactly `n` units. -/
def Representable (n : Nat) : Prop := ∃ m, m < infBits ∧ units m = n

theorem units_small {m : Nat} (h : m ≤ 2 ^ 24) : units m = m := by
  unfold units
  rcases Nat.lt_or_ge m (2 ^ 23) with h1 | h1
  · rw [if_pos (by omega)]
  · rcases Nat.lt_or_ge m (2 ^ 24) with h2 | h2
    · rw [if_neg (by omega), show m / 2 ^ 23 = 1 by omega]; omega
    · rw [show m = 2 ^ 24 by omega]; rfl

/-- One more in the exponent field doubles a normal magnitude. -/
theorem units_add_exponent {m : Nat} (h : 2 ^ 23 ≤ m) : units (m + 2 ^ 23) = 2 * units m := by
  unfold units
  rw [if_neg (by omega), if_neg (by omega), Nat.add_mod_right, Nat.add_div_right _ (by decide)]
  obtain ⟨e, he⟩ : ∃ e, m / 2 ^ 23 = e + 1 := ⟨m / 2 ^ 23 - 1, by omega⟩
  rw [he, Nat.succ_sub_one, Nat.add_sub_cancel, Nat.pow_succ]
  ring

/-- 24 significant bits with `s` zeros behind them have a pattern with exponent field at most `s + 2`. -/
theorem exists_units_eq_mul_pow {c : Nat} (hc : c ≤ 2 ^ 24) (s : Nat) :
    ∃ m, m ≤ (s + 2) * 2 ^ 23 ∧ units m = c * 2 ^ s := by
  induction s with
  | zero => exact ⟨c, by omega, by rw [units_small hc]; omega⟩
  | succ s ih =>
    obtain ⟨m, hm, hu⟩ := ih
    rcases Nat.lt_or_ge m (2 ^ 23) with h | h
    · refine ⟨2 * m, by omega, ?_⟩
      rw [units_small (by omega)] at hu
      rw [units_small (by omega), hu, Nat.pow_succ]; ring
    · exact ⟨m + 2 ^ 23, by omega, by rw [units_add_exponent h, hu, Nat.pow_succ]; ring⟩

theorem representable_mul_pow {c s : Nat} (hc : c ≤ 2 ^ 24) (hs : s ≤ 252) : Representable (c * 2 ^ s) := by
  obtain ⟨m, hm, hu⟩ := exists_units_eq_mul_pow hc s
  exact ⟨m, by unfold infBits; omega, hu⟩

/-! ### Values that are exactly a number of units -/

/-- A sign bit as a factor. -/
def signOf (neg : Bool) : Int := if neg then -1 else 1

theorem signOf_bne (a b : Bool) : signOf (a != b) = signOf a * signOf b := by cases a <;> cases b <;> rfl

theorem signOf_mul_self (a : Bool) : signOf a * signOf a = 1 := by cases a <;> rfl

theorem signOf_lt_zero (z : Int) : signOf (decide (z < 0)) * z.natAbs = z := by
  rcases lt_or_ge z 0 with h | h
  · rw [decide_eq_true h, signOf, if_pos rfl]; omega
  · rw [decide_eq_false (by omega), signOf, if_neg (by decide)]; omega

/-- A signed whole number of `c`s, by its magnitude and its sign. -/
theorem eq_natAbs_of_signOf_mul_eq {s : Bool} {n c : Nat} {r : Int} (hc : 0 < c) (h : signOf s * n = r * c) :
    n = r.natAbs * c ∧ signOf s * r.natAbs = r := by
  have hmag : n = r.natAbs * c := by
    have habs := congrArg Int.natAbs h
    rw [Int.natAbs_mul, Int.natAbs_mul] at habs
    cases s <;> simpa [signOf] using habs
  refine ⟨hmag, Int.eq_of_mul_eq_mul_right (a := c) (by omega) ?_⟩
  rw [← h, hmag, Int.natCast_mul, Int.mul_assoc]

theorem signedUnits_eq (neg : Bool) (m : Nat) : signedUnits neg m = signOf neg * units m := by
  cases neg <;> simp [signedUnits, signOf]

/-- The finite value `x` is exactly `z` units of 2^-149. -/
def R.IsUnits (x : R) (z : Int) : Prop :=
  ∃ neg m, x = .num neg m ∧ m.val < infBits ∧ signedUnits neg m.val = z

theorem R.isUnits_num (neg : Bool) {m : Fin 2139095041} (hm : m.val < infBits) :
    (R.num neg m).IsUnits (signedUnits neg m) := ⟨neg, m, rfl, hm, rfl⟩

theorem R.isUnits_zero : R.zero.IsUnits 0 := ⟨false, 0, rfl, by decide, by decide⟩

theorem R.IsUnits.ord_eq {x : R} {z : Int} (h : x.IsUnits z) : x.ord = some (roundInt z) := by
  obtain ⟨neg, m, rfl, hm, rfl⟩ := h
  rw [R.ord_num, roundInt_signedUnits hm]

theorem R.eq_of_ord {x y : R} {z : Int} (hx : x.ord = some z) (hy : y.ord = some z) : x.eq y = true :=
  (R.eq_iff x y).2 ⟨z, hx, hy⟩

theorem R.IsUnits.eq {x y : R} {z : Int} (hx : x.IsUnits z) (hy : y.IsUnits z) : x.eq y = true :=
  R.eq_of_ord hx.ord_eq hy.ord_eq

/-- A representable exact result `r` is returned as it is. -/
theorem R.isUnits_round {s : Bool} {n c : Nat} {r : Int} (hc : 0 < c) (h : signOf s * n = r * c)
    (hr : Representable r.natAbs) : (R.round s n c).IsUnits r := by
  obtain ⟨hmag, hsign⟩ := eq_natAbs_of_signOf_mul_eq hc h
  obtain ⟨m, hm, hu⟩ := hr
  have hlt : m < 2139095041 := by unfold infBits at hm; omega
  rw [hmag, ← hu, round_units_mul s (m := ⟨m, hlt⟩) hm hc]
  exact ⟨s, ⟨m, hlt⟩, rfl, hm, by rw [signedUnits_eq, hu, hsign]⟩

/-- The sum of two exact values is the rounding of the exact sum. -/
theorem R.IsUnits.ord_add {x y : R} {p q : Int} (hx : x.IsUnits p) (hy : y.IsUnits q) :
    (x.add y).ord = some (roundInt (p + q)) := by
  obtain ⟨na, ma, rfl, ha, rfl⟩ := hx
  obtain ⟨nb, mb, rfl, hb, rfl⟩ := hy
  exact R.ord_add na nb ma mb ha hb

theorem R.IsUnits.ord_sub {x y : R} {p q : Int} (hx : x.IsUnits p) (hy : y.IsUnits q) :
    (x.sub y).ord = some (roundInt (p - q)) := by
  obtain ⟨na, ma, rfl, ha, rfl⟩ := hx
  obtain ⟨nb, mb, rfl, hb, rfl⟩ := hy
  exact R.ord_sub na nb ma mb ha hb

/-- A product whose exact value `r` is representable is exact. -/
theorem R.IsUnits.mul {x y : R} {p q r : Int} (hx : x.IsUnits p) (hy : y.IsUnits q) (h : p * q = r * 2 ^ 149)
    (hr : Representable r.natAbs) : (x.mul y).IsUnits r := by
  obtain ⟨na, ma, rfl, ha, rfl⟩ := hx
  obtain ⟨nb, mb, rfl, hb, rfl⟩ := hy
  rw [signedUnits_eq, signedUnits_eq] at h
  rw [R.mul_num na nb ma mb ha hb]
  refine R.isUnits_round (by decide) ?_ hr
  rw [signOf_bne]
  push_cast
  linear_combination h

/-- A quotient whose exact value `r` is representable is exact. -/
theorem R.IsUnits.div {x y : R} {p q r : Int} (hx : x.IsUnits p) (hy : y.IsUnits q) (hq : q ≠ 0)
    (h : p * 2 ^ 149 = r * q) (hr : Representable r.natAbs) : (x.div y).IsUnits r := by
  obtain ⟨na, ma, rfl, ha, rfl⟩ := hx
  obtain ⟨nb, mb, rfl, hb, rfl⟩ := hy
  have hden : units mb ≠ 0 := fun h0 => hq (by rw [signedUnits_eq, h0, Int.natCast_zero, Int.mul_zero])
  have hmb : mb.val ≠ 0 := fun h0 => hden (by rw [h0]; rfl)
  rw [signedUnits_eq, signedUnits_eq] at h
  rw [R.div_num na nb ma mb ha hb hmb]
  refine R.isUnits_round (Nat.pos_of_ne_zero hden) ?_ hr
  rw [signOf_bne]
  push_cast
  linear_combination signOf nb * h + r * units mb * signOf_mul_self nb

/-! ### Integers and dyadic fractions (R12) -/

theorem natAbs_mul_pow (a : Int) (k : Nat) : (a * 2 ^ k).natAbs = a.natAbs * 2 ^ k := by
  rw [Int.natAbs_mul, Int.natAbs_pow]; rfl

theorem R.isUnits_ofInt {i : Int} (h : i.natAbs ≤ 2 ^ 24) : (R.ofInt i).IsUnits (i * 2 ^ 149) := by
  refine R.isUnits_round (by decide) ?_ (by rw [natAbs_mul_pow]; exact representable_mul_pow h (by decide))
  have hsign := signOf_lt_zero i
  rw [Int.natCast_mul]
  push_cast at hsign ⊢
  linear_combination 2 ^ 149 * hsign

theorem R.ofNat_eq_ofInt (n : Nat) : R.ofNat n = R.ofInt n := by
  unfold R.ofNat R.ofInt
  rw [decide_eq_false (by omega), Int.natAbs_natCast]

theorem R.isUnits_ofNat {n : Nat} (h : n ≤ 2 ^ 24) : (R.ofNat n).IsUnits (n * 2 ^ 149) := by
  rw [R.ofNat_eq_ofInt]
  exact R.isUnits_ofInt (by simpa using h)

/-- `a / 2^e` in units is exact. -/
theorem R.isUnits_dyadic {a : Int} {e : Nat} (ha : a.natAbs ≤ 2 ^ 24) (he : e ≤ 24) :
    ((R.ofInt a).div (R.ofNat (2 ^ e))).IsUnits (a * 2 ^ (149 - e)) := by
  have hpow : (2 : Int) ^ (149 - e) * 2 ^ e = 2 ^ 149 := by rw [← Int.pow_add, Nat.sub_add_cancel (by omega)]
  have hden := R.isUnits_ofNat (Nat.pow_le_pow_right (by decide) he : 2 ^ e ≤ 2 ^ 24)
  refine (R.isUnits_ofInt ha).div hden (by positivity) ?_ ?_
  · push_cast
    linear_combination -(a * 2 ^ 149) * hpow
  · rw [natAbs_mul_pow]
    exact representable_mul_pow ha (by omega)

theorem R.dyadic_add {a b : Int} {e : Nat} (ha : a.natAbs ≤ 4096) (hb : b.natAbs ≤ 4096) (he : e ≤ 12) :
    (((R.ofInt a).div (R.ofNat (2 ^ e))).add ((R.ofInt b).div (R.ofNat (2 ^ e)))).eq
      ((R.ofInt (a + b)).div (R.ofNat (2 ^ e))) = true := by
  have hsum := (R.isUnits_dyadic (a := a) (e := e) (by omega) (by omega)).ord_add
    (R.isUnits_dyadic (a := b) (e := e) (by omega) (by omega))
  rw [← Int.add_mul] at hsum
  exact R.eq_of_ord hsum (R.isUnits_dyadic (by omega) (by omega)).ord_eq

theorem R.dyadic_sub {a b : Int} {e : Nat} (ha : a.natAbs ≤ 4096) (hb : b.natAbs ≤ 4096) (he : e ≤ 12) :
    (((R.ofInt a).div (R.ofNat (2 ^ e))).sub ((R.ofInt b).div (R.ofNat (2 ^ e)))).eq
      ((R.ofInt (a - b)).div (R.ofNat (2 ^ e))) = true := by
  have hdiff := (R.isUnits_dyadic (a := a) (e := e) (by omega) (by omega)).ord_sub
    (R.isUnits_dyadic (a := b) (e := e) (by omega) (by omega))
  rw [← Int.sub_mul] at hdiff
  exact R.eq_of_ord hdiff (R.isUnits_dyadic (by omega) (by omega)).ord_eq

theorem R.dyadic_mul {a b : Int} {e f : Nat} (ha : a.natAbs ≤ 4096) (hb : b.natAbs ≤ 4096) (he : e ≤ 12)
    (hf : f ≤ 12) :
    (((R.ofInt a).div (R.ofNat (2 ^ e))).mul ((R.ofInt b).div (R.ofNat (2 ^ f)))).eq
      ((R.ofInt (a * b)).div (R.ofNat (2 ^ (e + f)))) = true := by
  have hab : (a * b).natAbs ≤ 2 ^ 24 := by
    rw [Int.natAbs_mul]; exact (Nat.mul_le_mul ha hb).trans (by decide)
  have hpow : (2 : Int) ^ (149 - e) * 2 ^ (149 - f) = 2 ^ (149 - (e + f)) * 2 ^ 149 := by
    rw [← Int.pow_add, ← Int.pow_add]; congr 1; omega
  have hprod := (R.isUnits_dyadic (a := a) (e := e) (by omega) (by omega)).mul
    (R.isUnits_dyadic (a := b) (e := f) (by omega) (by omega)) (r := a * b * 2 ^ (149 - (e + f)))
    (by linear_combination (a * b) * hpow)
    (by rw [natAbs_mul_pow]; exact representable_mul_pow hab (by omega))
  exact hprod.eq (R.isUnits_dyadic hab (by omega))

/-- A whole value by its sign and its magnitude. -/
theorem R.IsUnits.exists_whole {x : R} {z : Int} (h : x.IsUnits (z * 2 ^ 149)) :
    ∃ neg m n, x = .num neg m ∧ m.val < infBits ∧ units m = n * 2 ^ 149 ∧ z = signOf neg * n := by
  obtain ⟨neg, m, rfl, hm, hz⟩ := h
  rw [signedUnits_eq] at hz
  obtain ⟨hmag, hsign⟩ := eq_natAbs_of_signOf_mul_eq (c := 2 ^ 149) (by decide) hz
  exact ⟨neg, m, z.natAbs, rfl, hm, hmag, hsign.symm⟩

/-- A whole value is its own floor. -/
theorem R.IsUnits.floorInt {x : R} {z : Int} (h : x.IsUnits (z * 2 ^ 149)) : x.floorInt = z := by
  obtain ⟨neg, m, n, rfl, hm, hu, rfl⟩ := h.exists_whole
  rw [R.floorInt, if_neg hm.ne, hu]
  cases neg with
  | false => simp [signOf]
  | true =>
    have hfloor : (n * 2 ^ 149 + (2 ^ 149 - 1)) / 2 ^ 149 = n := by omega
    rw [hfloor]; simp [signOf]

/-- A whole value is the integer nearest to it. -/
theorem R.IsUnits.roundHalfEven {x : R} {z : Int} (h : x.IsUnits (z * 2 ^ 149)) : x.roundHalfEven = z := by
  obtain ⟨neg, m, n, rfl, hm, hu, rfl⟩ := h.exists_whole
  rw [R.roundHalfEven, if_neg hm.ne, hu, rne_mul_self _ (by decide)]
  cases n with
  | zero => simp
  | succ n => cases neg <;> simp [signOf]

/-! ### Products with 1 and 0, sums with 0 -/

theorem units_one : units 0x3F800000 = 2 ^ 149 := by decide +kernel

theorem R.num_mul_one (neg : Bool) {m : Fin 2139095041} (hm : m.val < infBits) :
    (R.num neg m).mul Config.one = .num neg m := by
  calc (R.num neg m).mul Config.one
    _ = R.round (neg != false) (units m * units 0x3F800000) (2 ^ 149) := R.mul_num neg false m _ hm (by decide)
    _ = .num neg m := by rw [units_one, round_units_mul _ hm (by decide), Bool.bne_false]

theorem R.one_mul_num (neg : Bool) {m : Fin 2139095041} (hm : m.val < infBits) :
    Config.one.mul (.num neg m) = .num neg m := by
  calc Config.one.mul (.num neg m)
    _ = R.round (false != neg) (units 0x3F800000 * units m) (2 ^ 149) := R.mul_num false neg _ m (by decide) hm
    _ = .num neg m := by
      rw [units_one, Nat.mul_comm, round_units_mul _ hm (by decide), Bool.false_bne]

theorem R.IsUnits.mul_zero_eq {x : R} {z : Int} (hx : x.IsUnits z) : (x.mul R.zero).eq R.zero = true :=
  (hx.mul R.isUnits_zero (r := 0) (by ring) ⟨0, by decide, rfl⟩).eq R.isUnits_zero

theorem R.IsUnits.add_zero_eq {x : R} {z : Int} (hx : x.IsUnits z) : (x.add R.zero).eq x = true :=
  R.eq_of_ord (hx.ord_add R.isUnits_zero) (by rw [Int.add_zero]; exact hx.ord_eq)

theorem R.IsUnits.zero_add_eq {x : R} {z : Int} (hx : x.IsUnits z) : (R.zero.add x).eq x = true :=
  R.eq_of_ord (R.isUnits_zero.ord_add hx) (by rw [Int.zero_add]; exact hx.ord_eq)

/-! ### Roots and the angle of the positive axis -/

theorem one_sqrt : Config.one.sqrt = Config.one := by decide +kernel
theorem four_sqrt : Config.four.sqrt = Config.two := by decide +kernel
theorem quarter_sqrt : (decR 0x3E800000).sqrt = Config.half := by decide +kernel

theorem atan2_zero_of_pos {m : Fin 2139095041} (h : 0 < m.val) : R.zero.atan2 (.num false m) = R.zero := by
  have hguard : ((0 : Fin 2139095041).val = 0 && !false && m.val != 0) = true := by simp [h.ne']
  exact if_pos hguard

/-- Settles O23: every result the clause names is representable, so that the one rounding leaves it as it is. -/
theorem exactArithmetic : Obligations.ExactArithmetic := by
  refine ⟨?finite, ?dyadic, ?whole, one_sqrt, four_sqrt, quarter_sqrt, fun m h => atan2_zero_of_pos h⟩
  case finite =>
    intro neg m hm
    have hx := R.isUnits_num neg hm
    exact ⟨R.num_mul_one neg hm, R.one_mul_num neg hm, hx.mul_zero_eq, hx.add_zero_eq, hx.zero_add_eq⟩
  case dyadic =>
    intro a b e f ha hb he hf
    exact ⟨R.dyadic_add ha hb he, R.dyadic_sub ha hb he, R.dyadic_mul ha hb he hf⟩
  case whole =>
    intro n hn
    have hx := R.isUnits_ofNat hn.le
    exact ⟨hx.floorInt, hx.roundHalfEven⟩

end Sys2Proof

namespace Sys2Proof.Machine

/-! ### The mixing commands and the complex operations (R13, R160 to R162) -/

theorem exec_oscMixDown (s : State) (re im : Word) :
    exec (.oscMixDown [re, im]) s = .next (s.respond (encC (mixDown s.nco (decC re im)))) := rfl

theorem exec_oscMixUp (s : State) (re im : Word) :
    exec (.oscMixUp [re, im]) s = .next (s.respond (encC (mixUp s.nco (decC re im)))) := rfl

theorem exec_oscCexp (s : State) : exec (.oscCexp []) s = .next (s.respond (encC (cis s.nco.theta))) := rfl

/-- The angle, its guard as a proposition. -/
theorem carg_eq (a : C) :
    carg a = if a.re.eq R.zero = true ∧ a.im.eq R.zero = true then R.zero else a.im.atan2 a.re := by
  unfold carg
  simp only [Bool.and_eq_true]

/-- Settles O25: each command is its mixer's definition (R154), each complex operation its components'. -/
theorem mixCommands : Obligations.MixCommands := by
  refine ⟨?commands, ?components, fun _ => rfl, fun _ => rfl, fun _ _ => rfl, fun _ _ => ⟨_, _, rfl⟩⟩
  case commands => exact fun s re im => ⟨exec_oscMixDown s re im, exec_oscMixUp s re im, exec_oscCexp s⟩
  case components => exact fun a b g => ⟨rfl, rfl, rfl, rfl, rfl, rfl, rfl, carg_eq a, rfl⟩

end Sys2Proof.Machine

/-! PROOFS of the family 10_state.md: the registers (R32 to R36, R53 to R55), the reset state (R391, R450), the checks of
CONFIGURE (R393), and two invariants of every step, the frame state machine's (R61, R353) and the levels' (R192). -/

namespace Sys2Proof.Machine

/-! ### The fields of a configuration word -/

theorem toNat_byte_zero (w : Word) : (w.extractLsb' 0 8).toNat = w.toNat % 256 := by
  rw [BitVec.extractLsb'_toNat, Nat.shiftRight_zero]

theorem toNat_byte_one (w : Word) : (w.extractLsb' 8 8).toNat = w.toNat / 256 % 256 := by
  rw [BitVec.extractLsb'_toNat, Nat.shiftRight_eq_div_pow]

theorem extract_upper_eq_zero_iff (w : Word) : w.extractLsb' 16 16 = 0 ↔ w.toNat < 65536 := by
  have hw := w.isLt
  rw [← BitVec.toNat_inj, BitVec.extractLsb'_toNat, Nat.shiftRight_eq_div_pow]
  show w.toNat / 2 ^ 16 % 2 ^ 16 = 0 ↔ _
  omega

/-- A word is below a power of two exactly where its bits from there on are zero (R44). -/
theorem toNat_lt_two_pow_iff (w : Word) (d : Nat) : w.toNat < 2 ^ d ↔ ∀ i, d ≤ i → w.getLsbD i = false := by
  constructor
  · intro h i hi
    exact Nat.testBit_lt_two_pow (h.trans_le (Nat.pow_le_pow_right (by decide) hi))
  · exact fun h => Nat.lt_pow_two_of_testBit _ h

theorem unitWord_iff (w : Word) : unitWord w = true ↔ (decR w).ge R.zero = true ∧ (decR w).le Config.one = true := by
  unfold unitWord R.within
  exact Bool.and_eq_true_iff

/-! ### Ids -/

theorem schemeId_of_ofId {n : Nat} {sch : Scheme} (h : Scheme.ofId n = some sch) : sch.id = n := by
  unfold Scheme.ofId at h
  split at h <;> cases h <;> rfl

theorem fecId_of_ofId {n : Nat} {f : Fec} (h : Fec.ofId n = some f) : f.id = n := by
  unfold Fec.ofId at h
  split at h <;> cases h <;> rfl

theorem schemeOfId_eq_none_iff (n : Nat) : Scheme.ofId n = none ↔ n = 0 ∨ 6 < n := by
  match n with
  | 0 | 1 | 2 | 3 | 4 | 5 | 6 => decide
  | n + 7 => exact iff_of_true rfl (by omega)

theorem fecOfId_eq_none_iff (n : Nat) : Fec.ofId n = none ↔ 2 < n := by
  match n with
  | 0 | 1 | 2 => decide
  | n + 3 => exact iff_of_true rfl (by omega)

theorem bps_range (sch : Scheme) : 1 ≤ sch.bps ∧ sch.bps ≤ 8 := by cases sch <;> decide

/-- The header's codes are the two low bytes of HDR_FEC, and nothing stands above them (R46). -/
theorem headerFec_eq_some {w : Word} {fi fo : Fec} (h : headerFec w = some (fi, fo)) :
    fi.id = w.toNat % 256 ∧ fo.id = w.toNat / 256 := by
  unfold headerFec at h
  split at h
  · next gi go hi ho =>
    split at h
    · next hz =>
      cases h
      have hi' := fecId_of_ofId hi
      have ho' := fecId_of_ofId ho
      rw [extract_upper_eq_zero_iff] at hz
      rw [toNat_byte_zero] at hi'
      rw [toNat_byte_one] at ho'
      omega
    · cases h
  · cases h

theorem headerFec_eq_none_iff (w : Word) : headerFec w = none ↔ 2 < w.toNat % 256 ∨ 2 < w.toNat / 256 := by
  have hi := fecOfId_eq_none_iff (w.extractLsb' 0 8).toNat
  have ho := fecOfId_eq_none_iff (w.extractLsb' 8 8).toNat
  have hz := extract_upper_eq_zero_iff w
  have h0 := toNat_byte_zero w
  have h8 := toNat_byte_one w
  unfold headerFec
  split
  · next gi go hgi hgo =>
    rw [hgi] at hi
    rw [hgo] at ho
    simp only [reduceCtorEq, false_iff] at hi ho
    split
    · next hupper =>
      have hsmall := hz.1 hupper
      simp only [reduceCtorEq, false_iff]; omega
    · next hupper =>
      have hlarge := mt hz.2 hupper
      simp only [true_iff]; omega
  · next hno =>
    simp only [true_iff]
    cases hgi : Fec.ofId (w.extractLsb' 0 8).toNat with
    | none => have := hi.1 hgi; omega
    | some gi =>
      cases hgo : Fec.ofId (w.extractLsb' 8 8).toNat with
      | none => have := ho.1 hgo; omega
      | some go => exact (hno gi go hgi hgo).elim

/-! ### The parameter checks (R38 to R44, R47 to R52, R393 step 2) -/

/-- The words in the ranges of the rules. -/
structure ParamsInRange (w : CfgWords) : Prop where
  k : w.kSps.toNat % 2 = 0 ∧ 2 ≤ w.kSps.toNat ∧ w.kSps.toNat ≤ 16
  m : 1 ≤ w.mSemi.toNat ∧ w.mSemi.toNat ≤ 8
  beta : (decR w.beta).ge R.zero = true ∧ (decR w.beta).le Config.one = true
  P : 1 ≤ w.npfb.toNat ∧ w.npfb.toNat ≤ 64
  N : w.nPre.toNat ≤ 1024
  src : w.preSrc = 0 ∨ w.preSrc = 1
  generator : w.preSrc = 1 → 2 ≤ w.prePoly.toNat ∧ ∀ i, w.prePoly.toNat.log2 ≤ i → w.preInit.getLsbD i = false
  depths : w.intlv.toNat % 256 ≠ 0 ∧ w.intlv.toNat / 256 % 256 ≠ 0 ∧ w.intlv.toNat < 65536
  A : (decR w.agcTarget).gt R.zero = true ∧ (decR w.agcTarget).le Config.agcTargetMax = true
  bw : ∀ b ∈ [w.agcBwWide, w.agcBwNarrow, w.pllBwWide, w.pllBwNarrow, w.ssBwWide, w.ssBwNarrow],
    (decR b).ge R.zero = true ∧ (decR b).le Config.one = true
  rmax : (decR w.ssRmax).ge R.zero = true ∧ (decR w.ssRmax).lt ((R.ofNat w.kSps.toNat).div Config.two) = true
  payload : w.maxPayload.toNat ≤ 4096
  mode : w.mode.toNat < 4

theorem toNat_le_one_iff (w : Word) : w.toNat ≤ 1 ↔ w = 0 ∨ w = 1 := by bv_omega

theorem one_le_toNat {w : Word} (h : w ≠ 0) : 1 ≤ w.toNat := by bv_omega

theorem toNat_eq_one_iff (w : Word) : w.toNat = 1 ↔ w = 1 := by bv_omega

theorem depths_iff (w : Word) :
    (1 ≤ (w.extractLsb' 0 8).toNat ∧ 1 ≤ (w.extractLsb' 8 8).toNat ∧ w.extractLsb' 16 16 = 0) ↔
      w.toNat % 256 ≠ 0 ∧ w.toNat / 256 % 256 ≠ 0 ∧ w.toNat < 65536 := by
  rw [extract_upper_eq_zero_iff, toNat_byte_zero, toNat_byte_one]
  omega

/-- The parameter checks pass exactly on the words in range: each conjunct of the check is one field. -/
theorem paramsOk_iff (w : CfgWords) : paramsOk w = true ↔ ParamsInRange w := by
  unfold paramsOk
  simp only [Bool.and_eq_true, Bool.or_eq_true, decide_eq_true_eq, unitWord_iff, toNat_le_one_iff, depths_iff,
    toNat_eq_one_iff, ne_eq, toNat_lt_two_pow_iff]
  constructor
  · rintro ⟨⟨⟨⟨⟨⟨⟨⟨⟨⟨⟨⟨⟨⟨⟨⟨⟨hk, hm⟩, hbeta⟩, hP⟩, hN⟩, hsrc⟩, hgen⟩, hdepths⟩, hA⟩, h1⟩, h2⟩, h3⟩, h4⟩, h5⟩, h6⟩, hrmax⟩,
      hpayload⟩, hmode⟩
    exact ⟨hk, hm, hbeta, hP, hN, hsrc, imp_iff_not_or.2 hgen, hdepths, hA, by simp [*], hrmax,
      hpayload, hmode⟩
  · intro h
    have hbw := h.bw
    simp only [List.forall_mem_cons, List.not_mem_nil, false_imp_iff, implies_true, and_true] at hbw
    obtain ⟨h1, h2, h3, h4, h5, h6⟩ := hbw
    exact ⟨⟨⟨⟨⟨⟨⟨⟨⟨⟨⟨⟨⟨⟨⟨⟨⟨h.k, h.m⟩, h.beta⟩, h.P⟩, h.N⟩, h.src⟩, imp_iff_not_or.1 h.generator⟩, h.depths⟩, h.A⟩, h1⟩,
      h2⟩, h3⟩, h4⟩, h5⟩, h6⟩, h.rmax⟩, h.payload⟩, h.mode⟩

/-! ### The reference (R242) -/

/-- A reference is refused exactly where its energy is not above 0 or is above E_REF_MAX. -/
theorem normaliseRef_eq_none_iff (raw : List C) :
    normaliseRef raw = none ↔
      (rsum (raw.map cabs2)).gt R.zero = false ∨ (rsum (raw.map cabs2)).gt Config.eRefMax = true := by
  unfold normaliseRef
  simp [imp_iff_not_or]

/-- What an accepted reference is: the raw one scaled by the root of its length over its energy. -/
theorem normaliseRef_eq_some {raw ref : List C} (h : normaliseRef raw = some ref) :
    (rsum (raw.map cabs2)).gt R.zero = true ∧ (rsum (raw.map cabs2)).gt Config.eRefMax = false ∧
      ref = raw.map (cscale ((R.ofNat raw.length).div (rsum (raw.map cabs2))).sqrt) := by
  have hsome : ¬ normaliseRef raw = none := by rw [h]; exact Option.some_ne_none _
  rw [normaliseRef_eq_none_iff, not_or, Bool.not_eq_false, Bool.not_eq_true] at hsome
  refine ⟨hsome.1, hsome.2, ?_⟩
  simp [normaliseRef, hsome] at h
  exact h.symm

theorem length_rawReference (w : CfgWords) (m : Cells C) : (rawReference w m).length = w.nPre.toNat := by
  unfold rawReference
  split
  · exact length_genRef _ _ _
  · exact length_memSlice _ _ _

theorem rawReference_generator {w : CfgWords} (m : Cells C) (h : w.preSrc = 1) :
    rawReference w m = genRef w.prePoly w.preInit w.nPre.toNat := by
  unfold rawReference
  rw [if_pos (by rw [h]; rfl)]

theorem rawReference_memory {w : CfgWords} {m : Cells C} (h : w.preSrc = 0)
    (hm : cellsWf C.zero Config.nMax 0 m = true) :
    rawReference w m = (List.range w.nPre.toNat).map (memRead C.zero m) := by
  unfold rawReference
  rw [if_neg (by rw [h]; decide), memSlice_eq hm, List.range_eq_range']

/-! ### The configuration that words in range decode to (R34) -/

theorem le_encLen (f : Fec) (l : Nat) : l ≤ encLen f l := by cases f <;> dsimp only [encLen] <;> omega

/-- A coded part has at least the bits of its message and CRC. -/
theorem chainB0_le_chainL2 (n : Nat) (fi fo : Fec) : 8 * (n + 4) ≤ chainL2 n fi fo :=
  (le_encLen fo _).trans (le_encLen fi _)

/-- A part of `b` bits takes `b / bps` symbols, rounded up. -/
theorem le_symbolCount {n b bps : Nat} (hbps : 0 < bps) (h : (n - 1) * bps < b) : n ≤ (b + bps - 1) / bps := by
  rw [Nat.le_div_iff_mul_le hbps]
  rcases n with _ | n
  · omega
  · rw [Nat.add_mul]; simp only [Nat.add_sub_cancel] at h; omega

/-- The header has 80 bits at least, at most 8 a symbol. -/
theorem ten_le_headerSymbols (sch : Scheme) (fi fo : Fec) : 10 ≤ (chainL2 6 fi fo + sch.bps - 1) / sch.bps := by
  have hbps := bps_range sch
  have hL2 := chainB0_le_chainL2 6 fi fo
  exact le_symbolCount (by omega) (by omega)

section
variable {w : CfgWords} (sch : Scheme) (fi fo : Fec)

theorem decodeCfg_preSrc_memory (h : w.preSrc = 0 ∨ w.preSrc = 1) :
    (decodeCfg w sch fi fo).preSrc = .memory ↔ w.preSrc = 0 := by
  rcases h with h | h <;> simp [decodeCfg, h]

theorem decodeCfg_preSrc_generator : (decodeCfg w sch fi fo).preSrc = .generator ↔ w.preSrc = 1 := by
  rw [← toNat_eq_one_iff]
  simp [decodeCfg]

/-- Words in range, with a reference of at least one symbol, decode to a legal configuration. -/
theorem cfgOk_decodeCfg (hN : w.nPre ≠ 0) (h : ParamsInRange w) : CfgOk (decodeCfg w sch fi fo) := by
  have hbw := h.bw
  simp only [List.forall_mem_cons, List.not_mem_nil, false_imp_iff, implies_true, and_true, ← unitWord_iff] at hbw
  obtain ⟨h1, h2, h3, h4, h5, h6⟩ := hbw
  have hdepths := (depths_iff _).2 h.depths
  exact
    { k_even := h.k.1
      k_range := h.k.2
      m_range := h.m
      beta_range := (unitWord_iff _).2 h.beta
      P_range := h.P
      N_range := ⟨one_le_toNat hN, h.N⟩
      generator := fun hg =>
        have hgen := h.generator ((decodeCfg_preSrc_generator sch fi fo).1 hg)
        ⟨hgen.1, (toNat_lt_two_pow_iff _ _).2 hgen.2⟩
      D1_range := ⟨hdepths.1, BitVec.isLt _⟩
      D2_range := ⟨hdepths.2.1, BitVec.isLt _⟩
      A_range := h.A
      agc_bw := ⟨h1, h2⟩
      pll_bw := ⟨h3, h4⟩
      ss_bw := ⟨h5, h6⟩
      rmax_range := h.rmax
      payload_range := h.payload
      taps := rfl
      hdr_bps := rfl
      hdr_syms := rfl }

end

/-- What CONFIGURE accepts is a legal configuration. -/
theorem cfgOk_of_checkConfig {w : CfgWords} {m : Cells C} {cfg : Cfg} {ref : List C}
    (h : checkConfig w m = .ok (cfg, ref)) : CfgOk cfg := by
  obtain ⟨hN, hp, -, sch, fi, fo, -, -, rfl⟩ := checkConfig_ok h
  exact cfgOk_decodeCfg sch fi fo hN ((paramsOk_iff w).1 hp)

/-- The reset words decode to the reset configuration (R34). -/
theorem cfgReset_eq : Cfg.reset = decodeCfg CfgWords.reset .qpsk .none .none := by decide

theorem cfgReset_ok : CfgOk Cfg.reset := by
  rw [cfgReset_eq]
  exact cfgOk_decodeCfg _ _ _ (by decide) ((paramsOk_iff _).1 (by decide))

/-! ### CONFIGURE's checks -/

/-- Settles O17: words that pass the checks decode to a legal configuration, and the reference is the raw one scaled. -/
theorem configureAccepts : Obligations.ConfigureAccepts := by
  intro w m cfg ref h
  have hok := cfgOk_of_checkConfig h
  obtain ⟨-, hp, href, sch, fi, fo, hsch, hfec, rfl⟩ := checkConfig_ok h
  obtain ⟨hpos, hmax, rfl⟩ := normaliseRef_eq_some href
  have hparams := (paramsOk_iff w).1 hp
  obtain ⟨hfi, hfo⟩ := headerFec_eq_some hfec
  have hlen := length_rawReference w m
  have hD2 : w.intlv.toNat / 256 % 256 = w.intlv.toNat / 256 := by have := hparams.depths; omega
  refine ⟨hok, by rw [List.length_map, hlen]; rfl, ten_le_headerSymbols sch fi fo, ?fields, ?reference⟩
  case fields =>
    exact ⟨rfl, rfl, rfl, rfl, rfl, decodeCfg_preSrc_memory _ _ _ hparams.src, decodeCfg_preSrc_generator _ _ _, rfl, rfl,
      schemeId_of_ofId hsch, hfi, hfo, toNat_byte_zero _, (toNat_byte_one _).trans hD2, rfl, rfl, rfl, rfl,
      rfl, rfl, rfl, rfl, rfl, rfl, rfl⟩
  case reference =>
    refine ⟨rawReference w m, _, rawReference_generator m, rawReference_memory, rfl, hpos, hmax, ?_⟩
    rw [hlen]; rfl

section
variable {w : CfgWords} {m : Cells C}

/-! The order of R393: each check is reached where those before it pass. -/

theorem checkConfig_empty (h : w.nPre = 0) : checkConfig w m = .error .cfgBadPreamble := if_pos h

theorem checkConfig_badParam (hN : w.nPre ≠ 0) (h : paramsOk w = false) : checkConfig w m = .error .cfgBadParam := by
  rw [checkConfig, if_neg hN]
  simp [h]

theorem checkConfig_badReference (hN : w.nPre ≠ 0) (hp : paramsOk w = true)
    (h : normaliseRef (rawReference w m) = none) : checkConfig w m = .error .cfgBadPreamble := by
  rw [checkConfig, if_neg hN]
  simp [hp, h]

theorem checkConfig_badScheme (hN : w.nPre ≠ 0) (hp : paramsOk w = true)
    (href : normaliseRef (rawReference w m) ≠ none) (h : Scheme.ofId w.hdrMod.toNat = none) :
    checkConfig w m = .error .cfgBadMod := by
  obtain ⟨ref, href⟩ := Option.ne_none_iff_exists'.1 href
  rw [checkConfig, if_neg hN]
  simp [hp, href, h]

theorem checkConfig_badFec (hN : w.nPre ≠ 0) (hp : paramsOk w = true)
    (href : normaliseRef (rawReference w m) ≠ none) (hsch : Scheme.ofId w.hdrMod.toNat ≠ none)
    (h : headerFec w.hdrFec = none) : checkConfig w m = .error .cfgBadFec := by
  obtain ⟨ref, href⟩ := Option.ne_none_iff_exists'.1 href
  obtain ⟨sch, hsch⟩ := Option.ne_none_iff_exists'.1 hsch
  rw [checkConfig, if_neg hN]
  simp [hp, href, hsch, h]

theorem checkConfig_accepts (hN : w.nPre ≠ 0) (hp : paramsOk w = true)
    (href : normaliseRef (rawReference w m) ≠ none) (hsch : Scheme.ofId w.hdrMod.toNat ≠ none)
    (hfec : headerFec w.hdrFec ≠ none) : ∃ r, checkConfig w m = .ok r := by
  obtain ⟨ref, href⟩ := Option.ne_none_iff_exists'.1 href
  obtain ⟨sch, hsch⟩ := Option.ne_none_iff_exists'.1 hsch
  obtain ⟨⟨fi, fo⟩, hfec⟩ := Option.ne_none_iff_exists'.1 hfec
  exact ⟨(decodeCfg w sch fi fo, ref), by rw [checkConfig, if_neg hN]; simp [hp, href, hsch, hfec]⟩

end

/-- Settles O18: one lemma for each check of R393, in its order. -/
theorem configureCheckOrder : Obligations.ConfigureCheckOrder := by
  refine ⟨?ranges, normaliseRef_eq_none_iff, ?order⟩
  case ranges =>
    intro w
    rw [paramsOk_iff]
    constructor
    · exact fun h => ⟨h.k, h.m, h.beta, h.P, h.N, h.src, h.generator, h.depths, h.A, h.bw, h.rmax, h.payload, h.mode⟩
    · rintro ⟨hk, hm, hbeta, hP, hN, hsrc, hgen, hdepths, hA, hbw, hrmax, hpayload, hmode⟩
      exact ⟨hk, hm, hbeta, hP, hN, hsrc, hgen, hdepths, hA, hbw, hrmax, hpayload, hmode⟩
  case order =>
    intro w m
    refine ⟨checkConfig_empty, checkConfig_badParam, checkConfig_badReference, fun hN hp href => ⟨?scheme, ?codes⟩⟩
    case scheme =>
      exact fun h => checkConfig_badScheme hN hp href ((schemeOfId_eq_none_iff _).2 (h.imp_left fun h0 => by rw [h0]; rfl))
    case codes =>
      intro hne hle
      have hpos := one_le_toNat hne
      have hsch : Scheme.ofId w.hdrMod.toNat ≠ none := by rw [ne_eq, schemeOfId_eq_none_iff]; omega
      constructor
      · exact fun h => checkConfig_badFec hN hp href hsch ((headerFec_eq_none_iff _).2 h)
      · intro hi ho
        refine checkConfig_accepts hN hp href hsch ?_
        rw [ne_eq, headerFec_eq_none_iff]
        omega

/-! ### The register map (R32) -/

/-- The address of a CFG register. -/
def CfgReg.addr : CfgReg → BitVec 8
  | .kSps => 0x08 | .mSemi => 0x09 | .beta => 0x0A | .npfb => 0x0B | .nPre => 0x0C | .preSrc => 0x0D
  | .prePoly => 0x0E | .preInit => 0x0F | .hdrMod => 0x10 | .hdrFec => 0x11 | .intlv => 0x12 | .agcTarget => 0x13
  | .agcBwWide => 0x14 | .agcBwNarrow => 0x15 | .pllBwWide => 0x16 | .pllBwNarrow => 0x17 | .ssBwWide => 0x18
  | .ssBwNarrow => 0x19 | .ssRmax => 0x1A | .maxPayload => 0x1B | .mode => 0x1C

/-- The address of a register. -/
def Reg.addr : Reg → BitVec 8
  | .status => 0x00 | .err => 0x01 | .symcnt => 0x02 | .hdrSyms => 0x03 | .paySyms => 0x04
  | .cfg q => q.addr
  | .thresh => 0x20 | .ncoPhase => 0x21 | .ncoFreq => 0x22 | .agcEnergy => 0x23 | .agcBw => 0x24 | .pllBw => 0x25
  | .ssBw => 0x26 | .demScheme => 0x27 | .ssTau => 0x28 | .ssRate => 0x29 | .detTau => 0x2C | .detDfreq => 0x2D
  | .detPhase => 0x2E | .detGain => 0x2F | .detMetric => 0x30 | .hdrWord0 => 0x31 | .hdrWord1 => 0x32
  | .framesDetected => 0x38 | .headersValid => 0x39 | .payloadsValid => 0x3A | .rssi => 0x3B | .cfo => 0x3C
  | .evm => 0x3D

/-- The registers in the order of their addresses. -/
def registerMap : List Reg :=
  [.status, .err, .symcnt, .hdrSyms, .paySyms, .cfg .kSps, .cfg .mSemi, .cfg .beta, .cfg .npfb, .cfg .nPre,
    .cfg .preSrc, .cfg .prePoly, .cfg .preInit, .cfg .hdrMod, .cfg .hdrFec, .cfg .intlv, .cfg .agcTarget,
    .cfg .agcBwWide, .cfg .agcBwNarrow, .cfg .pllBwWide, .cfg .pllBwNarrow, .cfg .ssBwWide, .cfg .ssBwNarrow,
    .cfg .ssRmax, .cfg .maxPayload, .cfg .mode, .thresh, .ncoPhase, .ncoFreq, .agcEnergy, .agcBw, .pllBw, .ssBw,
    .demScheme, .ssTau, .ssRate, .detTau, .detDfreq, .detPhase, .detGain, .detMetric, .hdrWord0, .hdrWord1,
    .framesDetected, .headersValid, .payloadsValid, .rssi, .cfo, .evm]

theorem ofAddr_addr (r : Reg) : Reg.ofAddr r.addr = some r := by
  cases r with
  | cfg q => cases q <;> rfl
  | _ => rfl

theorem addr_of_ofAddr {a : BitVec 8} {r : Reg} (h : Reg.ofAddr a = some r) : r.addr = a := by
  unfold Reg.ofAddr at h
  split at h <;> cases h <;> exact (BitVec.eq_of_toNat_eq ‹a.toNat = _›).symm

/-- An address that no register has is unmapped. -/
theorem ofAddr_eq_none {a : BitVec 8} (h : ∀ r : Reg, r.addr ≠ a) : Reg.ofAddr a = none := by
  cases hr : Reg.ofAddr a with
  | none => rfl
  | some r => exact (h r (addr_of_ofAddr hr)).elim

/-- The gaps of the register map, and its end. -/
theorem addr_not_gap (r : Reg) :
    r.addr.toNat ∉ [0x05, 0x06, 0x07, 0x1D, 0x1E, 0x1F, 0x2A, 0x2B, 0x33, 0x34, 0x35, 0x36, 0x37] ∧
      r.addr.toNat < 0x3E := by
  cases r with
  | cfg q => cases q <;> decide
  | _ => decide

/-- The CFG registers, by R33's classes. -/
def Reg.isCfg : Reg → Bool
  | .cfg _ => true
  | _ => false

/-- The registers that accept a write: the CFG and LIVE registers, and ERR. -/
def Reg.isWritable : Reg → Bool
  | .cfg _ | .err | .thresh | .ncoPhase | .ncoFreq | .agcEnergy => true
  | _ => false

theorem ofAddr_cfg_range : ∀ a : BitVec 8, 0x08 ≤ a.toNat → a.toNat ≤ 0x1C → (Reg.ofAddr a).any Reg.isCfg = true := by
  decide

theorem ofAddr_cfg {a : BitVec 8} (hlo : 0x08 ≤ a.toNat) (hhi : a.toNat ≤ 0x1C) :
    ∃ q, Reg.ofAddr a = some (.cfg q) := by
  obtain ⟨r, hr, hcfg⟩ := (Option.any_eq_true _ _).1 (ofAddr_cfg_range a hlo hhi)
  cases r with
  | cfg q => exact ⟨q, hr⟩
  | _ => cases hcfg

/-- Where the writable registers stand: in the first part of the map, but for STATUS and the counters. -/
theorem addr_of_writable {r : Reg} (h : r.isWritable = true) :
    r.addr.toNat ∉ [0x00, 0x02, 0x03, 0x04, 0x05, 0x06, 0x07, 0x1D, 0x1E, 0x1F] ∧ r.addr.toNat < 0x24 := by
  cases r with
  | cfg q => cases q <;> decide
  | err | thresh | ncoPhase | ncoFreq | agcEnergy => decide
  | _ => cases h

/-! ### REG_READ and REG_WRITE (R396, R397) -/

section
variable {a : BitVec 8} {r : Reg} (s : State) (v : Word)

theorem exec_regRead_mapped (h : Reg.ofAddr a = some r) :
    exec (.regRead a []) s = .next (s.respond [regValue s r]) := by
  show execRegRead a [] s = _
  simp only [execRegRead, h, settle_ok]

theorem exec_regRead_unmapped (h : Reg.ofAddr a = none) :
    exec (.regRead a []) s = .next (s.failWith .badReg [0]) := by
  show execRegRead a [] s = _
  simp only [execRegRead, h, settle_error]
  rfl

theorem exec_regWrite_ok {t : State} (h : Reg.ofAddr a = some r) (ht : regWritten s v r = .ok t) :
    exec (.regWrite a [v]) s = .next (t.respond []) := by
  show execRegWrite a [v] s = _
  simp only [execRegWrite, h, ht, settle_ok]

theorem exec_regWrite_error {c : ErrCode} (h : Reg.ofAddr a = some r) (hc : regWritten s v r = .error c) :
    exec (.regWrite a [v]) s = .next (s.failWith c []) := by
  show execRegWrite a [v] s = _
  simp only [execRegWrite, h, hc, settle_error]
  rfl

theorem exec_regWrite_unmapped (h : Reg.ofAddr a = none) :
    exec (.regWrite a [v]) s = .next (s.failWith .badReg []) := by
  show execRegWrite a [v] s = _
  simp only [execRegWrite, h, settle_error]
  rfl

theorem regWritten_readOnly (h : r.isWritable = false) : regWritten s v r = .error .badReg := by
  cases r <;> first | rfl | cases h

end

/-- A write of a CFG word is seen through its own register alone. -/
theorem regValue_set_words {s : State} {v : Word} {q : CfgReg} {r : Reg} (h : r ≠ .cfg q) :
    regValue { s with words := s.words.set v q } r = regValue s r := by
  cases r with
  | cfg p =>
    show (s.words.set v q).get p = s.words.get p
    rw [words_get_set, if_neg fun hpq => h (by rw [hpq])]
  | _ => rfl

/-- A read at another address answers the same after a write of a CFG word, be it a value or a failure. -/
theorem exec_regRead_set_words {a b : BitVec 8} {s : State} {v : Word} {q : CfgReg} {ws : List Word}
    (ha : Reg.ofAddr a = some (.cfg q)) (hne : b ≠ a) (h : exec (.regRead b []) s = .next (s.respond ws)) :
    exec (.regRead b []) { s with words := s.words.set v q } =
      .next ({ s with words := s.words.set v q }.respond ws) := by
  cases hb : Reg.ofAddr b with
  | none =>
    rw [exec_regRead_unmapped _ hb] at h ⊢
    injection h with hfail
    exact congrArg (fun t : State => Host.Outcome.next { t with words := s.words.set v q }) hfail
  | some r =>
    have hr : r ≠ .cfg q := fun hrq => hne ((addr_of_ofAddr hb).symm.trans (hrq ▸ addr_of_ofAddr ha))
    rw [exec_regRead_mapped _ hb] at h ⊢
    rw [regValue_set_words hr]
    injection h with hread
    exact congrArg (fun t : State => Host.Outcome.next { t with words := s.words.set v q }) hread

/-- Settles O13: a CFG word is read back through its own address alone, and the write of any other class is refused. -/
theorem registerClasses : Obligations.RegisterClasses := by
  refine ⟨?cfg, ?readOnly⟩
  case cfg =>
    intro a s v hlo hhi
    obtain ⟨q, hq⟩ := ofAddr_cfg hlo hhi
    refine ⟨s.words.set v q, exec_regWrite_ok s v hq rfl, ?_, fun b hne ws => exec_regRead_set_words hq hne⟩
    have hread : regValue { s with words := s.words.set v q } (.cfg q) = v := by
      show (s.words.set v q).get q = v
      rw [words_get_set, if_pos rfl]
    rw [exec_regRead_mapped _ hq, hread]
  case readOnly =>
    intro a s v ha
    cases hr : Reg.ofAddr a with
    | none => exact exec_regWrite_unmapped s v hr
    | some r =>
      have hclass : r.isWritable = false := by
        by_contra hw
        obtain ⟨hgap, hlt⟩ := addr_of_writable (Bool.not_eq_false _ ▸ hw)
        rw [addr_of_ofAddr hr] at hgap hlt
        exact ha.elim hgap (Nat.not_le_of_lt hlt)
      exact exec_regWrite_error s v hr (regWritten_readOnly s v hclass)

/-- A column of the register map: the addresses with the words that a state's registers hold. -/
theorem exec_regRead_column {s : State} {column : List (BitVec 8 × Word)}
    (h : column = registerMap.map fun r => (r.addr, regValue s r)) :
    ∀ p ∈ column, exec (.regRead p.1 []) s = .next (s.respond [p.2]) := by
  rw [h, List.forall_mem_map]
  exact fun r _ => exec_regRead_mapped s (ofAddr_addr r)

/-- The phases as STATUS numbers them (R35). -/
theorem phaseCodes : [Phase.seek, .header, .payload, .reset].map Phase.code = [0, 1, 2, 3] := rfl

/-- Settles O12: the statement's two lists are the register map with its words, in any state and at reset. -/
theorem registerReads : Obligations.RegisterReads :=
  ⟨phaseCodes, fun _ => exec_regRead_column (by rfl), exec_regRead_column (by rfl),
    fun _ s ha => exec_regRead_unmapped s (ofAddr_eq_none fun r hr => by
      obtain ⟨hgap, hlt⟩ := hr ▸ addr_not_gap r
      exact ha.elim hgap (Nat.not_le_of_lt hlt))⟩

/-- Settles O14: the two oscillator registers take any word, the other two check it. -/
theorem liveWrites : Obligations.LiveWrites := by
  intro s v
  refine ⟨rfl, rfl, ?thresh, ?energy⟩
  case thresh =>
    split
    · next hv => exact exec_regWrite_ok s v (r := .thresh) rfl (if_pos hv)
    · next hv => exact exec_regWrite_error s v (r := .thresh) rfl (if_neg hv)
  case energy =>
    split
    · next hv => exact exec_regWrite_ok s v (r := .agcEnergy) rfl (if_pos hv)
    · next hv => exact exec_regWrite_error s v (r := .agcEnergy) rfl (if_neg hv)

/-! ### The error record (R36) -/

theorem errCode_le (c : ErrCode) : c.code ≤ 8 := by cases c <;> decide

theorem toNat_errWord (e : ErrRec) : (errWord e).toNat = 256 * e.last.code + e.first.code := by
  have hl := errCode_le e.last
  have hf := errCode_le e.first
  unfold errWord
  rw [BitVec.toNat_ofNat]
  omega

/-- Settles O7: the record's two codes are at most 8, so that each has its byte of ERR to itself. -/
theorem errorRecord : Obligations.ErrorRecord := by
  refine ⟨rfl, fun _ _ _ => ⟨rfl, rfl⟩, ?fields, fun _ _ => rfl, fun _ => rfl⟩
  case fields =>
    intro e
    have hl := errCode_le e.last
    have hf := errCode_le e.first
    have hword := toNat_errWord e
    rw [toNat_byte_zero, toNat_byte_one, extract_upper_eq_zero_iff]
    omega

/-! ### RESET_BLOCK (R391, R450) -/

/-- Settles O11: the energy is the target's square, and the
rest is read off `State.reset`. -/
theorem resetBlockResets : Obligations.ResetBlockResets := by
  refine ⟨fun _ => rfl, CfgWords.reset, State.reset, rfl, rfl, ?cfg, rfl, rfl, ?agc, ?rest⟩
  case cfg => decide
  case agc =>
    have hone : Config.one.mul Config.one = Config.one := R.num_mul_one false (by decide)
    exact congrArg (Agc.mk · Cfg.reset.agcBwW) hone.symm
  case rest =>
    exact ⟨fun _ => rfl, fun _ => rfl, rfl, rfl, rfl, rfl, rfl, rfl, fun _ => ⟨rfl, rfl, rfl⟩, rfl, rfl, rfl, rfl, rfl,
      rfl, rfl, rfl, rfl, rfl, rfl, rfl, rfl, rfl, rfl, rfl, rfl, rfl, fun _ => rfl, fun _ => rfl⟩

/-! ### What a step can do -/

theorem illegal_next {s t : State} {e : DecodeError} (h : illegal s e = .next t) :
    ∃ r, t = s.failWith .illegalCmd r := by
  cases e with
  | reservedOp op => cases h; exact ⟨_, rfl⟩
  | reservedImm o => cases h; exact ⟨_, rfl⟩

/-- Everything a step can do: wait, fail with a code, or complete an effect, the oldest transaction taken off. -/
theorem step_next {s t : State} (h : step s = .next t) :
    t = s ∨ ∃ rest, (∃ c r, t = { s with cmds := rest }.failWith c r) ∨
      ∃ i u r, Effect { s with cmds := rest } i u r ∧ t = u.respond r := by
  unfold step at h
  split at h
  · cases h; exact .inl rfl
  · next tr rest hcmds =>
    refine .inr ⟨rest, ?_⟩
    split at h
    · next i hdecode =>
      obtain ⟨c, -, rfl⟩ | ⟨u, r, he, rfl⟩ := exec_next h
      · exact .inl ⟨_, _, rfl⟩
      · exact .inr ⟨i, u, r, he, rfl⟩
    · obtain ⟨r, rfl⟩ := illegal_next h
      exact .inl ⟨_, _, rfl⟩

/-- `P` does not look at the command and response ports nor at the error record. -/
def PortFree (P : State → Prop) : Prop :=
  ∀ (s : State) (cmds : List Transaction) (resp : List (List Word)) (err : ErrRec),
    P s → P { s with cmds := cmds, resp := resp, err := err }

/-- An invariant that no port matters to is kept by every step if every effect of a command keeps it. -/
theorem keptByStep_of_effect {P : State → Prop} (hports : PortFree P)
    (heffect : ∀ {s t : State} {i : Instr} {r : List Word}, P s → Effect s i t r → P t) : KeptByStep P := by
  intro s t hs h
  obtain rfl | ⟨rest, ⟨c, r, rfl⟩ | ⟨i, u, r, he, rfl⟩⟩ := step_next h
  · exact hs
  · exact hports s rest _ _ hs
  · exact hports u u.cmds _ u.err (heffect (hports s rest s.resp s.err hs) he)

/-- The ways of a register write that succeeds (R33, R397). -/
theorem regWritten_ok {s t : State} {v : Word} {r : Reg} (h : regWritten s v r = .ok t) :
    (∃ q, t = { s with words := s.words.set v q }) ∨ t = { s with err := { first := .none, last := .none } } ∨
      (∃ n, t = { s with nco := n }) ∨
      ((decR v).within R.zero Config.one = true ∧ t = { s with thresh := decR v }) ∨
      ((decR v).within R.zero Config.eMax = true ∧ t = { s with agc := { s.agc with e := decR v } }) := by
  unfold regWritten at h
  split at h
  · next q => cases h; exact .inl ⟨q, rfl⟩
  · cases h; exact .inr (.inl rfl)
  · split at h
    · next hv => cases h; exact .inr (.inr (.inr (.inl ⟨hv, rfl⟩)))
    · cases h
  · cases h; exact .inr (.inr (.inl ⟨_, rfl⟩))
  · cases h; exact .inr (.inr (.inl ⟨_, rfl⟩))
  · split at h
    · next hv => cases h; exact .inr (.inr (.inr (.inr ⟨hv, rfl⟩)))
    · cases h
  · cases h

/-- The induction over the samples of EXECUTE and the symbols each gives (R341). -/
theorem runSamples_keeps {P : State → Prop}
    (hfront : ∀ x s, P s → P { (frontEnd x s).1 with ss := (ssPush s.cfg (frontEnd x s).2 s.ss).1 })
    (hsymbol : ∀ y s, P s → P (symbol y s)) (xs : List C) {s : State} (hs : P s) : P (runSamples xs s) :=
  List.foldlRecOn xs _ hs fun s hs x _ => List.foldlRecOn _ _ (hfront x s hs) fun s hs y _ => hsymbol y s hs

/-! ### The frame state machine (R61, R353, R357) -/

theorem phaseOk_header {s : State} (h : s.fsm.phase = .header) :
    PhaseOk s ↔ s.fsm.cnt < s.fsm.hdrSyms ∧ s.fsm.bits.length ≤ bitLimit s := by
  simp [PhaseOk, bitLimit, h]

theorem phaseOk_payload {s : State} (h : s.fsm.phase = .payload) :
    PhaseOk s ↔ s.fsm.cnt < s.fsm.paySyms ∧ s.fsm.bits.length ≤ bitLimit s := by
  simp [PhaseOk, bitLimit, h]

theorem phaseOk_phase_ne_reset {s : State} (h : PhaseOk s) : s.fsm.phase ≠ .reset := by
  intro hp
  simp [PhaseOk, hp] at h

@[simp] theorem takeSymbol_cnt (y : C) (s : State) : (takeSymbol y s).fsm.cnt = s.fsm.cnt + 1 := rfl
@[simp] theorem takeSymbol_hdrSyms (y : C) (s : State) : (takeSymbol y s).fsm.hdrSyms = s.fsm.hdrSyms := rfl
@[simp] theorem takeSymbol_paySyms (y : C) (s : State) : (takeSymbol y s).fsm.paySyms = s.fsm.paySyms := rfl

/-- A symbol's bits are stored up to the limit of the phase alone (R354). -/
theorem takeSymbol_bits_le (y : C) {s : State} (h : s.fsm.bits.length ≤ bitLimit s) :
    (takeSymbol y s).fsm.bits.length ≤ bitLimit s := by
  simp only [takeSymbol, List.length_append, List.length_take]
  omega

theorem detect_fsm (d : Detection) (s : State) :
    (detect d s).fsm = { s.fsm with cnt := 0, bits := [], phase := .header } := by
  unfold detect
  dsimp only
  split <;> rfl

theorem startPayload_fsm (sch : Scheme) (h : Header) (s : State) :
    (startPayload sch h s).fsm =
      { s.fsm with
        hdr := h
        paySyms := (chainL2 h.len.toNat h.fecI h.fecO + sch.bps - 1) / sch.bps
        cnt := 0, bits := [], evmAcc := R.zero, phase := .payload } := by
  unfold startPayload
  dsimp only
  split <;> rfl

theorem doReset_phaseOk (restore : Bool) (s : State) : PhaseOk (doReset restore s) := ⟨rfl, rfl⟩

/-- A detection starts a header, which has a symbol at least. -/
theorem detect_phaseOk (d : Detection) {s : State} (h : 0 < s.fsm.hdrSyms) : PhaseOk (detect d s) := by
  have hphase : (detect d s).fsm.phase = .header := by rw [detect_fsm]
  rw [phaseOk_header hphase, detect_fsm]
  exact ⟨h, Nat.zero_le _⟩

/-- A payload has the four bytes of its CRC at least, so a symbol at least. -/
theorem startPayload_phaseOk (sch : Scheme) (h : Header) (s : State) : PhaseOk (startPayload sch h s) := by
  have hphase : (startPayload sch h s).fsm.phase = .payload := by rw [startPayload_fsm]
  have hbits := chainB0_le_chainL2 h.len.toNat h.fecI h.fecO
  have hsyms : 1 ≤ (chainL2 h.len.toNat h.fecI h.fecO + sch.bps - 1) / sch.bps :=
    le_symbolCount (bps_range sch).1 (by omega)
  rw [phaseOk_payload hphase, startPayload_fsm]
  exact ⟨hsyms, Nat.zero_le _⟩

theorem headerDone_phaseOk (s : State) : PhaseOk (headerDone s) := by
  obtain h | ⟨sch, hdr, -, h⟩ := headerDone_cases s
  · rw [h]; exact doReset_phaseOk _ _
  · rw [h]; exact startPayload_phaseOk _ _ _

theorem payloadDone_phaseOk (s : State) : PhaseOk (payloadDone s) := doReset_phaseOk _ _

/-- A symbol keeps the bounds of its phase, where a header has a symbol at least. -/
theorem symbol_phaseOk (y : C) {s : State} (hsyms : 0 < s.fsm.hdrSyms) (hs : PhaseOk s) : PhaseOk (symbol y s) := by
  obtain ⟨hp, -, h⟩ | ⟨d, hp, -, h⟩ | ⟨hp, hcnt, h⟩ | ⟨hp, hcnt, h⟩ | ⟨hp, hcnt, h⟩ | ⟨hp, hcnt, h⟩ | ⟨hp, h⟩ :=
    symbol_cases y s
  all_goals rw [h]
  · exact hs
  · exact detect_phaseOk d hsyms
  · exact headerDone_phaseOk _
  · obtain ⟨hlt, hbits⟩ := (phaseOk_header hp).1 hs
    refine (phaseOk_header (s := takeSymbol y s) hp).2 ⟨?_, takeSymbol_bits_le y hbits⟩
    rw [takeSymbol_cnt, takeSymbol_hdrSyms]; omega
  · exact payloadDone_phaseOk _
  · obtain ⟨hlt, hbits⟩ := (phaseOk_payload hp).1 hs
    refine (phaseOk_payload (s := takeSymbol y s) hp).2 ⟨?_, takeSymbol_bits_le y hbits⟩
    rw [takeSymbol_cnt, takeSymbol_paySyms]; omega
  · exact (phaseOk_phase_ne_reset hs hp).elim

theorem CfgOk.hdrSyms_pos {c : Cfg} (h : CfgOk c) : 0 < c.hdrSyms := by
  have := ten_le_headerSymbols c.hdrMod c.hdrFi c.hdrFo
  rw [h.hdr_syms]
  omega

/-- What the pipeline needs besides `FrameOk`: the block is configured, so that its header count is the legal one. -/
def Receiving (s : State) : Prop := FrameOk s ∧ s.configured = true

theorem symbol_receiving (y : C) (s : State) (hs : Receiving s) : Receiving (symbol y s) := by
  obtain ⟨⟨hcfg, hphase, -, hhdr⟩, hconf⟩ := hs
  have hkeep := symbol_streamed y s
  have hsyms := hhdr hconf
  have hconf' : (symbol y s).configured = true := hkeep.configured.trans hconf
  refine ⟨⟨hkeep.cfg ▸ hcfg, symbol_phaseOk y (hsyms ▸ hcfg.hdrSyms_pos) hphase, ?unconfigured, ?count⟩, hconf'⟩
  case unconfigured => exact fun h => absurd hconf' (by rw [h]; exact Bool.false_ne_true)
  case count => exact fun _ => by rw [hkeep.hdrSyms, hkeep.cfg, hsyms]

theorem runSamples_receiving (xs : List C) {s : State} (hs : Receiving s) : Receiving (runSamples xs s) :=
  runSamples_keeps (fun _ _ h => h) symbol_receiving xs hs

/-- A block just configured is in SEEK, with the header's symbol count of its configuration. -/
theorem startReceiver_frameOk {s : State} (h : CfgOk s.cfg) : FrameOk (startReceiver s) :=
  ⟨h, ⟨rfl, rfl⟩, fun _ => rfl, fun _ => rfl⟩

theorem resetBlock_frameOk (s : State) : FrameOk (resetBlock s) :=
  ⟨cfgReset_ok, ⟨rfl, rfl⟩, fun _ => rfl, fun h => (Bool.false_ne_true h).elim⟩

/-- No register write reaches the frame state machine or the configuration. -/
theorem regWritten_frameOk {s t : State} {v : Word} {r : Reg} (hs : FrameOk s) (h : regWritten s v r = .ok t) :
    FrameOk t := by
  obtain ⟨q, rfl⟩ | rfl | ⟨n, rfl⟩ | ⟨-, rfl⟩ | ⟨-, rfl⟩ := regWritten_ok h <;> exact hs

/-- RESET_BLOCK, CONFIGURE and EXECUTE alone move the frame state machine. -/
theorem Effect.frameOk {s t : State} {i : Instr} {r : List Word} (hs : FrameOk s) (h : Effect s i t r) : FrameOk t := by
  cases h with
  | resetBlock => exact resetBlock_frameOk s
  | configure cfg ref hok => exact startReceiver_frameOk (cfgOk_of_checkConfig hok)
  | execute n ws hn hc => exact (runSamples_receiving _ ⟨hs, hc⟩).1
  | regWrite a v r hr t ht => exact regWritten_frameOk hs ht
  | _ => exact hs

/-- Settles O58: each effect keeps `FrameOk`, the samples of EXECUTE by induction. -/
theorem frameStaysBounded : Obligations.FrameStaysBounded :=
  keptByStep_of_effect (fun _ _ _ _ h => h) Effect.frameOk

/-! ### The levels (R53, R59, R170, R192, R195, R225) -/

/-- The square of an AGC target, the energy CONFIGURE starts with (R395), is in the range of the energy. -/
theorem agcTarget_sq_within {A : R} (hpos : A.gt R.zero = true) (hle : A.le Config.agcTargetMax = true) :
    (A.mul A).within R.zero Config.eMax = true := by
  obtain ⟨z, a, hz, ha, hza⟩ := (R.lt_iff _ _).1 hpos
  obtain ⟨a', top, ha', htop, hatop⟩ := (R.le_iff _ _).1 hle
  cases hz
  cases htop
  cases A with
  | nan neg f => cases ha
  | num neg m =>
    rw [R.ord_num] at ha ha'
    cases ha'
    cases ha
    obtain rfl : neg = false := by
      cases neg with
      | false => rfl
      | true => simp at hza; omega
    have hm : m.val ≤ 0x47800000 := by simpa using hatop
    have hfin : m.val < infBits := by unfold infBits; omega
    have hunits := units_le_units (b := 0x47800000) (by decide) hm
    have hbound : roundUnits (units m.val * units m.val) (2 ^ 149) ≤ 0x4F800000 :=
      (roundUnits_mono _ (Nat.mul_le_mul hunits hunits)).trans (by decide)
    rw [R.mul_num _ _ _ _ hfin hfin, R.within_iff]
    rw [bne_self_eq_false]
    exact ⟨_, 0, 0x5F800000, R.ord_round _ _ _, rfl, rfl, Int.natCast_nonneg _,
      Int.ofNat_le.2 (hbound.trans (by decide))⟩

theorem agcUpdate_within (en : R) {g : Agc} (h : g.e.within R.zero Config.eMax = true) :
    (agcUpdate g en).e.within R.zero Config.eMax = true := by
  unfold agcUpdate
  split
  · next hen => exact hen
  · exact h

@[simp] theorem agcUpdate_bw (g : Agc) (en : R) : (agcUpdate g en).bw = g.bw := by
  unfold agcUpdate
  split <;> rfl


theorem detPush_fill_le (cfg : Cfg) (thresh : R) (y : C) (d : Detector) : (detPush cfg thresh y d).1.fill ≤ cfg.N :=
  Nat.min_le_right _ _

section
variable {s : State} (hs : LevelsOk s)
include hs

/-! Each writer of a level writes a value in its range. -/

theorem LevelsOk.with_agc {g : Agc} (he : g.e.within R.zero Config.eMax = true)
    (hbw : g.bw.within R.zero Config.one = true) : LevelsOk { s with agc := g } := by
  obtain ⟨hcfg, -, -, hpll, hss, hth, hfill⟩ := hs
  exact ⟨hcfg, he, hbw, hpll, hss, hth, hfill⟩

theorem LevelsOk.with_agcUpdate (en : R) : LevelsOk { s with agc := agcUpdate s.agc en } := by
  have ⟨_, he, hbw, _⟩ := hs
  exact hs.with_agc (agcUpdate_within en he) (by rw [agcUpdate_bw]; exact hbw)

theorem LevelsOk.with_ss {u : SymSync} (hbw : u.bw.within R.zero Config.one = true) : LevelsOk { s with ss := u } := by
  obtain ⟨hcfg, he, hagc, hpll, -, hth, hfill⟩ := hs
  exact ⟨hcfg, he, hagc, hpll, hbw, hth, hfill⟩

theorem LevelsOk.with_pllBw {bw : R} (hbw : bw.within R.zero Config.one = true) : LevelsOk { s with pllBw := bw } := by
  obtain ⟨hcfg, he, hagc, -, hss, hth, hfill⟩ := hs
  exact ⟨hcfg, he, hagc, hbw, hss, hth, hfill⟩

theorem LevelsOk.with_thresh {v : R} (hv : v.within R.zero Config.one = true) : LevelsOk { s with thresh := v } := by
  obtain ⟨hcfg, he, hagc, hpll, hss, -, hfill⟩ := hs
  exact ⟨hcfg, he, hagc, hpll, hss, hv, hfill⟩

theorem LevelsOk.with_det {d : Detector} (hd : d.fill ≤ s.cfg.N) : LevelsOk { s with det := d } := by
  obtain ⟨hcfg, he, hagc, hpll, hss, hth, -⟩ := hs
  exact ⟨hcfg, he, hagc, hpll, hss, hth, hd⟩

/-! The updates of the frame engine (R349, R350, R355, R356, R358). -/

theorem setNarrow_levelsOk : LevelsOk (setNarrow s) := by
  obtain ⟨hcfg, he, -, -, -, hth, hfill⟩ := hs
  exact ⟨hcfg, he, hcfg.agc_bw.2, hcfg.pll_bw.2, hcfg.ss_bw.2, hth, hfill⟩

theorem setWide_levelsOk : LevelsOk (setWide s) := by
  obtain ⟨hcfg, he, -, -, -, hth, hfill⟩ := hs
  exact ⟨hcfg, he, hcfg.agc_bw.1, hcfg.pll_bw.1, hcfg.ss_bw.1, hth, hfill⟩

theorem doReset_levelsOk (restore : Bool) : LevelsOk (doReset restore s) :=
  (setWide_levelsOk hs).with_det (d := detClear s.det) (Nat.zero_le _)

theorem detect_levelsOk (d : Detection) : LevelsOk (detect d s) := by
  have ⟨_, _, _, _, hss, _⟩ := hs
  unfold detect
  dsimp only
  split
  · exact (hs.with_agcUpdate _).with_ss hss
  · exact setNarrow_levelsOk ((hs.with_agcUpdate _).with_ss hss)

theorem startPayload_levelsOk (sch : Scheme) (h : Header) : LevelsOk (startPayload sch h s) := by
  unfold startPayload
  dsimp only
  split
  · exact setNarrow_levelsOk hs
  · exact hs

theorem headerDone_levelsOk : LevelsOk (headerDone s) := by
  have hdraw : LevelsOk { s with draws := (frameDecode 6 s.cfg.hdrFi s.cfg.hdrFo s).2.2 } := hs
  obtain h | ⟨sch, hdr, -, h⟩ := headerDone_cases s
  · rw [h]; exact doReset_levelsOk hdraw true
  · rw [h]; exact startPayload_levelsOk hdraw sch hdr

theorem payloadDone_levelsOk : LevelsOk (payloadDone s) :=
  doReset_levelsOk (s := { s with draws := _, stats := _, frames := _ }) hs false

theorem takeSymbol_levelsOk (y : C) : LevelsOk (takeSymbol y s) := hs

end

theorem symbol_levelsOk (y : C) (s : State) (hs : LevelsOk s) : LevelsOk (symbol y s) := by
  have hpush := hs.with_det (detPush_fill_le s.cfg s.thresh y s.det)
  have htake := takeSymbol_levelsOk hs y
  obtain ⟨-, -, h⟩ | ⟨d, -, -, h⟩ | ⟨-, -, h⟩ | ⟨-, -, h⟩ | ⟨-, -, h⟩ | ⟨-, -, h⟩ | ⟨-, h⟩ := symbol_cases y s
  all_goals rw [h]
  · exact hpush
  · exact detect_levelsOk hpush d
  · exact headerDone_levelsOk htake
  · exact htake
  · exact payloadDone_levelsOk htake
  · exact htake
  · exact doReset_levelsOk hs _

/-- The AGC updates its energy in range, and the synchroniser keeps its bandwidth (R341). -/
theorem frontEnd_levelsOk (x : C) (s : State) (hs : LevelsOk s) :
    LevelsOk { (frontEnd x s).1 with ss := (ssPush s.cfg (frontEnd x s).2 s.ss).1 } := by
  have ⟨_, _, _, _, hss, _⟩ := hs
  exact (hs.with_agcUpdate _).with_ss (by rw [ssPush_bw]; exact hss)

theorem runSamples_levelsOk (xs : List C) {s : State} (hs : LevelsOk s) : LevelsOk (runSamples xs s) :=
  runSamples_keeps frontEnd_levelsOk symbol_levelsOk xs hs

@[simp] theorem ssRun_bw (cfg : Cfg) (xs : List C) (u : SymSync) : (ssRun cfg xs u).1.bw = u.bw := by
  induction xs generalizing u with
  | nil => rfl
  | cons x xs ih => exact (ih _).trans (ssPush_bw cfg x u)

/-- A block just configured has the target's square as energy, the wide bandwidths and an empty window. -/
theorem startReceiver_levelsOk {s : State} (h : CfgOk s.cfg) (hth : s.thresh.within R.zero Config.one = true) :
    LevelsOk (startReceiver s) :=
  ⟨h, agcTarget_sq_within h.A_range.1 h.A_range.2, h.agc_bw.1, h.pll_bw.1, h.ss_bw.1, hth, Nat.zero_le _⟩

theorem reset_levelsOk : LevelsOk State.reset :=
  ⟨cfgReset_ok, by decide, by decide, by decide, by decide, by decide, Nat.zero_le _⟩

theorem resetBlock_levelsOk (s : State) : LevelsOk (resetBlock s) := reset_levelsOk

/-- A register write reaches a level through THRESH and AGC_ENERGY alone, which check it. -/
theorem regWritten_levelsOk {s t : State} {v : Word} {r : Reg} (hs : LevelsOk s) (h : regWritten s v r = .ok t) :
    LevelsOk t := by
  have ⟨_, _, hbw, _⟩ := hs
  obtain ⟨q, rfl⟩ | rfl | ⟨n, rfl⟩ | ⟨hv, rfl⟩ | ⟨hv, rfl⟩ := regWritten_ok h
  · exact hs
  · exact hs
  · exact hs
  · exact hs.with_thresh hv
  · exact hs.with_agc hv hbw

theorem Effect.levelsOk {s t : State} {i : Instr} {r : List Word} (hs : LevelsOk s) (h : Effect s i t r) :
    LevelsOk t := by
  have ⟨_, he, _, _, hss, hth, _⟩ := hs
  cases h with
  | resetBlock => exact resetBlock_levelsOk s
  | configure cfg ref hok => exact startReceiver_levelsOk (cfgOk_of_checkConfig hok) hth
  | regWrite a v r hr t ht => exact regWritten_levelsOk hs ht
  | execute n ws hn hc => exact runSamples_levelsOk _ hs
  | setThreshold w hw => exact hs.with_thresh hw
  | pllSetBw w hw => exact hs.with_pllBw hw
  | agcSetBw w hw => exact hs.with_agc he hw
  | agcExecute re im => exact hs.with_agcUpdate _
  | agcSeed w => exact hs.with_agcUpdate _
  | ssSetBw w hw => exact hs.with_ss hw
  | ssExecute n ws hn hc => exact hs.with_ss (by rw [ssRun_bw]; exact hss)
  | detPush re im hc => exact hs.with_det (detPush_fill_le _ _ _ _)
  | detReset => exact hs.with_det (Nat.zero_le _)
  | _ => exact hs

/-- Settles O60: each effect keeps `LevelsOk`, the samples of EXECUTE by induction. -/
theorem levelsStayInRange : Obligations.LevelsStayInRange :=
  keptByStep_of_effect (fun _ _ _ _ h => h) Effect.levelsOk

end Sys2Proof.Machine

/-! PROOFS of the family 20_memory.md: the memories and buffers stay in canonical form (R80 to R84, R394), what the
commands write and what they leave (R89, R90, R96, R361, R398, R399), the latching of CONFIGURE (R84, R242), and the
packing of strings into words (R85). -/

namespace Sys2Proof.Machine

/-! ### The buffers of the units (R58, R59, R65) -/

/-- The delay line and the coefficient table of the synchroniser are in canonical form. -/
structure SymSync.Canonical (u : SymSync) : Prop where
  line : cellsWf C.zero Config.lMax 0 u.buf = true
  table : cellsWf R.zero (Config.pMax * Config.lMax) 0 u.H = true

/-- The reference and the two windows of the detector are in canonical form. -/
structure Detector.Canonical (d : Detector) : Prop where
  ref : cellsWf C.zero Config.nMax 0 d.ref = true
  win : cellsWf C.zero Config.nMax 0 d.win = true
  en : cellsWf R.zero Config.nMax 0 d.en = true

/-- A state is well formed by its two memories and its two units with buffers. -/
theorem memoryWf_iff (s : State) :
    Memory.wf s = true ↔
      cellsWf C.zero Config.nMax 0 s.preMem = true ∧ cellsWf R.zero Config.coefWords 0 s.coefMem = true ∧
        s.ss.Canonical ∧ s.det.Canonical := by
  unfold Memory.wf
  simp only [Bool.and_eq_true]
  constructor
  · rintro ⟨⟨⟨⟨⟨⟨hpre, hcoef⟩, hbuf⟩, hH⟩, href⟩, hwin⟩, hen⟩
    exact ⟨hpre, hcoef, ⟨hbuf, hH⟩, ⟨href, hwin, hen⟩⟩
  · rintro ⟨hpre, hcoef, ⟨hbuf, hH⟩, ⟨href, hwin, hen⟩⟩
    exact ⟨⟨⟨⟨⟨⟨hpre, hcoef⟩, hbuf⟩, hH⟩, href⟩, hwin⟩, hen⟩

/-- A legal configuration uses at most the L_MAX taps a branch has. -/
theorem CfgOk.L_le {c : Cfg} (h : CfgOk c) : c.L ≤ Config.lMax := by
  have hkm : 2 * c.k * c.m ≤ 2 * Config.kMax * Config.mMax :=
    Nat.mul_le_mul (Nat.mul_le_mul_left 2 h.k_range.2) h.m_range.2
  rw [h.taps]
  exact Nat.succ_le_succ hkm

section
variable {cfg : Cfg} {u : SymSync}

/-- A push shifts the delay line and keeps the table. -/
theorem SymSync.Canonical.push (h : u.Canonical) (hcfg : CfgOk cfg) (x : C) :
    (ssPush cfg x u).1.Canonical where
  line := by
    rw [ssPush_buf]
    exact cellsWf_memSetPrefix h.line ((List.length_take_le _ _).trans hcfg.L_le)
  table := by rw [ssPush_H]; exact h.table

theorem SymSync.Canonical.run (hcfg : CfgOk cfg) (xs : List C) (h : u.Canonical) :
    (ssRun cfg xs u).1.Canonical := by
  induction xs generalizing u with
  | nil => exact h
  | cons x xs ih => exact ih (h.push hcfg x)

theorem SymSync.Canonical.rotate (h : u.Canonical) (hcfg : CfgOk cfg) (z : C) : (ssRotate cfg z u).Canonical where
  line := cellsWf_memSetPrefix h.line (by simpa [ssLine] using hcfg.L_le)
  table := h.table

theorem SymSync.Canonical.init (h : u.Canonical) : (ssInit cfg u).Canonical := ⟨rfl, h.table⟩

/-- A window of `n` entries that takes one in and lets the oldest go keeps its length. -/
theorem length_window_push {α : Type} (d v : α) (m : Cells α) (n : Nat) :
    ((memSlice d m 0 n ++ [v]).drop 1).length = n := by simp

theorem Detector.Canonical.push {d : Detector} (h : d.Canonical) (hcfg : CfgOk cfg) (thresh : R) (y : C) :
    (detPush cfg thresh y d).1.Canonical where
  ref := h.ref
  win := cellsWf_memSetPrefix h.win ((length_window_push _ _ _ _).trans_le hcfg.N_range.2)
  en := cellsWf_memSetPrefix h.en ((length_window_push _ _ _ _).trans_le hcfg.N_range.2)

theorem Detector.Canonical.clear {d : Detector} (h : d.Canonical) : (detClear d).Canonical := ⟨h.ref, rfl, rfl⟩

end

/-! ### Every writer keeps the canonical forms -/

section
variable {s : State} (hs : MemoryOk s)
include hs

theorem MemoryOk.ss_canonical : s.ss.Canonical := ((memoryWf_iff s).1 hs.2).2.2.1

theorem MemoryOk.det_canonical : s.det.Canonical := ((memoryWf_iff s).1 hs.2).2.2.2

theorem MemoryOk.with_preMem {m : Cells C} (hm : cellsWf C.zero Config.nMax 0 m = true) :
    MemoryOk { s with preMem := m } := by
  obtain ⟨hcfg, hwf⟩ := hs
  obtain ⟨-, hcoef, hss, hdet⟩ := (memoryWf_iff s).1 hwf
  exact ⟨hcfg, (memoryWf_iff _).2 ⟨hm, hcoef, hss, hdet⟩⟩

theorem MemoryOk.with_coefMem {m : Cells R} (hm : cellsWf R.zero Config.coefWords 0 m = true) :
    MemoryOk { s with coefMem := m } := by
  obtain ⟨hcfg, hwf⟩ := hs
  obtain ⟨hpre, -, hss, hdet⟩ := (memoryWf_iff s).1 hwf
  exact ⟨hcfg, (memoryWf_iff _).2 ⟨hpre, hm, hss, hdet⟩⟩

theorem MemoryOk.with_ss {u : SymSync} (hu : u.Canonical) : MemoryOk { s with ss := u } := by
  obtain ⟨hcfg, hwf⟩ := hs
  obtain ⟨hpre, hcoef, -, hdet⟩ := (memoryWf_iff s).1 hwf
  exact ⟨hcfg, (memoryWf_iff _).2 ⟨hpre, hcoef, hu, hdet⟩⟩

theorem MemoryOk.with_det {d : Detector} (hd : d.Canonical) : MemoryOk { s with det := d } := by
  obtain ⟨hcfg, hwf⟩ := hs
  obtain ⟨hpre, hcoef, hss, -⟩ := (memoryWf_iff s).1 hwf
  exact ⟨hcfg, (memoryWf_iff _).2 ⟨hpre, hcoef, hss, hd⟩⟩

/-! The frame engine reaches a buffer by the rotation of a detection and the clear of a reset alone. -/

theorem doReset_memoryOk (restore : Bool) : MemoryOk (doReset restore s) := hs.with_det hs.det_canonical.clear

theorem detect_memoryOk (d : Detection) : MemoryOk (detect d s) := by
  have hrotate (z : C) : MemoryOk { s with ss := ssRotate s.cfg z s.ss } :=
    hs.with_ss (hs.ss_canonical.rotate hs.1 z)
  unfold detect
  dsimp only
  split
  · exact hrotate _
  · exact hrotate _

theorem startPayload_memoryOk (sch : Scheme) (h : Header) : MemoryOk (startPayload sch h s) := by
  unfold startPayload
  dsimp only
  split
  · exact hs
  · exact hs

theorem headerDone_memoryOk : MemoryOk (headerDone s) := by
  have hdraw : MemoryOk { s with draws := (frameDecode 6 s.cfg.hdrFi s.cfg.hdrFo s).2.2 } := hs
  obtain h | ⟨sch, hdr, -, h⟩ := headerDone_cases s
  · rw [h]; exact doReset_memoryOk hdraw true
  · rw [h]; exact startPayload_memoryOk hdraw sch hdr

theorem payloadDone_memoryOk : MemoryOk (payloadDone s) :=
  doReset_memoryOk (s := { s with draws := _, stats := _, frames := _ }) hs false

theorem takeSymbol_memoryOk (y : C) : MemoryOk (takeSymbol y s) := hs

end

theorem symbol_memoryOk (y : C) (s : State) (hs : MemoryOk s) : MemoryOk (symbol y s) := by
  have hpush := hs.with_det (hs.det_canonical.push hs.1 s.thresh y)
  have htake := takeSymbol_memoryOk hs y
  obtain ⟨-, -, h⟩ | ⟨d, -, -, h⟩ | ⟨-, -, h⟩ | ⟨-, -, h⟩ | ⟨-, -, h⟩ | ⟨-, -, h⟩ | ⟨-, h⟩ := symbol_cases y s
  all_goals rw [h]
  · exact hpush
  · exact detect_memoryOk hpush d
  · exact headerDone_memoryOk htake
  · exact htake
  · exact payloadDone_memoryOk htake
  · exact htake
  · exact doReset_memoryOk hs _

/-- The synchroniser takes the sample in; the mixer and the AGC have no buffer (R341). -/
theorem frontEnd_memoryOk (x : C) (s : State) (hs : MemoryOk s) :
    MemoryOk { (frontEnd x s).1 with ss := (ssPush s.cfg (frontEnd x s).2 s.ss).1 } :=
  hs.with_ss (hs.ss_canonical.push hs.1 _)

theorem runSamples_memoryOk (xs : List C) {s : State} (hs : MemoryOk s) : MemoryOk (runSamples xs s) :=
  runSamples_keeps frontEnd_memoryOk symbol_memoryOk xs hs

theorem length_normaliseRef {raw ref : List C} (h : normaliseRef raw = some ref) : ref.length = raw.length := by
  obtain ⟨-, -, rfl⟩ := normaliseRef_eq_some h
  exact List.length_map _

/-- A latched reference has at most N_MAX symbols. -/
theorem length_ref_le {w : CfgWords} {m : Cells C} {cfg : Cfg} {ref : List C}
    (h : checkConfig w m = .ok (cfg, ref)) : ref.length ≤ Config.nMax := by
  obtain ⟨-, hp, href, -⟩ := checkConfig_ok h
  rw [length_normaliseRef href, length_rawReference]
  exact ((paramsOk_iff w).1 hp).N

/-- CONFIGURE latches a table and a reference in canonical form, and clears the other buffers of the units. -/
theorem configure_memoryOk {s : State} (hs : MemoryOk s) {cfg : Cfg} {ref : List C}
    (h : checkConfig s.words s.preMem = .ok (cfg, ref)) : MemoryOk (startReceiver (latchConfig cfg ref s)) := by
  obtain ⟨hpre, hcoef, -, -⟩ := (memoryWf_iff s).1 hs.2
  have hcfg := cfgOk_of_checkConfig h
  have htable := cellsWf_mono (cellsWf_latchTaps hcfg.P_range.2 hcfg.L_le hcoef) (Nat.zero_le _)
  have href := cellsWf_memSetPrefix (m := []) (cellsWf_nil C.zero Config.nMax 0) (length_ref_le h)
  exact ⟨hcfg, (memoryWf_iff _).2 ⟨hpre, hcoef, ⟨rfl, htable⟩, ⟨href, rfl, rfl⟩⟩⟩

theorem resetBlock_memoryOk (s : State) : MemoryOk (resetBlock s) := ⟨cfgReset_ok, rfl⟩

/-- No register write reaches a memory or the configuration. -/
theorem regWritten_memoryOk {s t : State} {v : Word} {r : Reg} (hs : MemoryOk s) (h : regWritten s v r = .ok t) :
    MemoryOk t := by
  obtain ⟨q, rfl⟩ | rfl | ⟨n, rfl⟩ | ⟨-, rfl⟩ | ⟨-, rfl⟩ := regWritten_ok h <;> exact hs

theorem Effect.memoryOk {s t : State} {i : Instr} {r : List Word} (hs : MemoryOk s) (h : Effect s i t r) :
    MemoryOk t := by
  obtain ⟨hpre, hcoef, hss, hdet⟩ := (memoryWf_iff s).1 hs.2
  cases h with
  | resetBlock => exact resetBlock_memoryOk s
  | configure cfg ref hok => exact configure_memoryOk hs hok
  | regWrite a v r hr t ht => exact regWritten_memoryOk hs ht
  | preWrite idx re im => exact hs.with_preMem (cellsWf_memWrite hpre (Nat.zero_le _) idx.isLt)
  | coefWrite idx w hidx => exact hs.with_coefMem (cellsWf_memWrite hcoef (Nat.zero_le _) hidx)
  | execute n ws hn hc => exact runSamples_memoryOk _ hs
  | ssSetBw w hw => exact hs.with_ss ⟨hss.line, hss.table⟩
  | ssExecute n ws hn hc => exact hs.with_ss (hss.run hs.1 _)
  | detPush re im hc => exact hs.with_det (hdet.push hs.1 _ _)
  | detReset => exact hs.with_det hdet.clear
  | _ => exact hs

/-- Settles O56: each effect keeps `MemoryOk`, the samples of EXECUTE by induction. -/
theorem memoryStaysCanonical : Obligations.MemoryStaysCanonical :=
  keptByStep_of_effect (fun _ _ _ _ h => h) Effect.memoryOk

/-! ### What a command writes and what it leaves (R89, R90, R96, R361) -/

/-- Settles O3: the two branches of `step` on the queue of transactions. -/
theorem stepRunsDecodedCommand : Obligations.StepRunsDecodedCommand := by
  constructor
  · intro s t rest i hcmds hdecode
    simp only [step, hcmds, hdecode]
  · intro s hcmds
    simp only [step, hcmds]

/-- The commands that only read (R90), with those of the decode chain (R461). -/
def readingOps : List Op :=
  [.nop, .regRead, .getStats, .getThreshold, .oscMixDown, .oscMixUp, .oscCexp, .demDemod, .dilDeinterleave, .fecDecode,
    .crcCheck, .decDecode]

/-- The effect of a reading command is its response. -/
theorem Effect.eq_of_reading {s t : State} {i : Instr} {r : List Word} (hop : i.op ∈ readingOps)
    (h : Effect s i t r) : t = s := by
  cases h with
  | nop | regRead | getStats | getThreshold | oscMixDown | oscMixUp | oscCexp | demDemod | dilDeinterleave | fecDecode
  | crcCheck | decDecode => rfl
  | _ => simp [Instr.op, readingOps] at hop

/-- Settles O8: a failure records its code, and a completed reading command answers from the state it found. -/
theorem readingCommandsChangeNothing : Obligations.ReadingCommandsChangeNothing := by
  intro i s t hop h
  obtain ⟨c, -, rfl⟩ | ⟨u, r, he, rfl⟩ := exec_next h
  · rfl
  · rw [he.eq_of_reading hop]; rfl

/-- EXECUTE is work of the pipeline, then the response and, on a failure, the error record. -/
theorem exec_execute_streamed {n : BitVec 24} {ws : List Word} {s t : State} (h : exec (.execute n ws) s = .next t) :
    ∃ u resp err, Streamed s u ∧ t = { u with resp := resp, err := err } := by
  obtain ⟨c, -, rfl⟩ | ⟨u, r, he, rfl⟩ := exec_next h
  · exact ⟨s, _, _, .refl s, rfl⟩
  · cases he with
    | execute n ws hn hc => exact ⟨_, _, _, runSamples_streamed _ s, rfl⟩

/-- Settles O47: what the pipeline leaves alone, EXECUTE does. -/
theorem executeFrame : Obligations.ExecuteFrame := by
  intro n ws s t h
  obtain ⟨u, resp, err, hu, rfl⟩ := exec_execute_streamed h
  refine ⟨hu.cmds, hu.words, hu.cfg, hu.preMem, hu.coefMem, hu.table, hu.ref, hu.thresh, hu.configured, hu.hdrSyms,
    hu.frames, fun i => ⟨?preMem, ?coefMem⟩⟩
  case preMem => exact congrArg (memRead C.zero · i) hu.preMem
  case coefMem => exact congrArg (memRead R.zero · i) hu.coefMem

/-- No register write reaches the frame port or the frame state machine. -/
theorem regWritten_frames_fsm {s t : State} {v : Word} {r : Reg} (h : regWritten s v r = .ok t) :
    t.frames = s.frames ∧ t.fsm = s.fsm := by
  obtain ⟨q, rfl⟩ | rfl | ⟨n, rfl⟩ | ⟨-, rfl⟩ | ⟨-, rfl⟩ := regWritten_ok h <;> exact ⟨rfl, rfl⟩

theorem Effect.frames_eq {s t : State} {i : Instr} {r : List Word} (hop : i.op ≠ .execute) (h : Effect s i t r) :
    t.frames = s.frames := by
  cases h with
  | regWrite a v r hr t ht => exact (regWritten_frames_fsm ht).1
  | execute => exact (hop rfl).elim
  | _ => rfl

theorem Effect.fsm_eq {s t : State} {i : Instr} {r : List Word} (hop : i.op ∉ [Op.execute, .configure, .resetBlock])
    (h : Effect s i t r) : t.fsm = s.fsm := by
  cases h with
  | regWrite a v r hr t ht => exact (regWritten_frames_fsm ht).2
  | execute | configure | resetBlock => simp [Instr.op] at hop
  | _ => rfl

/-- Settles O48: a failure touches neither, and the effects are taken one by one. -/
theorem onlyExecuteMovesFrames : Obligations.OnlyExecuteMovesFrames := by
  intro i s t h
  obtain ⟨c, -, rfl⟩ | ⟨u, r, he, rfl⟩ := exec_next h
  · exact ⟨fun _ => rfl, fun _ => rfl⟩
  · exact ⟨he.frames_eq, he.fsm_eq⟩

/-! ### Writes to the memories (R398, R399) -/

theorem exec_preWrite (idx : BitVec 10) (re im : Word) (s : State) :
    exec (.preWrite idx [re, im]) s =
      .next ({ s with preMem := memWrite C.zero idx.toNat (decC re im) s.preMem }.respond []) := rfl

theorem exec_coefWrite_ok {idx : BitVec 15} (w : Word) (s : State) (h : idx.toNat < Config.coefWords) :
    exec (.coefWrite idx [w]) s =
      .next ({ s with coefMem := memWrite R.zero idx.toNat (decR w) s.coefMem }.respond []) := by
  show execCoefWrite idx [w] s = _
  simp only [execCoefWrite, if_neg (Nat.not_le_of_lt h), settle_ok]

theorem exec_coefWrite_above {idx : BitVec 15} (w : Word) (s : State) (h : Config.coefWords ≤ idx.toNat) :
    exec (.coefWrite idx [w]) s = .next (s.failWith .badOperands []) := by
  show execCoefWrite idx [w] s = _
  simp only [execCoefWrite, if_pos h, settle_error]
  rfl

/-- Settles O15: both memories are read and written by the same two operations. -/
theorem memoryWritesStore : Obligations.MemoryWritesStore := by
  refine ⟨?preamble, ?coefficients⟩
  case preamble =>
    intro idx re im s hwf
    obtain ⟨hpre, -⟩ := (memoryWf_iff s).1 hwf
    refine ⟨_, exec_preWrite idx re im s, ?_, fun i hi => ?_⟩
    · rw [memRead_memWrite hpre, if_pos rfl]; rfl
    · rw [memRead_memWrite hpre, if_neg hi]
  case coefficients =>
    intro idx w s hwf
    obtain ⟨-, hcoef, -⟩ := (memoryWf_iff s).1 hwf
    refine ⟨fun hidx => ⟨_, exec_coefWrite_ok w s hidx, ?_, fun i hi => ?_⟩, exec_coefWrite_above w s⟩
    · rw [memRead_memWrite hcoef, if_pos rfl]
    · rw [memRead_memWrite hcoef, if_neg hi]

/-! ### CONFIGURE (R84, R242, R392, R394) -/

theorem exec_configure_ok {s : State} {cfg : Cfg} {ref : List C} (h : checkConfig s.words s.preMem = .ok (cfg, ref)) :
    exec (.configure []) s = .next ((startReceiver (latchConfig cfg ref s)).respond [countWord 0]) := by
  show execConfigure [] s = _
  simp only [execConfigure, h, settle_ok]

theorem exec_configure_error {s : State} {c : ErrCode} (h : checkConfig s.words s.preMem = .error c) :
    exec (.configure []) s = .next (s.failWith c (failResponse c .configure)) := by
  show execConfigure [] s = _
  simp only [execConfigure, h, settle_error]

/-- What an emptied memory reads once its first entries are set. -/
theorem memRead_memSetPrefix_nil {α : Type} [DecidableEq α] {d : α} (l : List α) (i : Nat) :
    memRead d (memSetPrefix d l []) i = l.getD i d := by
  rw [memRead_memSetPrefix (cellsWf_nil d l.length 0) le_rfl]
  split
  · rfl
  · next h => rw [memRead_nil, List.getD_eq_default _ _ (Nat.le_of_not_lt h)]

/-- Settles O19: the start of the receiver keeps the table and the reference that the latching makes. -/
theorem configureLatches : Obligations.ConfigureLatches := by
  intro s t cfg ref hok h
  rw [exec_configure_ok hok] at h
  cases h
  exact ⟨fun b j _ hj => memRead_latchTaps (cfgOk_of_checkConfig hok).L_le hj, memRead_memSetPrefix_nil ref⟩

/-! ### A write repeated (R90, R395) -/

section
variable {α : Type} [DecidableEq α] {d : α} {cap lo : Nat}

theorem memRead_head_ne {j : Nat} {v : α} {m : Cells α} (h : cellsWf d cap lo ((j, v) :: m) = true) :
    memRead d ((j, v) :: m) j ≠ d := by
  rw [memRead_cons, if_pos rfl]
  exact (cellsWf_cons.1 h).2.2.1

theorem memRead_below_head {i j : Nat} {v : α} {m : Cells α} (h : cellsWf d cap lo ((j, v) :: m) = true)
    (hi : i < j) : memRead d ((j, v) :: m) i = d :=
  memRead_below (cellsWf_cons.2 ⟨le_rfl, (cellsWf_cons.1 h).2⟩) hi

/-- A memory in canonical form is determined by what it reads. -/
theorem cells_ext {m n : Cells α} (hm : cellsWf d cap lo m = true) (hn : cellsWf d cap lo n = true)
    (h : ∀ i, memRead d m i = memRead d n i) : m = n := by
  induction m generalizing lo n with
  | nil =>
    cases n with
    | nil => rfl
    | cons c n => exact (memRead_head_ne hn (h c.1).symm).elim
  | cons c m ih =>
    obtain ⟨j, v⟩ := c
    cases n with
    | nil => exact (memRead_head_ne hm (h j)).elim
    | cons c n =>
      obtain ⟨k, w⟩ := c
      have hhead : j = k := by
        rcases Nat.lt_trichotomy j k with hlt | heq | hgt
        · exact (memRead_head_ne hm ((h j).trans (memRead_below_head hn hlt))).elim
        · exact heq
        · exact (memRead_head_ne hn ((h k).symm.trans (memRead_below_head hm hgt))).elim
      subst hhead
      obtain ⟨-, -, -, hm'⟩ := cellsWf_cons.1 hm
      obtain ⟨-, -, -, hn'⟩ := cellsWf_cons.1 hn
      have hvalue : v = w := by simpa [memRead_cons] using h j
      have htail (i : Nat) : memRead d m i = memRead d n i := by
        by_cases hi : j = i
        · rw [memRead_below hm' (by omega), memRead_below hn' (by omega)]
        · simpa [memRead_cons, hi] using h i
      rw [hvalue, ih hm' hn' htail]

theorem memWrite_memWrite {v : α} {i : Nat} {m : Cells α} (hm : cellsWf d cap 0 m = true) (hi : i < cap) :
    memWrite d i v (memWrite d i v m) = memWrite d i v m := by
  have hm1 := cellsWf_memWrite (v := v) hm (Nat.zero_le i) hi
  refine cells_ext (cellsWf_memWrite hm1 (Nat.zero_le i) hi) hm1 fun j => ?_
  rw [memRead_memWrite hm1, memRead_memWrite hm]
  split <;> rfl

end

/-- Carried out twice from `s`, `f` leaves the same state, but for its further response. -/
def Repeatable (f : State → Host.Outcome State Fault Refusal) (s : State) : Prop :=
  ∀ t u, f s = .next t → f t = .next u → { u with resp := t.resp, err := t.err } = t ∧ u.err = t.err

section
variable {f : State → Host.Outcome State Fault Refusal} {s : State} {r : List Word}

/-- A failure that fails again with the same code. -/
theorem repeatable_of_fail {c : ErrCode} (hc : c ≠ .none) (h1 : f s = .next (s.failWith c r))
    (h2 : f (s.failWith c r) = .next ((s.failWith c r).failWith c r)) : Repeatable f s := by
  intro t u ht hu
  rw [h1] at ht
  cases ht
  rw [h2] at hu
  cases hu
  exact ⟨rfl, record_record _ hc⟩

/-- A failure that the state has no part in. -/
theorem repeatable_of_badOperands (h : ∀ s : State, f s = .next (s.failWith .badOperands r)) : Repeatable f s :=
  repeatable_of_fail (by decide) (h s) (h _)

/-- A write whose result is fixed by the same write. -/
theorem repeatable_of_write {w : State} (h1 : f s = .next (w.respond r))
    (h2 : f (w.respond r) = .next ((w.respond r).respond r)) : Repeatable f s := by
  intro t u ht hu
  rw [h1] at ht
  cases ht
  rw [h2] at hu
  cases hu
  exact ⟨rfl, rfl⟩

end

/-- A command of one real operand in `[0, 1]`, which `set` stores. -/
def storeUnit (o : Op) (set : R → State → State) (ws : List Word) (s : State) : Host.Outcome State Fault Refusal :=
  settle o s <|
    match ws with
    | [w] => if (decR w).within R.zero Config.one then .ok (set (decR w) s, []) else .error .badOperands
    | _ => .error .badOperands

theorem exec_setThreshold_eq (ws : List Word) :
    exec (.setThreshold ws) = storeUnit .setThreshold (fun v s => { s with thresh := v }) ws := rfl

theorem exec_pllSetBw_eq (ws : List Word) :
    exec (.pllSetBw ws) = storeUnit .pllSetBw (fun v s => { s with pllBw := v }) ws := rfl

theorem exec_agcSetBw_eq (ws : List Word) :
    exec (.agcSetBw ws) = storeUnit .agcSetBw (fun v s => { s with agc := { s.agc with bw := v } }) ws := rfl

theorem exec_ssSetBw_eq (ws : List Word) :
    exec (.ssSetBw ws) = storeUnit .ssSetBw (fun v s => { s with ss := { s.ss with bw := v } }) ws := rfl

theorem storeUnit_repeatable {o : Op} {set : R → State → State}
    (hset : ∀ v s, set v ((set v s).respond []) = (set v s).respond []) (ws : List Word) (s : State) :
    Repeatable (storeUnit o set ws) s := by
  match ws with
  | [w] =>
    by_cases hw : (decR w).within R.zero Config.one = true
    · have hstore (s : State) : storeUnit o set [w] s = .next ((set (decR w) s).respond []) := by
        simp only [storeUnit, hw, if_true, settle_ok]
      exact repeatable_of_write (hstore s) (by rw [hstore, hset])
    · exact repeatable_of_badOperands (r := failResponse .badOperands o) fun s => by
        simp only [storeUnit, if_neg hw, settle_error]
  | [] => exact repeatable_of_badOperands fun _ => rfl
  | _ :: _ :: _ => exact repeatable_of_badOperands fun _ => rfl

theorem words_set_set (w : CfgWords) (v : Word) (q : CfgReg) : (w.set v q).set v q = w.set v q := by
  cases q <;> rfl

/-- A register write that succeeds does so again, and changes nothing more. -/
theorem regWritten_again {s t : State} {v : Word} {r : Reg} (h : regWritten s v r = .ok t) (ws : List Word) :
    regWritten (t.respond ws) v r = .ok (t.respond ws) := by
  cases r with
  | cfg q =>
    cases h
    exact congrArg (fun w => Except.ok { ({ s with words := s.words.set v q } : State).respond ws with words := w })
      (words_set_set s.words v q)
  | err | ncoPhase | ncoFreq => cases h; rfl
  | thresh | agcEnergy =>
    unfold regWritten at h ⊢
    dsimp only at h ⊢
    split at h
    · next hv => cases h; rw [if_pos hv]; rfl
    · cases h
  | _ => cases h

/-- Whether a register write fails, and how, is a matter of the register and the word. -/
theorem regWritten_error_again {s : State} {v : Word} {r : Reg} {c : ErrCode} (h : regWritten s v r = .error c)
    (t : State) : regWritten t v r = .error c := by
  cases r with
  | cfg | err | ncoPhase | ncoFreq => cases h
  | thresh | agcEnergy =>
    unfold regWritten at h ⊢
    dsimp only at h ⊢
    split at h
    · cases h
    · next hv => rw [if_neg hv]; exact h
  | _ => exact h

theorem regWrite_repeatable (a : BitVec 8) (ws : List Word) (s : State) : Repeatable (exec (.regWrite a ws)) s := by
  match ws with
  | [v] =>
    cases hr : Reg.ofAddr a with
    | none => exact repeatable_of_fail (by decide) (exec_regWrite_unmapped s v hr) (exec_regWrite_unmapped _ v hr)
    | some r =>
      cases ht : regWritten s v r with
      | error c =>
        exact repeatable_of_fail (regWritten_error ht) (exec_regWrite_error s v hr ht)
          (exec_regWrite_error _ v hr (regWritten_error_again ht _))
      | ok t =>
        exact repeatable_of_write (exec_regWrite_ok s v hr ht) (exec_regWrite_ok _ v hr (regWritten_again ht []))
  | [] => exact repeatable_of_badOperands fun _ => rfl
  | _ :: _ :: _ => exact repeatable_of_badOperands fun _ => rfl

theorem preWrite_repeatable (idx : BitVec 10) (ws : List Word) {s : State}
    (hpre : cellsWf C.zero Config.nMax 0 s.preMem = true) : Repeatable (exec (.preWrite idx ws)) s := by
  match ws with
  | [re, im] =>
    refine repeatable_of_write (exec_preWrite idx re im s) ?_
    rw [exec_preWrite, respond_preMem, memWrite_memWrite hpre idx.isLt]
    rfl
  | [] | [_] => exact repeatable_of_badOperands fun _ => rfl
  | _ :: _ :: _ :: _ => exact repeatable_of_badOperands fun _ => rfl

theorem coefWrite_repeatable (idx : BitVec 15) (ws : List Word) {s : State}
    (hcoef : cellsWf R.zero Config.coefWords 0 s.coefMem = true) : Repeatable (exec (.coefWrite idx ws)) s := by
  match ws with
  | [w] =>
    rcases Nat.lt_or_ge idx.toNat Config.coefWords with hidx | hidx
    · refine repeatable_of_write (exec_coefWrite_ok w s hidx) ?_
      rw [exec_coefWrite_ok w _ hidx, respond_coefMem, memWrite_memWrite hcoef hidx]
      rfl
    · exact repeatable_of_badOperands fun s => exec_coefWrite_above w s hidx
  | [] => exact repeatable_of_badOperands fun _ => rfl
  | _ :: _ :: _ => exact repeatable_of_badOperands fun _ => rfl

/-- CONFIGURE reads the CFG words and preamble memory, which it keeps, and starts the receiver from them (R395). -/
theorem configure_repeatable (ws : List Word) (s : State) : Repeatable (exec (.configure ws)) s := by
  match ws with
  | [] =>
    cases hok : checkConfig s.words s.preMem with
    | error c =>
      exact repeatable_of_fail (checkConfig_error hok) (exec_configure_error hok) (exec_configure_error hok)
    | ok p => exact repeatable_of_write (exec_configure_ok hok) (exec_configure_ok hok)
  | _ :: _ => exact repeatable_of_badOperands fun _ => rfl

/-- Settles O9: the four commands that store a level have one shape, and each other write keeps what it depends on. -/
theorem writesIdempotent : Obligations.WritesIdempotent := by
  intro i s t u hop hwf
  obtain ⟨hpre, hcoef, -⟩ := (memoryWf_iff s).1 hwf
  revert t u
  show Repeatable (exec i) s
  cases i with
  | regWrite a ws => exact regWrite_repeatable a ws s
  | preWrite idx ws => exact preWrite_repeatable idx ws hpre
  | coefWrite idx ws => exact coefWrite_repeatable idx ws hcoef
  | configure ws => exact configure_repeatable ws s
  | setThreshold ws => rw [exec_setThreshold_eq]; exact storeUnit_repeatable (fun _ _ => rfl) ws s
  | pllSetBw ws => rw [exec_pllSetBw_eq]; exact storeUnit_repeatable (fun _ _ => rfl) ws s
  | agcSetBw ws => rw [exec_agcSetBw_eq]; exact storeUnit_repeatable (fun _ _ => rfl) ws s
  | ssSetBw ws => rw [exec_ssSetBw_eq]; exact storeUnit_repeatable (fun _ _ => rfl) ws s
  | _ => simp [Instr.op] at hop

/-! ### Strings in words (R85)

A string of elements of `B` values each, `k` to a word with `B ^ k = 2 ^ 32`: bits and bytes are the two cases. -/

/-- The number a string denotes in base `B`, first element most significant, `f` being the digit of an element. -/
def natOfDigits {α : Type} (B : Nat) (f : α → Nat) (l : List α) : Nat := l.foldl (fun acc x => B * acc + f x) 0

theorem natOfBits_eq (b : List Bool) : natOfBits b = natOfDigits 2 Bool.toNat b := rfl

theorem natOfBytes_eq (b : List Byte) : natOfBytes b = natOfDigits 256 BitVec.toNat b := rfl

section
variable {α : Type} {B : Nat} {f : α → Nat}

theorem natOfDigits_append_singleton (l : List α) (x : α) :
    natOfDigits B f (l ++ [x]) = B * natOfDigits B f l + f x := by
  simp [natOfDigits]

/-- Digit `i` from the least significant end is element `i` from the end. -/
theorem natOfDigits_digit (hf : ∀ x, f x < B) (z : α) (l : List α) {i : Nat} (hi : i < l.length) :
    natOfDigits B f l / B ^ i % B = f (l.getD (l.length - 1 - i) z) := by
  induction l using List.reverseRecOn generalizing i with
  | nil => simp at hi
  | append_singleton l x ih =>
    have hx := hf x
    have hB : 0 < B := by omega
    rw [natOfDigits_append_singleton]
    rw [List.length_append, List.length_singleton] at hi ⊢
    cases i with
    | zero => simp [Nat.mod_eq_of_lt hx]
    | succ i =>
      rw [Nat.pow_succ', ← Nat.div_div_eq_div_mul, Nat.mul_add_div hB, Nat.div_eq_of_lt hx, Nat.add_zero, ih (by omega)]
      simp only [List.getD_eq_getElem?_getD]
      rw [List.getElem?_append_left (by omega), show l.length + 1 - 1 - (i + 1) = l.length - 1 - i by omega]

end

theorem getElem?_chunks {α : Type} (k n : Nat) (l : List α) {j : Nat} (hj : j < n) :
    (chunks k n l)[j]? = some ((l.drop (k * j)).take k) := by
  induction n generalizing l j with
  | zero => omega
  | succ n ih =>
    cases j with
    | zero => simp [chunks]
    | succ j =>
      rw [chunks, List.getElem?_cons_succ, ih _ (by omega), List.drop_drop, Nat.mul_succ, Nat.add_comm]

/-- The words of a string, `k` elements each, the last filled up with `z`. -/
def packDigits {α : Type} (B k : Nat) (f : α → Nat) (z : α) (n : Nat) (b : List α) : List Word :=
  (chunks k n b).map fun c => BitVec.ofNat 32 (natOfDigits B f (c ++ List.replicate (k - c.length) z))

theorem packBits_eq (b : List Bool) : packBits b = packDigits 2 32 Bool.toNat false ((b.length + 31) / 32) b := rfl

theorem packBytes_eq (b : List Byte) : packBytes b = packDigits 256 4 BitVec.toNat 0 ((b.length + 3) / 4) b := rfl

theorem getD_fill {α : Type} (z : α) (c : List α) (n i : Nat) : (c ++ List.replicate n z).getD i z = c.getD i z := by
  simp only [List.getD_eq_getElem?_getD, List.getElem?_append, List.getElem?_replicate]
  split
  · rfl
  · next h => rw [List.getElem?_eq_none (by omega)]; split <;> rfl

/-- Digit `i % k` from the top of word `i / k` is element `i`, `z` behind the last. -/
theorem packDigits_digit {α : Type} {B k : Nat} {f : α → Nat} (hk : 0 < k) (hB : B ^ k = 2 ^ 32) (hf : ∀ x, f x < B)
    (z : α) (n : Nat) (b : List α) {i : Nat} (hi : i < k * n) :
    ((packDigits B k f z n b).getD (i / k) 0).toNat / B ^ (k - 1 - i % k) % B = f (b.getD i z) := by
  have hmod := Nat.mod_lt i hk
  have hword : i / k < n := (Nat.div_lt_iff_lt_mul hk).2 (by rwa [Nat.mul_comm])
  obtain ⟨c, hc⟩ : ∃ c, (b.drop (k * (i / k))).take k = c := ⟨_, rfl⟩
  have hlen : (c ++ List.replicate (k - c.length) z).length = k := by
    have : c.length ≤ k := by rw [← hc]; exact List.length_take_le _ _
    simp; omega
  have hpow : B ^ k = B ^ (k - 1 - i % k) * (B * B ^ (i % k)) := by
    rw [← Nat.pow_succ', ← Nat.pow_add]; congr 1; omega
  rw [packDigits, List.getD_eq_getElem?_getD, List.getElem?_map, getElem?_chunks k n b hword, hc, Option.map_some,
    Option.getD_some, BitVec.toNat_ofNat, ← hB, hpow, Nat.mod_mul_right_div_self, Nat.mod_mul_right_mod,
    natOfDigits_digit hf z _ (by rw [hlen]; omega), hlen, getD_fill, ← hc]
  congr 1
  simp only [List.getD_eq_getElem?_getD]
  rw [List.getElem?_take_of_lt (by omega), List.getElem?_drop]
  congr 2
  have := Nat.div_add_mod i k
  omega

/-- Element `i` of a concatenation of lists of `k` elements each. -/
theorem getD_flatMap {α β : Type} {g : α → List β} {k : Nat} (hg : ∀ a, (g a).length = k) (a : α) (z : β) (l : List α)
    {i : Nat} (hi : i < k * l.length) : (l.flatMap g).getD i z = (g (l.getD (i / k) a)).getD (i % k) z := by
  induction l generalizing i with
  | nil => simp at hi
  | cons w l ih =>
    have hk : 0 < k := Nat.pos_of_ne_zero fun h => by simp [h] at hi
    rw [List.length_cons, Nat.mul_succ] at hi
    rw [List.flatMap_cons]
    rcases Nat.lt_or_ge i k with h | h
    · rw [Nat.div_eq_of_lt h, Nat.mod_eq_of_lt h, List.getD_append _ _ _ _ (by rw [hg]; exact h), List.getD_cons_zero]
    · rw [List.getD_append_right _ _ _ _ (by rw [hg]; exact h), hg, ih (by omega), Nat.mod_eq_sub_mod h,
        Nat.div_eq_sub_div hk h, List.getD_cons_succ]

theorem length_flatMap_const {α β : Type} {g : α → List β} {k : Nat} (hg : ∀ a, (g a).length = k) (l : List α) :
    (l.flatMap g).length = k * l.length := by
  simp [List.length_flatMap, hg, Nat.mul_comm]

theorem getD_take {α : Type} (z : α) (l : List α) {i n : Nat} (h : i < n) : (l.take n).getD i z = l.getD i z := by
  simp only [List.getD_eq_getElem?_getD, List.getElem?_take_of_lt h]

@[simp] theorem length_wordBits (w : Word) : (wordBits w).length = 32 := by simp [wordBits]

@[simp] theorem length_wordBytes (w : Word) : (wordBytes w).length = 4 := by simp [wordBytes]

theorem length_packBits (b : List Bool) : (packBits b).length = (b.length + 31) / 32 := by
  rw [packBits_eq, packDigits, List.length_map, length_chunks]

theorem length_packBytes (b : List Byte) : (packBytes b).length = (b.length + 3) / 4 := by
  rw [packBytes_eq, packDigits, List.length_map, length_chunks]

theorem packBits_bit (b : List Bool) {i : Nat} (hi : i < 32 * ((b.length + 31) / 32)) :
    ((packBits b).getD (i / 32) 0).getLsbD (31 - i % 32) = b.getD i false := by
  have h := packDigits_digit (B := 2) (k := 32) (f := Bool.toNat) (by decide) rfl Bool.toNat_lt false _ b hi
  rw [← packBits_eq] at h
  rw [BitVec.getLsbD, Nat.testBit_eq_decide_div_mod_eq, h]
  cases b.getD i false <;> rfl

theorem packBytes_byte (b : List Byte) {i : Nat} (hi : i < 4 * ((b.length + 3) / 4)) :
    ((packBytes b).getD (i / 4) 0).extractLsb' (24 - 8 * (i % 4)) 8 = b.getD i 0 := by
  have h := packDigits_digit (B := 256) (k := 4) (f := BitVec.toNat) (by decide) rfl (fun x : Byte => x.isLt) 0 _ b hi
  rw [← packBytes_eq] at h
  rw [← BitVec.toNat_inj, BitVec.extractLsb'_toNat, Nat.shiftRight_eq_div_pow, ← h,
    show 24 - 8 * (i % 4) = 8 * (4 - 1 - i % 4) by omega, Nat.pow_mul]

theorem length_unpackBits {l : Nat} {ws : List Word} (hl : l ≤ 32 * ws.length) : (unpackBits l ws).length = l := by
  rw [unpackBits, List.length_take, length_flatMap_const length_wordBits, Nat.min_eq_left hl]

theorem length_unpackBytes {n : Nat} {ws : List Word} (hn : n ≤ 4 * ws.length) : (unpackBytes n ws).length = n := by
  rw [unpackBytes, List.length_take, length_flatMap_const length_wordBytes, Nat.min_eq_left hn]

theorem unpackBits_bit {l i : Nat} {ws : List Word} (hl : l ≤ 32 * ws.length) (hi : i < l) :
    (unpackBits l ws).getD i false = (ws.getD (i / 32) 0).getLsbD (31 - i % 32) := by
  have hmod := Nat.mod_lt i (show 0 < 32 by decide)
  rw [unpackBits, getD_take _ _ hi, getD_flatMap length_wordBits 0 _ _ (hi.trans_le hl)]
  simp [wordBits, hmod]

theorem unpackBytes_byte {n i : Nat} {ws : List Word} (hn : n ≤ 4 * ws.length) (hi : i < n) :
    (unpackBytes n ws).getD i 0 = (ws.getD (i / 4) 0).extractLsb' (24 - 8 * (i % 4)) 8 := by
  have hmod := Nat.mod_lt i (show 0 < 4 by decide)
  rw [unpackBytes, getD_take _ _ hi, getD_flatMap length_wordBytes 0 _ _ (hi.trans_le hn)]
  simp [wordBytes, hmod]

/-- Lists of one length with the same elements. -/
theorem eq_of_getD {α : Type} {z : α} {l m : List α} (hlen : l.length = m.length)
    (h : ∀ i, i < m.length → l.getD i z = m.getD i z) : l = m := by
  refine List.ext_getElem hlen fun i hl hm => ?_
  simpa [hl, hm] using h i hm

theorem unpackBits_packBits (b : List Bool) (ws : List Word) : unpackBits b.length (packBits b ++ ws) = b := by
  have hlen := length_packBits b
  have hle : b.length ≤ 32 * (packBits b ++ ws).length := by rw [List.length_append]; omega
  refine eq_of_getD (z := false) (length_unpackBits hle) fun i hi => ?_
  rw [unpackBits_bit hle hi, List.getD_append _ _ _ _ (by omega), packBits_bit b (by omega)]

theorem unpackBytes_packBytes (b : List Byte) (ws : List Word) : unpackBytes b.length (packBytes b ++ ws) = b := by
  have hlen := length_packBytes b
  have hle : b.length ≤ 4 * (packBytes b ++ ws).length := by rw [List.length_append]; omega
  refine eq_of_getD (z := 0) (length_unpackBytes hle) fun i hi => ?_
  rw [unpackBytes_byte hle hi, List.getD_append _ _ _ _ (by omega), packBytes_byte b (by omega)]

/-- Settles O24: bits and bytes are digits of base 2 and base 256. -/
theorem packingRoundTrip : Obligations.PackingRoundTrip :=
  ⟨fun b => ⟨length_packBits b, fun _ => packBits_bit b⟩, fun b => ⟨length_packBytes b, fun _ => packBytes_byte b⟩,
    fun _ _ hl => ⟨length_unpackBits hl, fun _ => unpackBits_bit hl⟩,
    fun _ _ hn => ⟨length_unpackBytes hn, fun _ => unpackBytes_byte hn⟩, unpackBits_packBits, unpackBytes_packBytes⟩

end Sys2Proof.Machine

/-! PROOFS of the family 30_encoding.md: decoding and encoding are inverse (R111, R113, R119, R123), the words the rules
write out (R116, R121), the reserved words (R119), and the order of a command's checks (R112, R117, R424). The encoding
rests on one fact: a command is its operation, its immediate and its operands, which is what its transaction holds. -/

namespace Sys2Proof

/-! ### A command is its operation, its immediate and its operands -/

/-- A field that starts at bit 0 is read back from the immediate it was put into. -/
theorem extractLsb'_setWidth_imm {n : Nat} (hn : n ≤ 24) (x : BitVec n) : (x.setWidth 24).extractLsb' 0 n = x := by
  rw [← BitVec.setWidth_eq_extractLsb' hn, BitVec.setWidth_setWidth_of_le x hn, BitVec.setWidth_eq]

/-- Format F16: the inner code is the low byte of the immediate. -/
theorem fieldsF16_inner (fi fo : BitVec 8) : ((fo ++ fi).setWidth 24).extractLsb' 0 8 = fi := by
  have hfi := fi.isLt
  apply BitVec.eq_of_toNat_eq
  rw [BitVec.extractLsb'_toNat, toNat_fieldsF16, Nat.shiftRight_eq_div_pow]
  omega

/-- Format F16: the outer code is the byte above. -/
theorem fieldsF16_outer (fi fo : BitVec 8) : ((fo ++ fi).setWidth 24).extractLsb' 8 8 = fo := by
  have hfi := fi.isLt
  have hfo := fo.isLt
  apply BitVec.eq_of_toNat_eq
  rw [BitVec.extractLsb'_toNat, toNat_fieldsF16, Nat.shiftRight_eq_div_pow]
  omega

/-- Reading the fields of a command's own immediate gives the command. -/
theorem toInstr_imm (i : Instr) : i.op.toInstr i.imm i.opnd = i := by
  cases i with
  | regRead a ws => exact congrArg (Instr.regRead · ws) (extractLsb'_setWidth_imm (by decide) a)
  | regWrite a ws => exact congrArg (Instr.regWrite · ws) (extractLsb'_setWidth_imm (by decide) a)
  | preWrite idx ws => exact congrArg (Instr.preWrite · ws) (extractLsb'_setWidth_imm (by decide) idx)
  | coefWrite idx ws => exact congrArg (Instr.coefWrite · ws) (extractLsb'_setWidth_imm (by decide) idx)
  | demSetScheme id ws => exact congrArg (Instr.demSetScheme · ws) (extractLsb'_setWidth_imm (by decide) id)
  | fecDecode id ws => exact congrArg (Instr.fecDecode · ws) (extractLsb'_setWidth_imm (by decide) id)
  | decDecode fi fo ws =>
    exact congrArg₂ (Instr.decDecode · · ws) (fieldsF16_inner fi fo) (fieldsF16_outer fi fo)
  | _ => rfl

@[simp] theorem toInstr_op (imm : BitVec 24) (ws : List Word) (o : Op) : (o.toInstr imm ws).op = o := by
  cases o <;> rfl

@[simp] theorem toInstr_opnd (imm : BitVec 24) (ws : List Word) (o : Op) : (o.toInstr imm ws).opnd = ws := by
  cases o <;> rfl

/-- An immediate below `2 ^ n` is its low `n` bits. -/
theorem setWidth_extractLsb'_imm {n : Nat} {imm : BitVec 24} (h : imm.toNat < 2 ^ n) :
    (imm.extractLsb' 0 n).setWidth 24 = imm := by
  apply BitVec.eq_of_toNat_eq
  rw [BitVec.toNat_setWidth, BitVec.extractLsb'_toNat, Nat.shiftRight_zero, Nat.mod_eq_of_lt h,
    Nat.mod_eq_of_lt imm.isLt]

/-- An immediate of format F16 is its two bytes. -/
theorem fieldsF16_joined {imm : BitVec 24} (h : imm.toNat < 2 ^ 16) :
    (imm.extractLsb' 8 8 ++ imm.extractLsb' 0 8).setWidth 24 = imm := by
  apply BitVec.eq_of_toNat_eq
  rw [toNat_fieldsF16, BitVec.extractLsb'_toNat, BitVec.extractLsb'_toNat, Nat.shiftRight_eq_div_pow,
    Nat.shiftRight_eq_div_pow]
  omega

/-- An immediate without reserved bits is the one of the command read from it: no bit of it is ignored (R113). -/
theorem toInstr_imm_of_fits {o : Op} {imm : BitVec 24} (ws : List Word) (h : imm.toNat < 2 ^ o.immBits) :
    (o.toInstr imm ws).imm = imm := by
  cases o with
  | execute | ssExecute | dilDeinterleave => rfl
  | regRead | regWrite | demSetScheme | fecDecode | preWrite | coefWrite => exact setWidth_extractLsb'_imm h
  | decDecode => exact fieldsF16_joined h
  | _ => exact (BitVec.eq_of_toNat_eq (Nat.lt_one_iff.1 h)).symm

/-! ### Decoding (R111, R119) -/

/-- The transactions that decode: an opcode of the map, an immediate without reserved bits, and the command of both. -/
theorem decode_eq_ok_iff (t : Transaction) (i : Instr) :
    decode t = .ok i ↔
      ∃ o : Op, t.cmd.extractLsb' 24 8 = o.code ∧ (t.cmd.extractLsb' 0 24).toNat < 2 ^ o.immBits ∧
        i = o.toInstr (t.cmd.extractLsb' 0 24) t.opnd := by
  unfold decode
  dsimp only
  constructor
  · intro h
    split at h
    · cases h
    · next o ho =>
      split at h
      · next hfits => cases h; exact ⟨o, eq_code_of_ofCode ho, hfits, rfl⟩
      · cases h
  · rintro ⟨o, hcode, hfits, rfl⟩
    rw [hcode, ofCode_code]
    exact if_pos hfits

theorem decode_reservedOp {t : Transaction} (h : Op.ofCode (t.cmd.extractLsb' 24 8) = none) :
    decode t = .error (.reservedOp (t.cmd.extractLsb' 24 8)) := by
  simp only [decode, h]

theorem decode_reservedImm {t : Transaction} {o : Op} (hcode : t.cmd.extractLsb' 24 8 = o.code)
    (himm : 2 ^ o.immBits ≤ (t.cmd.extractLsb' 0 24).toNat) : decode t = .error (.reservedImm o) := by
  simp only [decode, hcode, ofCode_code, if_neg (Nat.not_lt_of_le himm)]

theorem decode_encode (i : Instr) : decode (encode i) = .ok i :=
  (decode_eq_ok_iff _ _).2 ⟨i.op, word_opcode _ _, (word_imm _ _).symm ▸ imm_fits i, by
    rw [encode, word_imm, toInstr_imm]⟩

theorem encode_of_decode {t : Transaction} {i : Instr} (h : decode t = .ok i) : encode i = t := by
  obtain ⟨o, hcode, hfits, rfl⟩ := (decode_eq_ok_iff t i).1 h
  rw [encode, toInstr_op, toInstr_opnd, toInstr_imm_of_fits _ hfits, ← hcode, ← word_split]

/-- Settles O1: a word splits into opcode and immediate, and a command's fields are its immediate. -/
theorem decodeEncode : Obligations.DecodeEncode := ⟨decode_encode, fun _ _ => encode_of_decode⟩

/-! ### The words of the commands (R116, R121, R123) -/

theorem encode_eq_iff_decode_eq_ok {i : Instr} {t : Transaction} : encode i = t ↔ decode t = .ok i :=
  ⟨fun h => h ▸ decode_encode i, encode_of_decode⟩

/-- The word of a command by its number `(op << 24) | imm` (R123). -/
theorem encode_eq_of_toNat {i : Instr} {w : Word} (h : i.op.code.toNat * 2 ^ 24 + i.imm.toNat = w.toNat) :
    encode i = ⟨w, i.opnd⟩ :=
  congrArg (Transaction.mk · i.opnd) (BitVec.eq_of_toNat_eq ((toNat_word _ _).trans h))

/-- The word of a command by the values of its opcode and its immediate. -/
theorem encode_eq_ofNat {i : Instr} {op imm : Nat} (hop : i.op.code.toNat = op) (himm : i.imm.toNat = imm) :
    encode i = ⟨BitVec.ofNat 32 (op * 2 ^ 24 + imm), i.opnd⟩ := by
  rw [← hop, ← himm, ← toNat_word, BitVec.ofNat_toNat, BitVec.setWidth_eq]
  rfl

/-- Settles O2: a command's word is computed from its two parts, and the word that is the command's encoding decodes to
it. -/
theorem writtenWords : Obligations.WrittenWords := by
  intro ws
  refine ⟨?rows, ?fields, ?written⟩
  case rows =>
    intro p hp
    suffices h : encode p.2 = ⟨p.1, ws⟩ from ⟨h, encode_eq_iff_decode_eq_ok.1 h⟩
    revert p
    simp only [List.forall_mem_cons, List.not_mem_nil, false_imp_iff, implies_true, and_true]
    and_intros <;> exact encode_eq_of_toNat (by simp [Instr.op, Op.code, Instr.imm])
  case fields =>
    intro a p c n fi fo
    have hfield {m : Nat} (x : BitVec m) (hm : m ≤ 24) : (x.setWidth 24).toNat = x.toNat :=
      BitVec.toNat_setWidth_of_le hm
    refine ⟨encode_eq_ofNat rfl (hfield a (by decide)), encode_eq_ofNat rfl (hfield a (by decide)),
      encode_eq_ofNat rfl (hfield p (by decide)), encode_eq_ofNat rfl (hfield c (by decide)), encode_eq_ofNat rfl rfl,
      encode_eq_ofNat rfl rfl, encode_eq_ofNat rfl (hfield a (by decide)), encode_eq_ofNat rfl rfl,
      encode_eq_ofNat rfl (hfield a (by decide)), ?_⟩
    rw [Nat.add_assoc]
    exact encode_eq_ofNat rfl (toNat_fieldsF16 fi fo)
  case written =>
    and_intros <;> exact encode_eq_iff_decode_eq_ok.1 (encode_eq_of_toNat (by simp [Instr.op, Op.code, Instr.imm]))

end Sys2Proof

namespace Sys2Proof.Machine

/-! ### Reserved words (R112, R119, R421) -/

/-- The opcodes of the map R116. -/
def listedOpcodes : List Nat :=
  [0x00, 0x01, 0x02, 0x03, 0x04, 0x05, 0x06, 0x10, 0x11, 0x12, 0x13, 0x14, 0x20, 0x21, 0x22, 0x23, 0x24, 0x25, 0x28,
    0x29, 0x30, 0x31, 0x32, 0x38, 0x39, 0x40, 0x41, 0x48, 0x49, 0x50, 0x51, 0x52, 0x53]

theorem code_mem_listedOpcodes (o : Op) : o.code.toNat ∈ listedOpcodes := by cases o <;> decide

theorem ofCode_eq_none {c : BitVec 8} (h : c.toNat ∉ listedOpcodes) : Op.ofCode c = none := by
  cases hc : Op.ofCode c with
  | none => rfl
  | some o => exact absurd (eq_code_of_ofCode hc ▸ code_mem_listedOpcodes o) h

/-- A transaction that stands for no command is taken and fails (R119). -/
theorem step_of_decode_error {s : State} {t : Transaction} {rest : List Transaction} {e : DecodeError}
    (hcmds : s.cmds = t :: rest) (h : decode t = .error e) : step s = illegal { s with cmds := rest } e := by
  simp only [step, hcmds, h]

/-- Settles O4: the two ways in which a word stands for no command. -/
theorem illegalWords : Obligations.IllegalWords := by
  intro s t rest hcmds
  constructor
  · intro hop
    exact step_of_decode_error hcmds (decode_reservedOp (ofCode_eq_none hop))
  · intro o hcode himm
    have hstep : step s = .next ({ s with cmds := rest }.failWith .illegalCmd (failResponse .illegalCmd o)) :=
      step_of_decode_error hcmds (decode_reservedImm hcode himm)
    rw [failResponse_eq] at hstep
    exact hstep

/-! ### The order of the checks (R112, R117, R424) -/

theorem wellFormed_eq_true_iff (i : Instr) : i.wellFormed = true ↔ i.expectedCount = some i.opnd.length := beq_iff_eq

theorem wellFormed_eq_false_iff (i : Instr) : i.wellFormed = false ↔ i.expectedCount ≠ some i.opnd.length :=
  beq_eq_false_iff_ne

/-- A count that is not the expected one fails with BAD_OPERANDS, whatever the state. -/
theorem exec_of_not_wellFormed {i : Instr} (s : State) (h : i.wellFormed = false) :
    exec i s = settle i.op s (.error .badOperands) := by
  have hcount := (wellFormed_eq_false_iff i).1 h
  cases i with
  | nop ws | resetBlock ws | configure ws | regRead _ ws | resetStats ws | getStats ws | getThreshold ws | oscCexp ws
  | oscStep ws | detReset ws | demSetScheme _ ws =>
    rcases ws with _ | ⟨w, ws⟩
    · exact absurd rfl hcount
    · rfl
  | regWrite _ ws | coefWrite _ ws | setThreshold ws | oscAdjPhase ws | oscAdjFreq ws | pllSetBw ws | pllStep ws
  | agcSetBw ws | agcSeed ws | ssSetBw ws =>
    rcases ws with _ | ⟨w, _ | ⟨v, ws⟩⟩
    · rfl
    · exact absurd rfl hcount
    · rfl
  | preWrite _ ws | oscMixDown ws | oscMixUp ws | agcExecute ws | detPush ws | demDemod ws =>
    rcases ws with _ | ⟨w, _ | ⟨v, _ | ⟨u, ws⟩⟩⟩
    · rfl
    · rfl
    · exact absurd rfl hcount
    · rfl
  | execute n ws => exact congrArg (settle .execute s) (if_pos fun hlen => hcount (congrArg some hlen.symm))
  | ssExecute n ws => exact congrArg (settle .ssExecute s) (if_pos fun hlen => hcount (congrArg some hlen.symm))
  | dilDeinterleave depth ws =>
    rcases ws with _ | ⟨l, ws⟩
    · rfl
    · exact congrArg (settle .dilDeinterleave s) (if_pos hcount)
  | fecDecode id ws =>
    rcases ws with _ | ⟨l, ws⟩
    · rfl
    · exact congrArg (settle .fecDecode s) (if_pos hcount)
  | crcCheck ws =>
    rcases ws with _ | ⟨n, ws⟩
    · rfl
    · exact congrArg (settle .crcCheck s) (if_pos hcount)
  | decDecode fi fo ws =>
    rcases ws with _ | ⟨n, _ | ⟨depths, _ | ⟨l, ws⟩⟩⟩
    · rfl
    · rfl
    · rfl
    · exact congrArg (settle .decDecode s) (if_pos hcount)

/-- A command by its operation. -/
theorem eq_toInstr_of_op {i : Instr} {o : Op} (h : i.op = o) : i = o.toInstr i.imm i.opnd :=
  (h ▸ toInstr_imm i).symm

section
variable {s : State} (hs : s.configured = false)
include hs

theorem exec_execute_notConfigured {n : BitVec 24} {ws : List Word} (hlen : ws.length = 2 * n.toNat) :
    exec (.execute n ws) s = settle .execute s (.error .notConfigured) := by
  show execExecute n ws s = _
  simp [execExecute, hlen, hs]

theorem exec_ssExecute_notConfigured {n : BitVec 24} {ws : List Word} (hlen : ws.length = 2 * n.toNat) :
    exec (.ssExecute n ws) s = settle .ssExecute s (.error .notConfigured) := by
  show execSsExecute n ws s = _
  simp [execSsExecute, hlen, hs]

theorem exec_detPush_notConfigured {ws : List Word} (hlen : ws.length = 2) :
    exec (.detPush ws) s = settle .detPush s (.error .notConfigured) := by
  obtain ⟨re, im, rfl⟩ := List.length_eq_two.1 hlen
  show execDetPush [re, im] s = _
  simp [execDetPush, hs]

end

/-- Settles O5: the count is the first check of every meaning, and CONFIGURED the second of the three. -/
theorem failureOrder : Obligations.FailureOrder := by
  refine ⟨fun i s h => exec_of_not_wellFormed s h, ?notConfigured⟩
  case notConfigured =>
    intro i s hop hwf hs
    have hcount := (wellFormed_eq_true_iff i).1 hwf
    obtain h | h | h := hop
    · rw [eq_toInstr_of_op h] at hcount ⊢
      exact exec_execute_notConfigured hs (Option.some.inj hcount).symm
    · rw [eq_toInstr_of_op h] at hcount ⊢
      exact exec_ssExecute_notConfigured hs (Option.some.inj hcount).symm
    · rw [eq_toInstr_of_op h] at hcount ⊢
      exact exec_detPush_notConfigured hs (Option.some.inj hcount).symm

end Sys2Proof.Machine

/-! PROOFS of the family 40_oscillator_pll.md: the phase conversions (R151 to R153), the oscillator's commands and their
encodings (R163 to R165), the PLL (R167, R170, R171) and the writers of the oscillator (R172). The PLL's products stay
finite because its bandwidth is of magnitude at most 1, and an error taken as 0 then makes both corrections 0. -/

namespace Sys2Proof

/-! ### Rounding to the nearest integer and below a bound -/

/-- A fraction not above a finite pattern's value rounds to at most that pattern. -/
theorem roundUnits_le_of_le {a d M : Nat} (hd : 0 < d) (hM : M < infBits) (h : a ≤ units M * d) :
    roundUnits a d ≤ M := by
  calc roundUnits a d
    _ ≤ roundUnits (units M * d) d := roundUnits_mono d h
    _ = M := by rw [roundUnits_mul_self _ hd, roundUnits_units hM]

/-- `rne` is an integer nearest the fraction `a / b`, and of two equally near ones the even one. -/
theorem rne_nearest (a : Nat) {b : Nat} (hb : 0 < b) :
    2 * ((rne a b : Int) * b - a).natAbs ≤ b ∧
      (2 * ((rne a b : Int) * b - a).natAbs = b → (rne a b : Int) % 2 = 0) := by
  have hdiv : (a : Int) = (a / b : Nat) * b + (a % b : Nat) := by exact_mod_cast (Nat.div_add_mod' a b).symm
  have hmod := Nat.mod_lt a hb
  by_cases hup : b < 2 * (a % b) ∨ 2 * (a % b) = b ∧ a / b % 2 = 1
  · have hrne : rne a b = a / b + 1 := by
      unfold rne
      simp only [Bool.or_eq_true, Bool.and_eq_true, decide_eq_true_eq, beq_iff_eq, if_pos hup]
    have herr : (rne a b : Int) * b - a = b - (a % b : Nat) := by
      rw [hrne, Nat.cast_add_one]
      linear_combination -hdiv
    rw [herr, hrne]
    omega
  · have hrne : rne a b = a / b := by
      unfold rne
      simp only [Bool.or_eq_true, Bool.and_eq_true, decide_eq_true_eq, beq_iff_eq, if_neg hup]
    have herr : (rne a b : Int) * b - a = -(a % b : Nat) := by rw [hrne]; linear_combination -hdiv
    rw [herr, hrne]
    omega

theorem R.roundHalfEven_num (neg : Bool) {m : Fin 2139095041} (hm : m.val < infBits) :
    (R.num neg m).roundHalfEven = signOf neg * rne (units m) (2 ^ 149) := by
  rw [R.roundHalfEven, if_neg hm.ne]
  cases rne (units m) (2 ^ 149) with
  | zero => simp
  | succ n => cases neg <;> simp [signOf]

theorem natAbs_signOf (neg : Bool) : (signOf neg).natAbs = 1 := by cases neg <;> rfl

theorem signOf_mul_emod_two (neg : Bool) (z : Int) : signOf neg * z % 2 = z % 2 := by
  cases neg with
  | false => rw [signOf, if_neg Bool.false_ne_true, Int.one_mul]
  | true => rw [signOf, if_pos rfl, Int.neg_one_mul, Int.neg_emod_two]

/-- `roundHalfEven` of a finite value: the nearest integer, of two the even one (R152). -/
theorem R.roundHalfEven_nearest (neg : Bool) {m : Fin 2139095041} (hm : m.val < infBits) :
    2 * ((R.num neg m).roundHalfEven * 2 ^ 149 - signedUnits neg m).natAbs ≤ 2 ^ 149 ∧
      (2 * ((R.num neg m).roundHalfEven * 2 ^ 149 - signedUnits neg m).natAbs = 2 ^ 149 →
        (R.num neg m).roundHalfEven % 2 = 0) := by
  rw [R.roundHalfEven_num neg hm, signedUnits_eq, Int.mul_assoc, ← Int.mul_sub, Int.natAbs_mul, natAbs_signOf,
    Nat.one_mul, signOf_mul_emod_two]
  exact_mod_cast rne_nearest (units m) (b := 2 ^ 149) (by decide)

/-! ### Radians to phases (R152) -/

theorem decR_phaseScale : decR 0x4E22F983 = Config.phaseScale := by decide

theorem decR_radScale : decR 0x30C90FDB = Config.radScale := by decide

/-- The pattern of the magnitude of an angle's product with PHASE_SCALE. -/
def scaledBits (m : Nat) : Nat := roundUnits (units m * units 0x4E22F983) (2 ^ 149)

theorem R.mul_phaseScale (neg : Bool) {m : Fin 2139095041} (hm : m.val < infBits) :
    (R.num neg m).mul Config.phaseScale = R.mk neg (scaledBits m) := by
  calc (R.num neg m).mul Config.phaseScale
    _ = R.round (neg != false) (units m * units 0x4E22F983) (2 ^ 149) := R.mul_num neg false m _ hm (by decide)
    _ = R.mk neg (scaledBits m) := by rw [Bool.bne_false]; rfl

theorem scaledBits_mono {a b : Nat} (hb : b < infBits) (h : a ≤ b) : scaledBits a ≤ scaledBits b :=
  roundUnits_mono _ (Nat.mul_le_mul_right _ (units_le_units hb h))

/-- The least angle whose product reaches the guard of 2^62, and the greatest whose product does not. -/
theorem scaledBits_guard : scaledBits 0x4FC90FDB = 0x5E800000 ∧ scaledBits 0x4FC90FDA < 0x5E800000 := by decide

/-- The guard of `toPhase` passes exactly the magnitudes below 2^62. -/
theorem R.guard_num (neg : Bool) (v : Fin 2139095041) :
    ((R.num neg v).gt Config.negTwoPow62 && (R.num neg v).lt Config.twoPow62) = decide (v.val < 0x5E800000) := by
  rw [Bool.eq_iff_iff, Bool.and_eq_true, decide_eq_true_eq, R.gt, R.lt_iff, R.lt_iff]
  have hlo : Config.negTwoPow62.ord = some (-0x5E800000) := rfl
  have hhi : Config.twoPow62.ord = some 0x5E800000 := rfl
  simp only [R.ord_num, hlo, hhi, Option.some.injEq, exists_and_left, exists_eq_left']
  cases neg <;> simp <;> omega

theorem toPhase_num (neg : Bool) {m : Fin 2139095041} {v : Fin 2139095041}
    (h : (R.num neg m).mul Config.phaseScale = .num neg v) :
    toPhase (.num neg m) = if v.val < 0x5E800000 then BitVec.ofInt 32 (R.num neg v).roundHalfEven else 0 := by
  unfold toPhase
  dsimp only
  rw [h, R.guard_num]
  by_cases hv : v.val < 0x5E800000 <;> simp [hv]

theorem toPhase_nan (neg : Bool) (frac : Fin 8388607) : toPhase (.nan neg frac) = 0 := rfl

theorem toPhase_inf (neg : Bool) : toPhase (R.inf neg) = 0 := by cases neg <;> rfl

theorem toPhase_above_guard (neg : Bool) {m : Fin 2139095041} (h : 0x4FC90FDB ≤ m.val) : toPhase (.num neg m) = 0 := by
  rcases Nat.lt_or_ge m.val infBits with hm | hm
  · have hbig : 0x5E800000 ≤ scaledBits m := scaledBits_guard.1 ▸ scaledBits_mono hm h
    rw [toPhase_num neg (R.mul_phaseScale neg hm)]
    exact if_neg (Nat.not_lt.2 (Nat.le_min.2 ⟨hbig, by decide⟩))
  · obtain rfl : m = 0x7F800000 := Fin.ext (by unfold infBits at hm; show m.val = 0x7F800000; omega)
    exact toPhase_inf neg

/-- Below the guard `toPhase` takes the integer nearest the product with PHASE_SCALE, modulo 2^32. -/
theorem toPhase_below_guard (neg : Bool) {m : Fin 2139095041} (h : m.val < 0x4FC90FDB) :
    ∃ v : Fin 2139095041, (R.num neg m).mul Config.phaseScale = .num neg v ∧ v.val < 0x5E800000 ∧
      toPhase (.num neg m) = BitVec.ofInt 32 (R.num neg v).roundHalfEven := by
  have hm : m.val < infBits := by unfold infBits; omega
  have hsmall : scaledBits m < 0x5E800000 :=
    (scaledBits_mono (b := 0x4FC90FDA) (by decide) (by omega)).trans_lt scaledBits_guard.2
  have hmul := R.mul_phaseScale neg hm
  have hv : min (scaledBits m) infBits < 0x5E800000 := (Nat.min_le_left _ _).trans_lt hsmall
  exact ⟨_, hmul, hv, (toPhase_num neg hmul).trans (if_pos hv)⟩

/-- A zero of either sign turns nothing. -/
theorem R.IsUnits.toPhase_eq_zero {x : R} (hx : x.IsUnits 0) : toPhase x = 0 := by
  have hscale : Config.phaseScale.IsUnits (signedUnits false 0x4E22F983) := R.isUnits_num false (by decide)
  have hprod : (x.mul Config.phaseScale).IsUnits (0 * 2 ^ 149) :=
    hx.mul hscale (by ring) ⟨0, by decide, rfl⟩
  unfold toPhase
  dsimp only
  rw [hprod.roundHalfEven]
  exact ite_self _

theorem cis_quarters :
    cis 0 = ⟨Config.one, R.zero⟩ ∧ cis 0x40000000 = ⟨R.zero, Config.one⟩ ∧
      cis 0x80000000 = ⟨Config.negOne, R.zero⟩ ∧ cis 0xC0000000 = ⟨R.zero, Config.negOne⟩ := by decide

theorem toPhase_examples :
    toPhase R.zero = 0 ∧ toPhase Config.pi = 0x80000000 ∧ toPhase (decR 0x3E000000) = 0x0517CC18 ∧
      toPhase (decR 0x3C800000) = 0x00A2F983 := by decide

theorem R.zero_mul_num {m : Fin 2139095041} (hm : m.val < infBits) : R.zero.mul (.num false m) = R.zero := by
  have hunits : units 0 = 0 := rfl
  calc R.zero.mul (.num false m)
    _ = R.round false (units 0 * units m) (2 ^ 149) := R.mul_num false false 0 m (by decide) hm
    _ = R.round false (units 0 * 2 ^ 149) (2 ^ 149) := by rw [hunits, Nat.zero_mul, Nat.zero_mul]
    _ = R.zero := round_units_mul false (m := 0) (by decide) (by decide)

theorem phaseToRad_zero : phaseToRad 0 = R.zero := by
  have hzero : R.ofInt 0 = R.zero := by decide
  rw [phaseToRad, show (0 : Word).toInt = 0 from rfl, hzero]
  exact R.zero_mul_num (by decide)

/-- Settles O30: the product with PHASE_SCALE is monotone in the angle, so that the guard splits the angles at the one
whose product is 2^62. -/
theorem phaseConversions : Obligations.PhaseConversions := by
  obtain ⟨hc0, hc1, hc2, hc3⟩ := cis_quarters
  obtain ⟨hzero, hpi, heighth, hsixtyfourth⟩ := toPhase_examples
  refine ⟨hc0, hc1, hc2, hc3, hzero, hpi, heighth, hsixtyfourth, phaseToRad_zero, toPhase_nan, toPhase_inf,
    fun neg _ => toPhase_above_guard neg, ?below, fun u => by rw [decR_radScale]; rfl⟩
  case below =>
    intro neg m hm
    obtain ⟨v, hmul, hv, hphase⟩ := toPhase_below_guard neg hm
    obtain ⟨hnear, heven⟩ := R.roundHalfEven_nearest neg (m := v) (by unfold infBits; omega)
    exact ⟨neg, v, signedUnits neg v, (R.num neg v).roundHalfEven, decR_phaseScale ▸ hmul, hv, rfl, hnear, heven,
      hphase⟩

/-! ### Values of magnitude at most 1 -/

/-- A finite value of magnitude at most 1. -/
def R.AtMostOne (x : R) : Prop := ∃ neg m, x = .num neg m ∧ m.val ≤ 0x3F800000

theorem R.AtMostOne.isUnits {x : R} (h : x.AtMostOne) : ∃ z, x.IsUnits z := by
  obtain ⟨neg, m, rfl, hm⟩ := h
  exact ⟨_, R.isUnits_num neg (by unfold infBits; omega)⟩

theorem R.atMostOne_of_within {x : R} (h : x.within R.zero Config.one = true) : x.AtMostOne := by
  obtain ⟨z, lo, hi, hz, hlo, hhi, hge, hle⟩ := (R.within_iff _ _ _).1 h
  cases hlo
  cases hhi
  cases x with
  | nan neg f => cases hz
  | num neg m =>
    rw [R.ord_num] at hz
    cases hz
    refine ⟨neg, m, rfl, ?_⟩
    cases neg <;> simp at hge hle <;> omega

theorem R.atMostOne_round (neg : Bool) {a d : Nat} (hd : 0 < d) (h : a ≤ 2 ^ 149 * d) : (R.round neg a d).AtMostOne :=
  ⟨neg, _, rfl, (Nat.min_le_left _ _).trans (roundUnits_le_of_le hd (by decide) (units_one.symm ▸ h))⟩

theorem units_le_one {m : Nat} (h : m ≤ 0x3F800000) : units m ≤ 2 ^ 149 := units_one ▸ units_le_units (by decide) h

theorem R.AtMostOne.mul {x y : R} (hx : x.AtMostOne) (hy : y.AtMostOne) : (x.mul y).AtMostOne := by
  obtain ⟨na, ma, rfl, ha⟩ := hx
  obtain ⟨nb, mb, rfl, hb⟩ := hy
  rw [R.mul_num _ _ _ _ (by unfold infBits; omega) (by unfold infBits; omega)]
  exact R.atMostOne_round _ (by decide) (Nat.mul_le_mul (units_le_one ha) (units_le_one hb))

theorem R.AtMostOne.div_ofNat {x : R} (hx : x.AtMostOne) {n : Nat} (hpos : 0 < n) (hn : n ≤ 2 ^ 24) :
    (x.div (R.ofNat n)).AtMostOne := by
  obtain ⟨na, ma, rfl, ha⟩ := hx
  obtain ⟨nb, mb, q, hofNat, hb, hunits, hq⟩ := (R.isUnits_ofNat hn).exists_whole
  have hqpos : 0 < q := Nat.pos_of_ne_zero fun h0 => by rw [h0, Int.natCast_zero, Int.mul_zero] at hq; omega
  have hden : 2 ^ 149 ≤ units mb := hunits ▸ Nat.le_mul_of_pos_left _ hqpos
  have hmb : mb.val ≠ 0 := fun h0 => absurd hden (by rw [h0]; decide)
  rw [hofNat, R.div_num _ _ _ _ (by unfold infBits; omega) hb hmb]
  refine R.atMostOne_round _ (Nat.lt_of_lt_of_le (by decide) hden) ?_
  exact Nat.mul_le_mul (units_le_one ha) hden

/-- A correction by an error of 0 turns nothing. -/
theorem R.AtMostOne.toPhase_mul_zero {x : R} (hx : x.AtMostOne) : toPhase (x.mul R.zero) = 0 := by
  obtain ⟨z, hz⟩ := hx.isUnits
  exact (hz.mul R.isUnits_zero (by ring) ⟨0, by decide, rfl⟩).toPhase_eq_zero

end Sys2Proof

namespace Sys2Proof.Machine

/-! ### The PLL (R167, R171) -/

theorem zero_within_pi : R.zero.within Config.negPi Config.pi = true := by decide

/-- With an error of 0 and a legal bandwidth both corrections are 0. -/
theorem pllStep_zero {k : Nat} {bw : R} (n : Nco) (hk : 1 ≤ k) (hkMax : k ≤ Config.kMax)
    (hbw : bw.within R.zero Config.one = true) : pllStep k bw R.zero n = n := by
  have hphase := R.atMostOne_of_within hbw
  have hk24 : 2 * k ≤ 2 ^ 24 := by unfold Config.kMax at hkMax; omega
  have hfreq := (hphase.mul hphase).div_ofNat (n := 2 * k) (by omega) hk24
  have hadd (x : Word) : x + 0 = x := BitVec.add_zero x
  simp only [pllStep, zero_within_pi, if_true, hphase.toPhase_mul_zero, hfreq.toPhase_mul_zero, hadd]

/-- An error outside [-PI, PI] acts as 0. -/
theorem pllStep_of_not_within (k : Nat) (bw : R) {e : R} (n : Nco) (he : e.within Config.negPi Config.pi = false) :
    pllStep k bw e n = pllStep k bw R.zero n := by
  simp only [pllStep, he, zero_within_pi, Bool.false_eq_true, if_false, if_true]

/-- Settles O28: the error acts as 0, and an error of 0 corrects nothing. -/
theorem pllIgnoresBadError : Obligations.PllIgnoresBadError := by
  intro k bw e n hk hkMax hbw he
  rw [pllStep_of_not_within k bw n he, pllStep_zero n hk hkMax hbw]

theorem exec_pllStep (s : State) (w : Word) :
    exec (.pllStep [w]) s = .next ({ s with nco := pllStep s.cfg.k s.pllBw (decR w) s.nco }.respond []) := rfl

/-- Settles O27: PLL_STEP completes with `pll_step` of its operand, whose range check is R167's guard. -/
theorem pllStepResult : Obligations.PllStepResult := by
  intro s w
  exact ⟨_, rfl, exec_pllStep s w⟩

/-! ### The writers of the oscillator (R172) -/

/-- A register write reaches the phase through NCO_PHASE and the frequency through NCO_FREQ alone. -/
theorem regWritten_nco {s t : State} {v : Word} {r : Reg} (h : regWritten s v r = .ok t) :
    (r ≠ .ncoPhase → t.nco.theta = s.nco.theta) ∧ (r ≠ .ncoFreq → t.nco.omega = s.nco.omega) := by
  cases r with
  | ncoPhase => cases h; exact ⟨fun hr => (hr rfl).elim, fun _ => rfl⟩
  | ncoFreq => cases h; exact ⟨fun _ => rfl, fun hr => (hr rfl).elim⟩
  | cfg | err => cases h; exact ⟨fun _ => rfl, fun _ => rfl⟩
  | thresh | agcEnergy =>
    dsimp only [regWritten] at h
    split at h
    · cases h; exact ⟨fun _ => rfl, fun _ => rfl⟩
    · cases h
  | _ => cases h

theorem Effect.theta_eq {s t : State} {i : Instr} {r : List Word}
    (hop : i.op ∉ [Op.oscStep, .pllStep, .oscAdjPhase, .regWrite, .execute, .configure, .resetBlock])
    (h : Effect s i t r) : t.nco.theta = s.nco.theta := by
  cases h with
  | oscStep | pllStep | oscAdjPhase | regWrite | execute | configure | resetBlock => simp [Instr.op] at hop
  | _ => rfl

theorem Effect.omega_eq {s t : State} {i : Instr} {r : List Word}
    (hop : i.op ∉ [Op.pllStep, .oscAdjFreq, .regWrite, .execute, .configure, .resetBlock]) (h : Effect s i t r) :
    t.nco.omega = s.nco.omega := by
  cases h with
  | pllStep | oscAdjFreq | regWrite | execute | configure | resetBlock => simp [Instr.op] at hop
  | _ => rfl

/-- REG_WRITE by its address. -/
theorem Effect.regWrite_nco {s t : State} {a : BitVec 8} {ws r : List Word} (h : Effect s (.regWrite a ws) t r) :
    (a ≠ 0x21 → t.nco.theta = s.nco.theta) ∧ (a ≠ 0x22 → t.nco.omega = s.nco.omega) := by
  cases h with
  | regWrite _ v q hq _ ht =>
    obtain ⟨htheta, homega⟩ := regWritten_nco ht
    have haddr := addr_of_ofAddr hq
    exact ⟨fun ha => htheta fun hphase => ha (by rw [← haddr, hphase]; rfl),
      fun ha => homega fun hfreq => ha (by rw [← haddr, hfreq]; rfl)⟩

/-- Settles O31: a failure touches no oscillator, and the effects are taken one by one. -/
theorem oscillatorWriters : Obligations.OscillatorWriters := by
  intro i s t h
  obtain ⟨c, -, rfl⟩ | ⟨u, r, he, rfl⟩ := exec_next h
  · exact ⟨fun _ => rfl, fun _ => rfl, fun _ _ _ => ⟨fun _ => rfl, fun _ => rfl⟩⟩
  · refine ⟨he.theta_eq, he.omega_eq, ?regWrite⟩
    case regWrite =>
      rintro a ws rfl
      exact he.regWrite_nco

/-! ### The oscillator's commands (R163 to R165) -/

/-- The encoding of a command of format Z without response words, from the opcode map (R113, R116). -/
theorem encodedZ {o : Op} (himm : o.immBits = 0) (hresp : failResponse .illegalCmd o = []) :
    EncodedZ o.code o (o.toInstr 0) := by
  refine ⟨fun ws => ?zero, fun imm ws hne => ?nonzero⟩
  case zero =>
    rw [decode_word, ofCode_code]
    exact if_pos (Nat.two_pow_pos _)
  case nonzero =>
    have hpos : ¬ imm.toNat < 2 ^ o.immBits := by rw [himm]; bv_omega
    have hdecode : decode ⟨o.code ++ imm, ws⟩ = .error (.reservedImm o) := by
      rw [decode_word, ofCode_code]
      exact if_neg hpos
    refine ⟨hdecode, fun s rest hcmds => ?_⟩
    rw [step_of_decode_error hcmds hdecode, illegal, hresp]

/-- A command of a fixed operand count given another fails with BAD_OPERANDS (R112). -/
theorem exec_of_wrong_count {i : Instr} {n : Nat} (s : State) (hcount : i.expectedCount = some n)
    (hlen : i.opnd.length ≠ n) :
    exec i s = .next (s.failWith .badOperands (failResponse .badOperands i.op)) :=
  exec_of_not_wellFormed s ((wellFormed_eq_false_iff i).2 fun h => hlen (Option.some.inj (h.symm.trans hcount)))

theorem exec_oscStep (s : State) : exec (.oscStep []) s = .next ({ s with nco := ncoStep s.nco }.respond []) := rfl

theorem exec_oscAdjPhase (s : State) (d : Word) :
    exec (.oscAdjPhase [d]) s = .next ({ s with nco := { s.nco with theta := s.nco.theta + d } }.respond []) := rfl

theorem exec_oscAdjFreq (s : State) (d : Word) :
    exec (.oscAdjFreq [d]) s = .next ({ s with nco := { s.nco with omega := s.nco.omega + d } }.respond []) := rfl

/-- Settles O26: the three encodings, effects and operand counts. -/
theorem oscillatorMoves : Obligations.OscillatorMoves := by
  refine ⟨encodedZ (o := .oscStep) rfl rfl, encodedZ (o := .oscAdjPhase) rfl rfl, encodedZ (o := .oscAdjFreq) rfl rfl,
    exec_oscStep, fun s d => ⟨exec_oscAdjPhase s d, exec_oscAdjFreq s d⟩, fun s ws => ⟨?step, ?adjust⟩⟩
  case step => exact fun hlen => exec_of_wrong_count (i := .oscStep ws) s rfl hlen
  case adjust =>
    exact fun hlen =>
      ⟨exec_of_wrong_count (i := .oscAdjPhase ws) s rfl hlen, exec_of_wrong_count (i := .oscAdjFreq ws) s rfl hlen⟩

/-! ### One element in [0, 1] (R170, R195, R225, R368) -/

section
variable {o : Op} {set : R → State → State} {w : Word} (s : State)

theorem storeUnit_stores (hw : (decR w).within R.zero Config.one = true) :
    storeUnit o set [w] s = .next ((set (decR w) s).respond []) := by
  simp only [storeUnit, hw, if_true, settle_ok]

theorem storeUnit_rejects (hw : (decR w).within R.zero Config.one = false) :
    storeUnit o set [w] s = .next (s.failWith .badOperands (failResponse .badOperands o)) := by
  simp only [storeUnit, hw, Bool.false_eq_true, if_false, settle_error]

end

/-- Settles O29: the four commands are one store behind one range check. -/
theorem unitRangeWrites : Obligations.UnitRangeWrites := by
  intro s w
  rw [exec_pllSetBw_eq, exec_agcSetBw_eq, exec_ssSetBw_eq, exec_setThreshold_eq]
  refine ⟨fun hge hle => ?inRange, fun hout => ?outside⟩
  case inRange =>
    have hw : (decR w).within R.zero Config.one = true := (unitWord_iff w).2 ⟨hge, hle⟩
    exact ⟨storeUnit_stores s hw, storeUnit_stores s hw, storeUnit_stores s hw, storeUnit_stores s hw⟩
  case outside =>
    have hw : (decR w).within R.zero Config.one = false := hout
    exact ⟨storeUnit_rejects s hw, storeUnit_rejects s hw, storeUnit_rejects s hw, storeUnit_rejects s hw⟩

end Sys2Proof.Machine

/-! PROOFS of the family 41_agc.md: AGC_EXECUTE and AGC_SEED (R191, R194, R196, R197), both by one rule about the energy
update. -/

namespace Sys2Proof.Machine

/-- R191, R194: only the energy can move, and it does exactly when the update lies in [0, E_MAX]. -/
theorem agcUpdate_eq (g : Agc) (en : R) :
    agcUpdate g en = { g with e := if en.ge R.zero && en.le Config.eMax then en else g.e } := by
  unfold agcUpdate R.within
  split
  case isTrue => rfl
  case isFalse => rfl

theorem exec_agcExecute (s : State) (re im : Word) :
    exec (.agcExecute [re, im]) s = .next
      ({ s with agc := (agcExecute s.cfg.A (decC re im) s.agc).1 }.respond
        (encC (agcExecute s.cfg.A (decC re im) s.agc).2.1 ++ [encR (agcExecute s.cfg.A (decC re im) s.agc).2.2])) :=
  rfl

theorem exec_agcSeed (s : State) (w : Word) :
    exec (.agcSeed [w]) s = .next ({ s with agc := agcSeed s.cfg.A (decR w) s.agc }.respond []) := rfl

/-- Settles O32: both commands are one energy update, and the gain and the level of AGC_EXECUTE read the updated energy. -/
theorem agcCommands : Obligations.AgcCommands := by
  intro s a b
  refine ⟨⟨_, _, rfl, rfl, ?execute⟩, _, _, rfl, rfl, ?seed⟩
  case execute => rw [exec_agcExecute, agcExecute, agcUpdate_eq, decC]
  case seed => rw [exec_agcSeed, agcSeed, agcUpdate_eq]

end Sys2Proof.Machine

/-! PROOFS of the family 42_symsync.md: SS_EXECUTE (R226), the push and the rotation (R212, R213, R217), and the range of
the timing state (R214). A turn of R213's loop adds at least k/4 >= 1/2 to a time above -1, so the loop ends within three
turns; what holds at its end is proved once, by induction over the turns. -/

namespace Sys2Proof

/-! ### The order of exact values -/

/-- Comparison of finite values is comparison of their units. -/
theorem R.IsUnits.le_iff {x y : R} {p q : Int} (hx : x.IsUnits p) (hy : y.IsUnits q) : x.le y = true ↔ p ≤ q := by
  have hle : x.le y = true ↔ roundInt p ≤ roundInt q := by simp [R.le_iff, hx.ord_eq, hy.ord_eq]
  rw [hle]
  refine ⟨fun h => ?_, roundInt_mono⟩
  obtain ⟨na, ma, -, ha, rfl⟩ := hx
  obtain ⟨nb, mb, -, hb, rfl⟩ := hy
  rw [roundInt_signedUnits ha, roundInt_signedUnits hb] at h
  have hu0 : units 0 = 0 := rfl
  have hup (h : ma.val ≤ mb.val) := units_le_units hb h
  have hdown (h : mb.val ≤ ma.val) := units_le_units ha h
  unfold signedUnits
  cases na <;> cases nb <;> simp only [Bool.false_eq_true, if_false, if_true] at h ⊢
  · have := hup (by omega); omega
  · have h1 : ma.val = 0 := by omega
    have h2 : mb.val = 0 := by omega
    rw [h1, h2, hu0]; decide
  · omega
  · have := hdown (by omega); omega

theorem R.natAbs_ord {neg : Bool} {m : Fin 2139095041} {r : Int} (h : (R.num neg m).ord = some r) :
    r.natAbs = m.val := by
  rw [R.ord_num] at h
  cases h
  cases neg <;> simp

theorem R.le_of_lt {x y : R} (h : x.lt y = true) : x.le y = true := by
  obtain ⟨p, q, hp, hq, hpq⟩ := (R.lt_iff _ _).1 h
  exact (R.le_iff _ _).2 ⟨p, q, hp, hq, hpq.le⟩

/-- A value between two finite values is finite, and its units are between theirs. -/
theorem R.exists_isUnits_of_within {x lo hi : R} {p q : Int} (hlo : lo.IsUnits p) (hhi : hi.IsUnits q)
    (h : x.within lo hi = true) : ∃ z, x.IsUnits z ∧ p ≤ z ∧ z ≤ q := by
  have hunits : ∃ z, x.IsUnits z := by
    obtain ⟨r, l, u, hr, hl, hu, hlr, hru⟩ := (R.within_iff _ _ _).1 h
    obtain ⟨na, ma, rfl, ha, -⟩ := hlo
    obtain ⟨nb, mb, rfl, hb, -⟩ := hhi
    cases x with
    | nan neg f => cases hr
    | num neg m =>
      have hr' := R.natAbs_ord hr
      have hl' := R.natAbs_ord hl
      have hu' := R.natAbs_ord hu
      exact ⟨_, R.isUnits_num neg (by omega)⟩
  obtain ⟨z, hz⟩ := hunits
  exact ⟨z, hz, (hlo.le_iff hz).1 (R.within_ge h), (hz.le_iff hhi).1 (R.within_le h)⟩

/-- A clamp between ordered bounds lies between them, whatever is clamped. -/
theorem R.clamp_within (v : R) {lo hi : R} (h : lo.le hi = true) : (v.clamp lo hi).within lo hi = true := by
  obtain ⟨l, u, hl, hu, hlu⟩ := (R.le_iff _ _).1 h
  rw [R.within_iff]
  generalize hw : v.clamp lo hi = w
  obtain hc | hc | ⟨hc, hge, hgt⟩ := hw ▸ R.clamp_cases v lo hi
  · exact ⟨l, l, u, hc.symm ▸ hl, hl, hu, le_refl l, hlu⟩
  · exact ⟨u, l, u, hc.symm ▸ hu, hl, hu, hlu, le_refl u⟩
  · obtain ⟨l', x, hl', hx, hlx⟩ := (R.le_iff _ _).1 hge
    cases hl.symm.trans hl'
    refine ⟨x, l, u, hc.symm ▸ hx, hl, hu, hlx, not_lt.1 fun hux => ?_⟩
    have := (R.lt_iff hi v).2 ⟨u, x, hu, hx, hux⟩
    rw [R.gt, this] at hgt
    cases hgt

/-! ### Values between quarters

Every bound of R213 and R214 is a whole number of quarters, so exact, and rounding cannot cross it. -/

/-- The finite value `x` is between `a/4` and `b/4`. -/
def R.Quarters (x : R) (a b : Int) : Prop := ∃ z, x.IsUnits z ∧ a * 2 ^ 147 ≤ z ∧ z ≤ b * 2 ^ 147

theorem R.IsUnits.quarters {x : R} {z a : Int} (h : x.IsUnits z) (hz : z = a * 2 ^ 147) : x.Quarters a a :=
  ⟨z, h, hz.ge, hz.le⟩

theorem R.quarters_zero : R.zero.Quarters 0 0 := R.isUnits_zero.quarters rfl

theorem R.Quarters.mono {x : R} {a b c d : Int} (h : x.Quarters a b) (hl : c ≤ a) (hu : b ≤ d) : x.Quarters c d := by
  obtain ⟨z, hz, hlo, hhi⟩ := h
  exact ⟨z, hz, by omega, by omega⟩

theorem R.exists_isUnits_quarter {a : Int} (ha : a.natAbs ≤ 2 ^ 24) : ∃ v : R, v.IsUnits (a * 2 ^ 147) :=
  ⟨_, R.isUnits_dyadic (e := 2) ha (by decide)⟩

/-- What is between two quarters exactly is between them rounded. -/
theorem R.quarters_of_ord {x : R} {a b z : Int} (ha : a.natAbs ≤ 2 ^ 24) (hb : b.natAbs ≤ 2 ^ 24)
    (hx : x.ord = some (roundInt z)) (hlo : a * 2 ^ 147 ≤ z) (hhi : z ≤ b * 2 ^ 147) : x.Quarters a b := by
  obtain ⟨lo, hl⟩ := R.exists_isUnits_quarter ha
  obtain ⟨hi, hh⟩ := R.exists_isUnits_quarter hb
  exact R.exists_isUnits_of_within hl hh
    ((R.within_iff _ _ _).2 ⟨_, _, _, hx, hl.ord_eq, hh.ord_eq, roundInt_mono hlo, roundInt_mono hhi⟩)

section
variable {x y : R} {a b c d : Int} (hx : x.Quarters a b)
include hx

theorem R.Quarters.add (hy : y.Quarters c d) (hl : (a + c).natAbs ≤ 2 ^ 24) (hu : (b + d).natAbs ≤ 2 ^ 24) :
    (x.add y).Quarters (a + c) (b + d) := by
  obtain ⟨p, hp, hap, hpb⟩ := hx
  obtain ⟨q, hq, hcq, hqd⟩ := hy
  exact R.quarters_of_ord hl hu (hp.ord_add hq) (by omega) (by omega)

theorem R.Quarters.sub (hy : y.Quarters c d) (hl : (a - d).natAbs ≤ 2 ^ 24) (hu : (b - c).natAbs ≤ 2 ^ 24) :
    (x.sub y).Quarters (a - d) (b - c) := by
  obtain ⟨p, hp, hap, hpb⟩ := hx
  obtain ⟨q, hq, hcq, hqd⟩ := hy
  exact R.quarters_of_ord hl hu (hp.ord_sub hq) (by omega) (by omega)

/-- A time that is not above 0 is between its lower bound and 0. -/
theorem R.Quarters.of_nonpos (h : x.le R.zero = true) : x.Quarters a 0 := by
  obtain ⟨z, hz, hlo, -⟩ := hx
  exact ⟨z, hz, hlo, by simpa using (hz.le_iff R.isUnits_zero).1 h⟩

theorem R.Quarters.le_zero_eq_false (ha : 0 < a) : x.le R.zero = false := by
  obtain ⟨z, hz, hlo, -⟩ := hx
  rw [← Bool.not_eq_true, hz.le_iff R.isUnits_zero]
  omega

theorem R.Quarters.gt_zero (h : x.le R.zero = false) : x.gt R.zero = true := by
  obtain ⟨z, hz, -, -⟩ := hx
  rw [R.le, hz.ord_eq, R.isUnits_zero.ord_eq, decide_eq_false_iff_not, not_le] at h
  exact (R.lt_iff _ _).2 ⟨_, _, R.isUnits_zero.ord_eq, hz.ord_eq, h⟩

theorem R.Quarters.le {v : R} (hv : v.IsUnits (b * 2 ^ 147)) : x.le v = true := by
  obtain ⟨z, hz, -, hhi⟩ := hx
  exact (hz.le_iff hv).2 hhi

end

theorem R.quarters_of_within {x lo hi : R} {a b c d : Int} (hlo : lo.Quarters a b) (hhi : hi.Quarters c d)
    (h : x.within lo hi = true) : x.Quarters a d := by
  obtain ⟨p, hp, hap, -⟩ := hlo
  obtain ⟨q, hq, -, hqd⟩ := hhi
  obtain ⟨z, hz, hpz, hzq⟩ := R.exists_isUnits_of_within hp hq h
  exact ⟨z, hz, by omega, by omega⟩

/-! The literals of R213 (R11). -/

theorem isUnits_one : Config.one.IsUnits (2 ^ 149) := ⟨false, 0x3F800000, rfl, by decide, by decide⟩
theorem isUnits_two : Config.two.IsUnits (2 * 2 ^ 149) := ⟨false, 0x40000000, rfl, by decide, by decide⟩
theorem isUnits_three : Config.three.IsUnits (3 * 2 ^ 149) := ⟨false, 0x40400000, rfl, by decide, by decide⟩
theorem isUnits_four : Config.four.IsUnits (4 * 2 ^ 149) := ⟨false, 0x40800000, rfl, by decide, by decide⟩

/-- Half of a positive value between halves is between quarters. -/
theorem R.Quarters.half {x : R} {a b : Nat} (h : x.Quarters (2 * a) (2 * b)) (ha : 0 < a) (hab : a ≤ b)
    (hb : b ≤ 2 ^ 24) : (x.div Config.two).Quarters a b := by
  obtain ⟨_, ⟨neg, m, rfl, hm, rfl⟩, hlo, hhi⟩ := h
  have hneg : neg = false := by
    cases neg with
    | false => rfl
    | true => simp only [signedUnits, if_true] at hlo; omega
  subst hneg
  simp only [signedUnits, Bool.false_eq_true, if_false] at hlo hhi
  have htwo : units 0x40000000 = 2 ^ 150 := by decide
  have hord : ((R.num false m).div Config.two).ord = some (roundUnits (units m * 2 ^ 149) (2 ^ 150) : Int) := by
    rw [Config.two, R.ofBits, R.div_num false false m _ hm (by decide) (by decide), R.ord_round]
    exact congrArg (fun d => some (roundUnits (units m * 2 ^ 149) d : Int)) htwo
  have hexact (n : Nat) : roundInt ((n : Int) * 2 ^ 147) = roundUnits (n * 2 ^ 147 * 2 ^ 150) (2 ^ 150) := by
    rw [roundUnits_mul_self _ (by decide), ← roundInt_natCast]; push_cast; rfl
  obtain ⟨lo, hl⟩ := R.exists_isUnits_quarter (a := a) (by omega)
  obtain ⟨hi, hh⟩ := R.exists_isUnits_quarter (a := b) (by omega)
  refine R.exists_isUnits_of_within hl hh ((R.within_iff _ _ _).2 ⟨_, _, _, hord, hl.ord_eq, hh.ord_eq, ?_, ?_⟩)
  · rw [hexact]
    exact_mod_cast roundUnits_mono _ (by omega)
  · rw [hexact]
    exact_mod_cast roundUnits_mono _ (by omega)

/-- A quotient that is exactly `a/4`. -/
theorem R.IsUnits.div_quarter {x y : R} {p q a : Int} (hx : x.IsUnits p) (hy : y.IsUnits q) (hq : q ≠ 0)
    (h : p * 2 ^ 149 = a * 2 ^ 147 * q) (ha : a.natAbs ≤ 2 ^ 24) : (x.div y).IsUnits (a * 2 ^ 147) :=
  hx.div hy hq h (by rw [natAbs_mul_pow]; exact representable_mul_pow ha (by decide))

/-! ### The bounds of R213 for `k` samples per symbol -/

section
variable {k : Nat} (hk : k ≤ 16)
include hk

theorem quarters_ofNat : (R.ofNat k).Quarters (4 * k) (4 * k) :=
  (R.isUnits_ofNat (by omega)).quarters (by ring)

theorem isUnits_threeK : (Config.three.mul (R.ofNat k)).IsUnits (3 * k * 2 ^ 149) :=
  isUnits_three.mul (R.isUnits_ofNat (by omega)) (by ring)
    (by rw [natAbs_mul_pow]; exact representable_mul_pow (by omega) (by decide))

theorem isUnits_quarterK : ((R.ofNat k).div Config.four).IsUnits (k * 2 ^ 147) :=
  (R.isUnits_ofNat (by omega)).div_quarter isUnits_four (by decide) (by ring) (by omega)

theorem isUnits_halfK : ((R.ofNat k).div Config.two).IsUnits (2 * k * 2 ^ 147) :=
  (R.isUnits_ofNat (by omega)).div_quarter isUnits_two (by decide) (by ring) (by omega)

theorem isUnits_threeQuarterK : ((Config.three.mul (R.ofNat k)).div Config.four).IsUnits (3 * k * 2 ^ 147) :=
  (isUnits_threeK hk).div_quarter isUnits_four (by decide) (by ring) (by omega)

/-- The increment to the next output, clamped (R213). -/
theorem clamp_quarters (v : R) :
    (v.clamp ((R.ofNat k).div Config.four) ((Config.three.mul (R.ofNat k)).div Config.four)).Quarters k (3 * k) :=
  R.quarters_of_within ((isUnits_quarterK hk).quarters rfl) ((isUnits_threeQuarterK hk).quarters rfl)
    (R.clamp_within v (((isUnits_quarterK hk).le_iff (isUnits_threeQuarterK hk)).2 (by omega)))

/-- The increment of a mid-point output, which a rate within half a period leaves between the same bounds. -/
theorem midPoint_quarters (hpos : 0 < k) {r : R} (hr : r.Quarters (-(2 * k)) (2 * k)) :
    (((R.ofNat k).add r).div Config.two).Quarters k (3 * k) := by
  have hsum := ((quarters_ofNat hk).add hr (by omega) (by omega)).mono (c := 2 * k) (d := 2 * (3 * k : Nat)) (by omega)
    (by omega)
  exact hsum.half hpos (by omega) (by omega)

end

end Sys2Proof

namespace Sys2Proof.Machine

/-! ### One turn of the loop (R213) -/

/-- The time and the rate of a unit between commands (R214). -/
def SymSync.Timed (cfg : Cfg) (u : SymSync) : Prop :=
  u.tau.gt R.zero = true ∧ u.tau.le ((Config.three.mul (R.ofNat cfg.k)).div Config.four) = true ∧
    u.r.within (R.zero.sub cfg.rmax) cfg.rmax = true

theorem timingOk_iff (s : State) : TimingOk s ↔ CfgOk s.cfg ∧ s.ss.Timed s.cfg := Iff.rfl

theorem TimingOk.with_ss {s : State} (hs : TimingOk s) {u : SymSync} (hu : u.Timed s.cfg) :
    TimingOk { s with ss := u } := (timingOk_iff _).2 ⟨hs.1, hu⟩

/-- A unit in the loop with at most `n` turns to go: each adds 1/2 or more to the time, and none leads above 3k/4. -/
def SymSync.TurnsLeft (cfg : Cfg) (n : Nat) (u : SymSync) : Prop :=
  u.tau.Quarters (2 - 2 * n) (3 * cfg.k) ∧ u.r.within (R.zero.sub cfg.rmax) cfg.rmax = true

section
variable {cfg : Cfg} (hcfg : CfgOk cfg)
include hcfg

theorem CfgOk.k_le : cfg.k ≤ 16 := hcfg.k_range.2

theorem CfgOk.rmax_quarters : cfg.rmax.Quarters 0 (2 * cfg.k) := by
  obtain ⟨hge, hlt⟩ := hcfg.rmax_range
  exact R.quarters_of_within R.quarters_zero ((isUnits_halfK hcfg.k_le).quarters rfl)
    (by rw [R.within, hge, R.le_of_lt hlt]; rfl)

theorem CfgOk.negRmax_quarters : (R.zero.sub cfg.rmax).Quarters (-(2 * cfg.k)) 0 := by
  have hk := hcfg.k_le
  have h := R.quarters_zero.sub hcfg.rmax_quarters (by omega) (by omega)
  exact h.mono (by omega) (by omega)

theorem CfgOk.rate_clamp (v : R) :
    (v.clamp (R.zero.sub cfg.rmax) cfg.rmax).within (R.zero.sub cfg.rmax) cfg.rmax = true := by
  obtain ⟨p, hp, -, hp0⟩ := hcfg.negRmax_quarters
  obtain ⟨q, hq, hq0, -⟩ := hcfg.rmax_quarters
  exact R.clamp_within v ((hp.le_iff hq).2 (by omega))

/-- A turn adds an increment between k/4 and 3k/4 to the time, and keeps the rate within its bounds. -/
theorem ssTurn_advances {u : SymSync} (hr : u.r.within (R.zero.sub cfg.rmax) cfg.rmax = true) :
    (∃ inc : R, inc.Quarters cfg.k (3 * cfg.k) ∧ (ssTurn cfg u).1.tau = u.tau.add inc) ∧
      (ssTurn cfg u).1.r.within (R.zero.sub cfg.rmax) cfg.rmax = true := by
  unfold ssTurn
  cases hh : u.half with
  | false => exact ⟨⟨_, clamp_quarters hcfg.k_le _, rfl⟩, hcfg.rate_clamp _⟩
  | true =>
    have hrate := R.quarters_of_within hcfg.negRmax_quarters hcfg.rmax_quarters hr
    exact ⟨⟨_, midPoint_quarters hcfg.k_le (by have := hcfg.k_range.1; omega) hrate, rfl⟩, hr⟩

theorem SymSync.TurnsLeft.turn {n : Nat} {u : SymSync} (hu : u.TurnsLeft cfg (n + 1)) (hn : n ≤ 2)
    (hle : u.tau.le R.zero = true) : (ssTurn cfg u).1.TurnsLeft cfg n := by
  obtain ⟨htau, hr⟩ := hu
  obtain ⟨⟨inc, hinc, heq⟩, hr'⟩ := ssTurn_advances hcfg hr
  obtain ⟨hk2, hk16⟩ := And.intro hcfg.k_range.1 hcfg.k_le
  have hsum := (htau.of_nonpos hle).add hinc (by omega) (by omega)
  exact ⟨heq ▸ hsum.mono (by omega) (by omega), hr'⟩

/-- A time in its range, one sample period later, is at least -1. -/
theorem SymSync.Timed.shift {u : SymSync} (hu : u.Timed cfg) (x : C) : (ssShift cfg x u).TurnsLeft cfg 3 := by
  obtain ⟨hgt, hle, hr⟩ := hu
  have hk := hcfg.k_le
  have hge : u.tau.ge R.zero = true := R.le_of_lt hgt
  have htau : u.tau.Quarters 0 (3 * cfg.k) :=
    R.quarters_of_within R.quarters_zero ((isUnits_threeQuarterK hk).quarters rfl) (by rw [R.within, hge, hle]; rfl)
  have hone : Config.one.Quarters 4 4 := isUnits_one.quarters (by norm_num)
  exact ⟨(htau.sub hone (by omega) (by omega)).mono (by omega) (by omega), hr⟩

theorem SymSync.TurnsLeft.timed {n : Nat} {u : SymSync} (hu : u.TurnsLeft cfg n) (h : u.tau.le R.zero = false) :
    u.Timed cfg :=
  ⟨hu.1.gt_zero h, hu.1.le (isUnits_threeQuarterK hcfg.k_le), hu.2⟩

/-! ### The loop ends -/

/-- The induction over the turns: the loop ends with no turn due, and its fuel does not cut it short. -/
theorem ssLoop_induction {motive : SymSync → List C → SymSync → Prop}
    (done : ∀ u, u.Timed cfg → u.tau.le R.zero = false → motive u [] u)
    (turn : ∀ u ys w, u.tau.le R.zero = true → motive (ssTurn cfg u).1 ys w → motive u ((ssTurn cfg u).2 ++ ys) w)
    {fuel n : Nat} (hfuel : n ≤ fuel) (hn : n ≤ 3) {u : SymSync} (hu : u.TurnsLeft cfg n) (out : List C) :
    ∃ ys w, ssLoop cfg fuel u out = (w, out ++ ys) ∧ motive u ys w := by
  induction fuel generalizing n u out with
  | zero =>
    obtain rfl : n = 0 := by omega
    have hend := hu.1.le_zero_eq_false (by decide)
    exact ⟨[], u, by rw [ssLoop, List.append_nil], done u (hu.timed hcfg hend) hend⟩
  | succ fuel ih =>
    rw [ssLoop]
    cases hle : u.tau.le R.zero with
    | false => exact ⟨[], u, by rw [List.append_nil]; rfl, done u (hu.timed hcfg hle) hle⟩
    | true =>
      obtain _ | n := n
      · rw [hu.1.le_zero_eq_false (by decide)] at hle
        cases hle
      · obtain ⟨ys, w, hloop, hw⟩ := ih (by omega) (by omega) (hu.turn hcfg (by omega) hle) (out ++ (ssTurn cfg u).2)
        exact ⟨_, w, by rw [if_pos rfl, hloop, List.append_assoc], turn u ys w hle hw⟩

/-- The loop of a push starts at most three turns before its end. -/
theorem ssPush_induction {motive : SymSync → List C → SymSync → Prop}
    (done : ∀ u, u.Timed cfg → u.tau.le R.zero = false → motive u [] u)
    (turn : ∀ u ys w, u.tau.le R.zero = true → motive (ssTurn cfg u).1 ys w → motive u ((ssTurn cfg u).2 ++ ys) w)
    {u : SymSync} (hu : u.Timed cfg) (x : C) : motive (ssShift cfg x u) (ssPush cfg x u).2 (ssPush cfg x u).1 := by
  obtain ⟨ys, w, hloop, hw⟩ :=
    ssLoop_induction hcfg done turn (fuel := ssFuel) (by unfold ssFuel; norm_num) (le_refl 3) (hu.shift hcfg x) []
  rw [ssPush, hloop]
  exact hw

theorem SymSync.Timed.push {u : SymSync} (hu : u.Timed cfg) (x : C) : (ssPush cfg x u).1.Timed cfg :=
  ssPush_induction hcfg (motive := fun _ _ w => w.Timed cfg) (fun _ h _ => h) (fun _ _ _ _ h => h) hu x

theorem SymSync.Timed.run (xs : List C) {u : SymSync} (hu : u.Timed cfg) : (ssRun cfg xs u).1.Timed cfg := by
  induction xs generalizing u with
  | nil => exact hu
  | cons x xs ih => exact ih (hu.push hcfg x)

theorem SymSync.Canonical.shift {u : SymSync} (hu : u.Canonical) (x : C) : (ssShift cfg x u).Canonical where
  line := cellsWf_memSetPrefix hu.line ((List.length_take_le _ _).trans hcfg.L_le)
  table := hu.table

/-- The initial time is 1, and every period has two samples at least (R219). -/
theorem ssInit_timed (u : SymSync) : (ssInit cfg u).Timed cfg := by
  have hk := hcfg.k_range.1
  obtain ⟨p, hp, -, hp0⟩ := hcfg.negRmax_quarters
  obtain ⟨q, hq, hq0, -⟩ := hcfg.rmax_quarters
  have hpos : Config.one.gt R.zero = true := by decide
  refine ⟨hpos, (isUnits_one.le_iff (isUnits_threeQuarterK hcfg.k_le)).2 (by omega), ?_⟩
  rw [R.within, R.ge, Bool.and_eq_true]
  exact ⟨(hp.le_iff R.isUnits_zero).2 (by omega), (R.isUnits_zero.le_iff hq).2 (by omega)⟩

end

/-! ### Every effect keeps the timing state (R214) -/

section
variable {s : State} (hs : TimingOk s)
include hs

theorem detect_timingOk (d : Detection) : TimingOk (detect d s) := by
  unfold detect
  dsimp only
  split
  · exact hs
  · exact hs

theorem startPayload_timingOk (sch : Scheme) (h : Header) : TimingOk (startPayload sch h s) := by
  unfold startPayload
  dsimp only
  split
  · exact hs
  · exact hs

theorem doReset_timingOk (restore : Bool) : TimingOk (doReset restore s) := hs

theorem takeSymbol_timingOk (y : C) : TimingOk (takeSymbol y s) := hs

theorem payloadDone_timingOk : TimingOk (payloadDone s) := hs

theorem headerDone_timingOk : TimingOk (headerDone s) := by
  have hdraw : TimingOk { s with draws := (frameDecode 6 s.cfg.hdrFi s.cfg.hdrFo s).2.2 } := hs
  obtain h | ⟨sch, hdr, -, h⟩ := headerDone_cases s
  · rw [h]; exact doReset_timingOk hdraw true
  · rw [h]; exact startPayload_timingOk hdraw sch hdr

end

/-- A symbol reaches the synchroniser by a rotation and by its bandwidth alone. -/
theorem symbol_timingOk (y : C) (s : State) (hs : TimingOk s) : TimingOk (symbol y s) := by
  have hpush : TimingOk { s with det := (detPush s.cfg s.thresh y s.det).1 } := hs
  have htake := takeSymbol_timingOk hs y
  obtain ⟨-, -, h⟩ | ⟨d, -, -, h⟩ | ⟨-, -, h⟩ | ⟨-, -, h⟩ | ⟨-, -, h⟩ | ⟨-, -, h⟩ | ⟨-, h⟩ := symbol_cases y s
  all_goals rw [h]
  · exact hpush
  · exact detect_timingOk hpush d
  · exact headerDone_timingOk htake
  · exact htake
  · exact payloadDone_timingOk htake
  · exact htake
  · exact doReset_timingOk hs _

theorem frontEnd_timingOk (x : C) (s : State) (hs : TimingOk s) :
    TimingOk { (frontEnd x s).1 with ss := (ssPush s.cfg (frontEnd x s).2 s.ss).1 } :=
  hs.with_ss (SymSync.Timed.push hs.1 hs.2 _)

theorem reset_timingOk : TimingOk State.reset := ⟨cfgReset_ok, ssInit_timed cfgReset_ok State.reset.ss⟩

theorem regWritten_timingOk {s t : State} {v : Word} {r : Reg} (hs : TimingOk s) (h : regWritten s v r = .ok t) :
    TimingOk t := by
  obtain ⟨q, rfl⟩ | rfl | ⟨n, rfl⟩ | ⟨-, rfl⟩ | ⟨-, rfl⟩ := regWritten_ok h <;> exact hs

theorem Effect.timingOk {s t : State} {i : Instr} {r : List Word} (hs : TimingOk s) (h : Effect s i t r) :
    TimingOk t := by
  cases h with
  | resetBlock => exact reset_timingOk
  | configure cfg ref hok => exact ⟨cfgOk_of_checkConfig hok, ssInit_timed (cfgOk_of_checkConfig hok) _⟩
  | regWrite a v r hr t ht => exact regWritten_timingOk hs ht
  | execute n ws hn hc => exact runSamples_keeps frontEnd_timingOk symbol_timingOk _ hs
  | ssExecute n ws hn hc => exact hs.with_ss (SymSync.Timed.run hs.1 _ hs.2)
  | _ => exact hs

/-- Settles O59: each effect keeps `TimingOk`, a push because its loop ends with the time in range. -/
theorem timingStaysInRange : Obligations.TimingStaysInRange :=
  keptByStep_of_effect (fun _ _ _ _ h => h) Effect.timingOk

/-! ### The push and the rotation (R212, R213, R217) -/

/-- The branch of an output is the clamped floor itself, which is no negative number. -/
theorem ssBranch_eq {cfg : Cfg} (hcfg : CfgOk cfg) (u : SymSync) :
    (ssBranch cfg u : Int) =
      clampInt ((R.zero.sub u.tau).mul (R.ofNat cfg.P)).floorInt 0 ((cfg.P : Int) - 1) := by
  have hP := hcfg.P_range.1
  refine Int.toNat_of_nonneg ?_
  unfold clampInt
  split
  · exact le_refl 0
  · split <;> omega

/-- The filter over the slices is the filter over the entries. -/
theorem ssFilter_eq_filterOut (cfg : Cfg) {u : SymSync} (hu : u.Canonical) (b : Nat) :
    ssFilter cfg b u = filterOut cfg b u := by
  rw [ssFilter, ssTaps, ssLine, memSlice_eq hu.table, memSlice_eq hu.line, List.range'_eq_map_range,
    List.range'_eq_map_range, List.map_map, List.map_map, List.zip_map', List.foldl_map]
  simp only [Function.comp_apply, Nat.zero_add]
  rfl

theorem SymSync.Canonical.turn {u : SymSync} (hu : u.Canonical) (cfg : Cfg) : (ssTurn cfg u).1.Canonical := by
  unfold ssTurn
  cases u.half with
  | false => exact ⟨hu.line, hu.table⟩
  | true => exact ⟨hu.line, hu.table⟩

/-- A turn of the model is a turn of R213. -/
theorem turns_of_ssTurn {cfg : Cfg} (hcfg : CfgOk cfg) {u w : SymSync} {ys : List C} (hu : u.Canonical)
    (hle : u.tau.le R.zero = true) (next : Turns cfg (ssTurn cfg u).1 ys w) :
    Turns cfg u ((ssTurn cfg u).2 ++ ys) w := by
  have hb := ssBranch_eq hcfg u
  have hy := ssFilter_eq_filterOut cfg hu (ssBranch cfg u)
  cases hh : u.half with
  | false =>
    simp only [ssTurn, hh] at next ⊢
    exact .onTime u w ys _ _ _ _ _ hle hh hb hy rfl rfl rfl next
  | true =>
    simp only [ssTurn, hh] at next ⊢
    exact .midPoint u w ys _ hle hh hb (hy ▸ next)

/-- The loop of a push ends, turn by turn as R213 writes it. -/
theorem ssPush_turns {cfg : Cfg} (hcfg : CfgOk cfg) {u : SymSync} (hu : u.Canonical) (ht : u.Timed cfg) (x : C) :
    Turns cfg (ssShift cfg x u) (ssPush cfg x u).2 (ssPush cfg x u).1 :=
  ssPush_induction hcfg (motive := fun u ys w => u.Canonical → Turns cfg u ys w)
    (fun u _ hend _ => .done u hend)
    (fun _ _ _ hle ih hu => turns_of_ssTurn hcfg hu hle (ih (hu.turn cfg))) ht x (hu.shift hcfg x)

/-- The delay line after a push: the sample, then the entries one place on. -/
theorem memRead_ssPush_buf {cfg : Cfg} (hcfg : CfgOk cfg) {u : SymSync}
    (hu : cellsWf C.zero Config.lMax 0 u.buf = true) (x : C) {j : Nat} (hj : j < cfg.L) :
    memRead C.zero (ssPush cfg x u).1.buf j = if j = 0 then x else memRead C.zero u.buf (j - 1) := by
  have hlen : ((x :: ssLine cfg u).take cfg.L).length = cfg.L := by simp [ssLine]
  rw [ssPush_buf, memRead_memSetPrefix hu (hlen.trans_le hcfg.L_le), if_pos (hlen.symm ▸ hj), getD_take _ _ hj]
  cases j with
  | zero => rfl
  | succ j =>
    have hj' : j < cfg.L := by omega
    simp [ssLine, memSlice_eq hu, hj']

/-- A rotation multiplies the used entries of the delay line. -/
theorem memRead_rotated {cfg : Cfg} (hcfg : CfgOk cfg) {u : SymSync}
    (hu : cellsWf C.zero Config.lMax 0 u.buf = true) (c : C) (j : Nat) :
    memRead C.zero (ssRotate cfg c u).buf j =
      if j < cfg.L then cmul (memRead C.zero u.buf j) c else memRead C.zero u.buf j := by
  have hlen : ((ssLine cfg u).map fun z => cmul z c).length = cfg.L := by simp [ssLine]
  rw [ssRotate, memRead_memSetPrefix hu (hlen.trans_le hcfg.L_le), hlen]
  split
  · next hj => simp [ssLine, memSlice_eq hu, hj]
  · rfl

/-- Settles O34: the delay line entry by entry, and the turns by the induction over the loop. -/
theorem symbolSyncShifts : Obligations.SymbolSyncShifts := by
  intro cfg x c u hcfg hbuf
  have hL : 0 < cfg.L := by rw [hcfg.taps]; exact Nat.succ_pos _
  refine ⟨ssPush_bw cfg x u, ssPush_H cfg x u, ?front, ?shifted, ?turns, _, rfl, memRead_rotated hcfg hbuf c⟩
  case front => rw [memRead_ssPush_buf hcfg hbuf x hL, if_pos rfl]
  case shifted =>
    intro j hj
    rw [memRead_ssPush_buf hcfg hbuf x hj, if_neg (Nat.succ_ne_zero j), Nat.add_sub_cancel]
  case turns =>
    intro hH hgt hle hr
    rw [ssPush_buf]
    exact ssPush_turns hcfg ⟨hbuf, hH⟩ ⟨hgt, hle, hr⟩ x

/-! ### SS_EXECUTE (R226) -/

theorem exec_ssExecute_ok {n : BitVec 24} {ws : List Word} {s : State} (hlen : ws.length = 2 * n.toNat)
    (hs : s.configured = true) :
    exec (.ssExecute n ws) s = .next
      ({ s with ss := (ssRun s.cfg (samples ws) s.ss).1 }.respond
        (countWord (ssRun s.cfg (samples ws) s.ss).2.length :: (ssRun s.cfg (samples ws) s.ss).2.flatMap encC)) := by
  simp only [exec, execSsExecute, hlen, hs, ne_eq, not_true_eq_false, if_false, Bool.not_true, Bool.false_eq_true,
    settle_ok]

/-- Settles O33: both checks pass, and an empty run changes nothing. -/
theorem symbolSyncExecutes : Obligations.SymbolSyncExecutes := by
  refine ⟨fun n ws s => exec_ssExecute_ok, fun s hs => ?empty, fun _ _ => rfl, fun _ _ _ _ => rfl, fun _ _ _ => ?samples⟩
  case empty => exact exec_ssExecute_ok (n := 0) (ws := []) rfl hs
  case samples => exact ⟨rfl, rfl⟩

end Sys2Proof.Machine

/-! PROOFS of the family 43_detector.md: the generator and its reference (R241), the normalisation (R242), the push with
its windows, sums, metric and estimates (R243 to R251), the detector's commands (R255, R256), and the silence of the
first N pushes (R246). -/

namespace Sys2Proof

/-! ### Values by their order -/

/-- Values that order as one integer other than 0 are one value. -/
theorem R.eq_of_ord_eq {x y : R} {r : Int} (hx : x.ord = some r) (hy : y.ord = some r) (hr : r ≠ 0) : x = y := by
  cases x with
  | nan neg f => cases hx
  | num na ma =>
    cases y with
    | nan neg f => cases hy
    | num nb mb =>
      have hmag : ma = mb := Fin.ext ((R.natAbs_ord hx).symm.trans (R.natAbs_ord hy))
      subst hmag
      rw [R.ord_num, Option.some.injEq] at hx hy
      have hsign : na = nb := by
        cases na <;> cases nb <;> simp only [if_true, if_false, Bool.false_eq_true] at hx hy ⊢ <;> omega
      rw [hsign]

/-- Strict comparison of finite values is strict comparison of their units. -/
theorem R.IsUnits.lt_iff {x y : R} {p q : Int} (hx : x.IsUnits p) (hy : y.IsUnits q) : x.lt y = true ↔ p < q := by
  have hle : y.le x = true ↔ ¬ x.lt y = true := by simp [R.le_iff, R.lt_iff, hx.ord_eq, hy.ord_eq]
  rw [← not_iff_not, ← hle, hy.le_iff hx, not_lt]

theorem R.IsUnits.roundInt_ne_zero {x : R} {z : Int} (h : x.IsUnits z) (hz : z ≠ 0) : roundInt z ≠ 0 := by
  intro h0
  have hord : x.ord = some 0 := h0 ▸ h.ord_eq
  have hle := (h.le_iff R.isUnits_zero).1 ((R.le_iff _ _).2 ⟨0, 0, hord, rfl, le_rfl⟩)
  have hge := (R.isUnits_zero.le_iff h).1 ((R.le_iff _ _).2 ⟨0, 0, rfl, hord, le_rfl⟩)
  omega

/-- A value that orders as an exact one other than 0 is that one. -/
theorem R.IsUnits.eq_of_ord {x y : R} {z : Int} (hx : x.IsUnits z) (hy : y.ord = some (roundInt z)) (hz : z ≠ 0) :
    x = y := R.eq_of_ord_eq hx.ord_eq hy (hx.roundInt_ne_zero hz)

/-- The sum of a whole number and 1, while whole numbers are exact. -/
theorem R.ofNat_add_one {n : Nat} (h : n + 1 ≤ 2 ^ 24) : (R.ofNat n).add Config.one = R.ofNat (n + 1) := by
  have hsum := (R.isUnits_ofNat (n := n) (by omega)).ord_add isUnits_one
  rw [show (n : Int) * 2 ^ 149 + 2 ^ 149 = ((n + 1 : Nat) : Int) * 2 ^ 149 by push_cast; ring] at hsum
  exact ((R.isUnits_ofNat h).eq_of_ord hsum (by positivity)).symm

theorem R.ofNat_zero : R.ofNat 0 = R.zero := by
  rw [R.ofNat, R.round, Nat.zero_mul, roundUnits_zero]
  rfl

theorem R.ofNat_div_self {n : Nat} (hpos : 1 ≤ n) (h : n ≤ 2 ^ 24) : (R.ofNat n).div (R.ofNat n) = Config.one := by
  have hn := R.isUnits_ofNat h
  have hone : Representable (2 ^ 149 : Int).natAbs := by
    simpa using representable_mul_pow (c := 1) (s := 149) (by decide) (by decide)
  have hquot := hn.div hn (by positivity) (r := 2 ^ 149) (by ring) hone
  exact hquot.eq_of_ord isUnits_one.ord_eq (by decide)

/-- `n` ones added to `k` make `k + n`. -/
theorem R.foldl_add_ones {n k : Nat} (h : k + n ≤ 2 ^ 24) :
    (List.replicate n Config.one).foldl R.add (R.ofNat k) = R.ofNat (k + n) := by
  induction n generalizing k with
  | zero => rfl
  | succ n ih =>
    rw [List.replicate_succ, List.foldl_cons, R.ofNat_add_one (by omega), ih (by omega), Nat.add_right_comm,
      Nat.add_assoc]

theorem isUnits_negOne : Config.negOne.IsUnits (-2 ^ 149) := ⟨true, 0x3F800000, rfl, by decide, by decide⟩

theorem isUnits_eRefMax : Config.eRefMax.IsUnits (2 ^ 100 * 2 ^ 149) :=
  ⟨false, 0x71800000, rfl, by decide, by decide⟩

end Sys2Proof

namespace Sys2Proof.Machine

/-! ### The generator (R241) -/

/-- One shift of the generator's register, as `lfsrBits` makes it. -/
def lfsrStep (poly : Word) (d : Nat) (reg : Word) : Word :=
  (reg >>> 1) ||| (BitVec.ofNat 32 (lfsrNext poly d reg).toNat <<< (d - 1))

/-- The register after `t` shifts. -/
def lfsrReg (poly : Word) (d : Nat) (init : Word) : Nat → Word
  | 0 => init
  | t + 1 => lfsrStep poly d (lfsrReg poly d init t)

/-- Bit `t` of the unending sequence. -/
def lfsrSeq (poly : Word) (d : Nat) (init : Word) (t : Nat) : Bool := (lfsrReg poly d init t).getLsbD 0

theorem lfsrReg_lfsrStep (poly : Word) (d : Nat) (init : Word) (t : Nat) :
    lfsrReg poly d (lfsrStep poly d init) t = lfsrReg poly d init (t + 1) := by
  induction t with
  | zero => rfl
  | succ t ih => rw [lfsrReg, ih]; rfl

/-- The generator's bits are the first ones of the unending sequence. -/
theorem lfsrBits_eq (poly : Word) (d n : Nat) (init : Word) :
    lfsrBits poly d n init = (List.range n).map (lfsrSeq poly d init) := by
  induction n generalizing init with
  | zero => rfl
  | succ n ih =>
    rw [List.range_succ_eq_map, List.map_cons, List.map_map]
    refine congrArg₂ List.cons rfl ((ih (lfsrStep poly d init)).trans (List.map_congr_left fun t _ => ?_))
    exact congrArg (fun reg : Word => reg.getLsbD 0) (lfsrReg_lfsrStep poly d init t)

section
variable {poly init : Word} {d : Nat} (hd : d < 32) (hpos : 1 ≤ d)
include hd hpos

/-- A shift moves bit `j + 1` down to `j` and puts the new bit on top, at `d - 1`. -/
theorem getLsbD_lfsrStep (reg : Word) (j : Nat) :
    (lfsrStep poly d reg).getLsbD j = (reg.getLsbD (j + 1) || (decide (d - 1 = j) && lfsrNext poly d reg)) := by
  have hbit : ∀ b : Bool, (BitVec.ofNat 32 b.toNat <<< (d - 1)).getLsbD j = (decide (d - 1 = j) && b) := by
    intro b
    cases b with
    | false => simp
    | true =>
      calc (BitVec.twoPow 32 (d - 1)).getLsbD j
        _ = (decide (d - 1 < 32) && decide (d - 1 = j)) := BitVec.getLsbD_twoPow _ _
        _ = (decide (d - 1 = j) && true) := by rw [decide_eq_true (by omega), Bool.true_and, Bool.and_true]
  rw [lfsrStep, BitVec.getLsbD_or, BitVec.getLsbD_ushiftRight, hbit, Nat.add_comm 1 j]

/-- The register keeps to the `d` bits of its initial value. -/
theorem lfsrReg_high (hinit : init.toNat < 2 ^ d) (t : Nat) {j : Nat} (hj : d ≤ j) :
    (lfsrReg poly d init t).getLsbD j = false := by
  induction t generalizing j with
  | zero => exact Nat.testBit_lt_two_pow (hinit.trans_le (Nat.pow_le_pow_right (by decide) hj))
  | succ t ih =>
    rw [lfsrReg, getLsbD_lfsrStep hd hpos, ih (by omega), decide_eq_false (by omega)]
    rfl

/-- Bit `i` of the register after `t` shifts is the sequence's bit `i` places on. -/
theorem lfsrReg_getLsbD (t : Nat) {i : Nat} (hi : i < d) :
    (lfsrReg poly d init t).getLsbD i = lfsrSeq poly d init (t + i) := by
  induction i generalizing t with
  | zero => rfl
  | succ i ih =>
    have hshift := getLsbD_lfsrStep (poly := poly) hd hpos (lfsrReg poly d init t) i
    rw [decide_eq_false (by omega), Bool.false_and, Bool.or_false] at hshift
    rw [← hshift, ← Nat.add_assoc, Nat.add_right_comm]
    exact ih (t + 1) (by omega)

/-- The recurrence of R241: the bit a shift puts on top comes down in `d - 1` more. -/
theorem lfsrSeq_recurrence (hinit : init.toNat < 2 ^ d) (s : Nat) :
    lfsrSeq poly d init (s + d) =
      (List.range d).foldl (fun acc i => acc ^^ (poly.getLsbD i && lfsrSeq poly d init (s + i))) false := by
  have htop := getLsbD_lfsrStep (poly := poly) hd hpos (lfsrReg poly d init s) (d - 1)
  rw [Nat.sub_add_cancel hpos, lfsrReg_high hd hpos hinit s le_rfl, decide_eq_true rfl, Bool.true_and,
    Bool.false_or] at htop
  calc lfsrSeq poly d init (s + d)
    _ = lfsrSeq poly d init (s + 1 + (d - 1)) := by rw [Nat.add_assoc, Nat.add_sub_cancel' hpos]
    _ = (lfsrReg poly d init (s + 1)).getLsbD (d - 1) := (lfsrReg_getLsbD hd hpos _ (by omega)).symm
    _ = lfsrNext poly d (lfsrReg poly d init s) := htop
    _ = _ := List.foldl_ext _ _ _ fun acc i hi => by rw [lfsrReg_getLsbD hd hpos s (List.mem_range.1 hi)]

end

/-- The value R241 computes from a bit is 1 or -1. -/
theorem chip_eq (b : Bool) :
    Config.one.sub (Config.two.mul (R.ofNat b.toNat)) = if b then Config.negOne else Config.one := by
  have hbit := R.isUnits_ofNat (n := b.toNat) (b.toNat_le.trans (by decide))
  cases b with
  | false =>
    have hprod := isUnits_two.mul hbit (r := 0) rfl ⟨0, by decide, rfl⟩
    exact (isUnits_one.eq_of_ord (isUnits_one.ord_sub hprod) (by decide)).symm
  | true =>
    have hprod := isUnits_two.mul hbit (r := 2 * 2 ^ 149) rfl (representable_mul_pow (c := 2) (by decide) (by decide))
    exact (isUnits_negOne.eq_of_ord (isUnits_one.ord_sub hprod) (by decide)).symm

theorem genRef_eq (poly init : Word) (n : Nat) :
    genRef poly init n =
      (lfsrBits poly (polyDegree poly) n init).map fun b =>
        if b then ⟨Config.negOne, R.zero⟩ else ⟨Config.one, R.zero⟩ := by
  refine List.map_congr_left fun b _ => ?_
  rw [chip_eq]
  cases b with
  | false => rfl
  | true => rfl

/-- Settles O21: the bits are the lowest bits of the register's states, and `d` shifts bring the new bit down. -/
theorem generatorRecurrence : Obligations.GeneratorRecurrence := by
  intro poly init d n hlo hhi hpos hinit
  have hd : d < 32 := (Nat.pow_lt_pow_iff_right (a := 2) (by decide)).1 (hlo.trans_lt poly.isLt)
  have hdeg : polyDegree poly = d := (Nat.log2_eq_iff (by have := Nat.two_pow_pos d; omega)).2 ⟨hlo, hhi⟩
  have hbit : ∀ t, t < n → (lfsrBits poly d n init).getD t false = lfsrSeq poly d init t := by
    intro t ht
    simp [lfsrBits_eq, ht]
  refine ⟨lfsrBits poly d n init, by simp [lfsrBits_eq], ?initial, ?recurrence, hdeg ▸ genRef_eq poly init n⟩
  case initial =>
    intro t ht htd
    have hreg := lfsrReg_getLsbD (poly := poly) (init := init) hd hpos 0 htd
    rw [hbit t ht, ← Nat.zero_add t, ← hreg, Nat.zero_add]
    rfl
  case recurrence =>
    intro t ht hdt
    obtain ⟨s, rfl⟩ := Nat.exists_eq_add_of_le' hdt
    rw [hbit _ ht, lfsrSeq_recurrence hd hpos hinit, Nat.add_sub_cancel]
    exact List.foldl_ext _ _ _ fun acc i hi => by
      have := List.mem_range.1 hi
      rw [hbit _ (by omega)]

/-! ### The normalisation of a reference (R242) -/

/-- A chip of a generated reference. -/
def IsChip (c : C) : Prop := c = ⟨Config.one, R.zero⟩ ∨ c = ⟨Config.negOne, R.zero⟩

theorem isChip_of_mem_genRef {poly init : Word} {n : Nat} {c : C} (h : c ∈ genRef poly init n) : IsChip c := by
  rw [genRef_eq] at h
  obtain ⟨b, -, rfl⟩ := List.mem_map.1 h
  cases b with
  | false => exact .inl rfl
  | true => exact .inr rfl

theorem IsChip.exists_units {c : C} (h : IsChip c) :
    ∃ z : Int, c.re.IsUnits z ∧ c.im = R.zero ∧ z * z = 2 ^ 149 * 2 ^ 149 := by
  rcases h with rfl | rfl
  · exact ⟨_, isUnits_one, rfl, rfl⟩
  · exact ⟨_, isUnits_negOne, rfl, rfl⟩

theorem cabs2_chip {c : C} (h : IsChip c) : cabs2 c = Config.one := by
  obtain ⟨z, hre, him, hz⟩ := h.exists_units
  have hsq := hre.mul hre hz (representable_mul_pow (c := 1) (s := 149) (by decide) (by decide))
  have hzero := R.isUnits_zero.mul R.isUnits_zero (r := 0) rfl ⟨0, by decide, rfl⟩
  rw [cabs2, him]
  exact (isUnits_one.eq_of_ord (hsq.ord_add hzero) (by decide)).symm

theorem cscale_one_chip {c : C} (h : IsChip c) : cscale Config.one c = c := by
  rcases h with rfl | rfl
  · exact congrArg₂ C.mk (R.one_mul_num _ (by decide)) (R.one_mul_num _ (by decide))
  · exact congrArg₂ C.mk (R.one_mul_num _ (by decide)) (R.one_mul_num _ (by decide))

/-- The energy of a list of chips is its length. -/
theorem rsum_chips {l : List C} (hl : ∀ c ∈ l, IsChip c) (h : l.length ≤ 2 ^ 24) :
    rsum (l.map cabs2) = R.ofNat l.length := by
  have hones : l.map cabs2 = List.replicate l.length Config.one :=
    List.map_eq_replicate_iff.2 fun c hc => cabs2_chip (hl c hc)
  rw [hones, rsum, ← R.ofNat_zero, R.foldl_add_ones (by omega), Nat.zero_add]

/-- Chips keep their values: their energy is their number, so that the scale is the root of 1. -/
theorem normaliseRef_chips {l : List C} (hl : ∀ c ∈ l, IsChip c) (hpos : 1 ≤ l.length) (h : l.length ≤ 2 ^ 24) :
    normaliseRef l = some l := by
  have henergy := rsum_chips hl h
  have hn := R.isUnits_ofNat h
  have hgt : (R.ofNat l.length).gt R.zero = true := (R.isUnits_zero.lt_iff hn).2 (by positivity)
  have hle : (R.ofNat l.length).gt Config.eRefMax = false := by
    rw [← Bool.not_eq_true, R.gt, isUnits_eRefMax.lt_iff hn]
    omega
  cases hres : normaliseRef l with
  | none =>
    obtain hzero | hmax := (normaliseRef_eq_none_iff l).1 hres
    · rw [henergy, hgt] at hzero; cases hzero
    · rw [henergy, hle] at hmax; cases hmax
  | some ref =>
    obtain ⟨-, -, rfl⟩ := normaliseRef_eq_some hres
    rw [henergy, R.ofNat_div_self hpos h, one_sqrt]
    exact congrArg some ((List.map_congr_left fun c hc => cscale_one_chip (hl c hc)).trans (List.map_id l))

/-- Settles O20: a generated reference is chips, at most N_MAX of them. -/
theorem generatedReferenceExact : Obligations.GeneratedReferenceExact := by
  intro poly init n hpos hmax
  have hlen := length_genRef poly init n
  have hcap : Config.nMax ≤ 2 ^ 24 := by decide
  exact normaliseRef_chips (fun c => isChip_of_mem_genRef) (by omega) (by omega)

/-! ### The windows of a push (R243) -/

/-- A window of `N` entries that lets its oldest go and takes `v` in. -/
def windowPush {α : Type} (z : α) (m : Cells α) (N : Nat) (v : α) : List α := (memSlice z m 0 N ++ [v]).drop 1

section
variable {α : Type} [DecidableEq α] {z : α} {cap N : Nat} {m : Cells α}

/-- Each entry is one place down, the new one last. -/
theorem getElem?_windowPush (hm : cellsWf z cap 0 m = true) (v : α) {i : Nat} (hi : i < N) :
    (windowPush z m N v)[i]? = some (if i + 1 < N then memRead z m (i + 1) else v) := by
  rw [windowPush, List.getElem?_drop, Nat.add_comm 1 i, memSlice_eq hm]
  split
  · next h => simp [List.getElem?_append, h]
  · next h => simp [show i + 1 = N by omega]

/-- The buffer behind it: the entries above the window stay. -/
theorem memRead_windowPush (hm : cellsWf z cap 0 m = true) (hN : N ≤ cap) (v : α) (i : Nat) :
    memRead z (memSetPrefix z (windowPush z m N v) m) i =
      if i < N then (if i + 1 < N then memRead z m (i + 1) else v) else memRead z m i := by
  have hlen : (windowPush z m N v).length = N := length_window_push z v m N
  rw [memRead_memSetPrefix hm (hlen.trans_le hN), hlen]
  split
  · next hi => rw [List.getD_eq_getElem?_getD, getElem?_windowPush hm v hi, Option.getD_some]
  · rfl

/-- The window as a list is what the buffer then reads. -/
theorem windowPush_eq (hm : cellsWf z cap 0 m = true) (hN : N ≤ cap) (v : α) :
    windowPush z m N v = (List.range N).map (memRead z (memSetPrefix z (windowPush z m N v) m)) := by
  have hlen : (windowPush z m N v).length = N := length_window_push z v m N
  refine List.ext_getElem? fun i => ?_
  rcases Nat.lt_or_ge i N with hi | hi
  · rw [getElem?_windowPush hm v hi, List.getElem?_map, List.getElem?_range hi, Option.map_some,
      memRead_windowPush hm hN, if_pos hi]
  · rw [List.getElem?_eq_none (by omega), List.getElem?_eq_none (by simpa using hi)]

end

/-! ### What a push leaves in each field (R243, R245) -/

section
variable (cfg : Cfg) (thresh : R) (y : C) (d : Detector)

@[simp] theorem detPush_fill : (detPush cfg thresh y d).1.fill = min (d.fill + 1) cfg.N := rfl
@[simp] theorem detPush_rho2 : (detPush cfg thresh y d).1.rho2 = d.rho1 := rfl
@[simp] theorem detPush_S2 : (detPush cfg thresh y d).1.S2 = d.S1 := rfl

theorem detPush_pend : (detPush cfg thresh y d).1.pend = (detPush cfg thresh y d).1.rho1.gt thresh := rfl

/-- A push reports exactly when the push before it exceeded the threshold. -/
theorem detPush_snd :
    (detPush cfg thresh y d).2 =
      if d.pend then some (estimates cfg d (detPush cfg thresh y d).1.rho1 (detPush cfg thresh y d).1.S1)
      else none := rfl

end

/-! ### The sums (R243, R250) -/

/-- The product of window entry `i` and the conjugate of reference entry `i`. -/
def corrTerm (win ref : Cells C) (i : Nat) : C := cmul (memRead C.zero win i) (conj (memRead C.zero ref i))

section
variable {cfg : Cfg} {d : Detector} (hd : d.Canonical) (hN : cfg.N ≤ Config.nMax) (thresh : R) (y : C)
include hd hN

/-- The products of a push, by the entries of its window and of the reference. -/
theorem detPush_terms :
    List.zipWith (fun w r => cmul w (conj r)) (windowPush C.zero d.win cfg.N y) (memSlice C.zero d.ref 0 cfg.N) =
      (List.range cfg.N).map (corrTerm (detPush cfg thresh y d).1.win d.ref) := by
  rw [windowPush_eq hd.win hN, memSlice_eq hd.ref, ← List.range_eq_range', List.zipWith_map, List.zipWith_self]
  rfl

theorem detPush_S1 :
    (detPush cfg thresh y d).1.S1 = csum ((List.range cfg.N).map (corrTerm (detPush cfg thresh y d).1.win d.ref)) :=
  congrArg csum (detPush_terms hd hN thresh y)

theorem detPush_Sa1 :
    (detPush cfg thresh y d).1.Sa1 =
      csum ((List.range (cfg.N / 2)).map (corrTerm (detPush cfg thresh y d).1.win d.ref)) := by
  refine (congrArg (fun l => csum (l.take (cfg.N / 2))) (detPush_terms hd hN thresh y)).trans ?_
  rw [← List.map_take, List.take_range, Nat.min_eq_left (Nat.div_le_self _ _)]

theorem detPush_Sb1 :
    (detPush cfg thresh y d).1.Sb1 =
      csum ((List.range' (cfg.N / 2) (cfg.N - cfg.N / 2)).map
        (corrTerm (detPush cfg thresh y d).1.win d.ref)) := by
  refine (congrArg (fun l => csum (l.drop (cfg.N / 2))) (detPush_terms hd hN thresh y)).trans ?_
  rw [← List.map_drop, List.range_eq_range', List.drop_range', Nat.zero_add, Nat.mul_one]

end

/-! ### The metric (R243) -/

/-- The mean energy of a detector's window of `N` entries. -/
def meanEnergy (N : Nat) (d : Detector) : R := (rsum ((List.range N).map (memRead R.zero d.en))).div (R.ofNat N)

theorem detPush_rho1 {cfg : Cfg} {d : Detector} (hd : d.Canonical) (hN : cfg.N ≤ Config.nMax) (thresh : R) (y : C) :
    (detPush cfg thresh y d).1.rho1 =
      detMetric cfg.N (detPush cfg thresh y d).1.fill (detPush cfg thresh y d).1.S1
        (meanEnergy cfg.N (detPush cfg thresh y d).1) :=
  congrArg (fun l => detMetric cfg.N _ _ ((rsum l).div (R.ofNat cfg.N))) (windowPush_eq hd.en hN (cabs2 y))

/-- The metric is 0 while the window fills, and at or below the energy guard. -/
theorem detMetric_eq_zero {N fill : Nat} {E : R} (h : fill < N ∨ E.gt Config.eDetMin = false) (S : C) :
    detMetric N fill S E = R.zero := by
  have hguard : (decide (fill < N) || !E.gt Config.eDetMin) = true := by simpa using h
  unfold detMetric
  rw [if_pos hguard]
  exact ite_self _

/-- Above both, it is the normalised correlation, with 0 for a quotient that is no number at least 0. -/
theorem detMetric_of_full {N : Nat} {E : R} (hE : E.gt Config.eDetMin = true) (S : C) :
    ∃ q, q = (cabs2 S).sqrt.div ((R.ofNat N).mul E.sqrt) ∧
      detMetric N N S E = if q.ge R.zero then q else R.zero := by
  have hguard : ¬ (decide (N < N) || !E.gt Config.eDetMin) = true := by simpa using hE
  refine ⟨_, rfl, ?_⟩
  unfold detMetric
  rw [if_neg hguard]

/-! ### The estimates (R247 to R251) -/

/-- The carrier-offset estimate by its method bit: the lag slope where it is set, else the half split. -/
theorem detDw_eq (cfg : Cfg) (S2 S Sa1 Sb1 : C) :
    detDw cfg S2 S Sa1 Sb1 =
      if cfg.cfoEst then (carg (cmul S (conj S2))).div Config.two
      else (carg (cmul Sb1 (conj Sa1))).div ((R.ofNat cfg.N).div Config.two) := by
  unfold detDw
  cases cfg.cfoEst with
  | false => rw [if_pos Bool.not_false, if_neg Bool.false_ne_true]
  | true => rw [if_neg (by decide), if_pos rfl]

/-! ### The commands (R255, R256) -/

theorem exec_detPush {s : State} (hs : s.configured = true) (re im : Word) :
    exec (.detPush [re, im]) s = .next
      ({ s with det := (detPush s.cfg s.thresh (decC re im) s.det).1 }.respond
        (detResponse (detPush s.cfg s.thresh (decC re im) s.det).2)) := by
  simp only [exec, execDetPush, hs, Bool.not_true, Bool.false_eq_true, if_false, settle_ok]

theorem exec_detReset (s : State) :
    exec (.detReset []) s = .next ({ s with det := detClear s.det }.respond []) := rfl

/-- Settles O35: the windows entry by entry, the sums and the metric over them, and the estimates of the history. -/
theorem detectorCommands : Obligations.DetectorCommands := by
  refine ⟨?push, exec_detReset, ?whole⟩
  case push =>
    intro s re im hs
    rw [exec_detPush hs, decC]
    cases (detPush s.cfg s.thresh ⟨decR re, decR im⟩ s.det).2 with
    | none => rfl
    | some d => rfl
  case whole =>
    intro cfg thresh y d hpos hN hwin hen href
    have hd : d.Canonical := ⟨href, hwin, hen⟩
    have hreadWin := memRead_windowPush hwin hN y
    have hreadEn := memRead_windowPush hen hN (cabs2 y)
    refine ⟨(detPush cfg thresh y d).1, corrTerm (detPush cfg thresh y d).1.win d.ref,
      meanEnergy cfg.N (detPush cfg thresh y d).1, (detPush cfg thresh y d).1.rho1,
      ?shift, ?newWin, ?newEn, ?above, detPush_ref cfg thresh y d, detPush_fill cfg thresh y d, fun i _ => rfl,
      detPush_S1 hd hN thresh y, detPush_Sa1 hd hN thresh y, detPush_Sb1 hd hN thresh y, rfl, ?zero, ?full, rfl,
      detPush_rho2 cfg thresh y d, detPush_S2 cfg thresh y d, detPush_pend cfg thresh y d, _, _, rfl, rfl, ?report⟩
    case shift =>
      intro i hi
      have hiN : i < cfg.N := by omega
      exact ⟨(hreadWin i).trans (by rw [if_pos hiN, if_pos hi]), (hreadEn i).trans (by rw [if_pos hiN, if_pos hi])⟩
    case newWin => exact (hreadWin _).trans (by rw [if_pos (by omega), if_neg (by omega)])
    case newEn => exact (hreadEn _).trans (by rw [if_pos (by omega), if_neg (by omega)])
    case above =>
      intro i hi
      exact ⟨(hreadWin i).trans (if_neg (by omega)), (hreadEn i).trans (if_neg (by omega))⟩
    case zero => intro h; rw [detPush_rho1 hd hN, detMetric_eq_zero h]
    case full =>
      intro hfill hE
      rw [detPush_rho1 hd hN, hfill]
      exact detMetric_of_full hE _
    case report =>
      rw [← detDw_eq]
      rfl

/-! ### The first N pushes (R246) -/

/-- Before its window is full, no push of the detector has exceeded the threshold. -/
def Detector.QuietUntil (N : Nat) (d : Detector) : Prop := d.fill < N → d.pend = false

/-- A push that leaves the window short gives the metric 0, which is above no threshold of at least 0. -/
theorem detPush_quietUntil {cfg : Cfg} {thresh : R} (h : thresh.ge R.zero = true) (y : C) (d : Detector) :
    (detPush cfg thresh y d).1.QuietUntil cfg.N := by
  intro hfill
  have hrho : (detPush cfg thresh y d).1.rho1 = R.zero := detMetric_eq_zero (.inl hfill) _
  rw [detPush_pend, hrho]
  obtain ⟨p, q, hp, hq, hpq⟩ := (R.le_iff _ _).1 h
  simp [R.gt, R.lt, hp, hq, hpq]

/-- A push, with whether it or one before it reported. -/
def pushReporting (cfg : Cfg) (thresh : R) (p : Detector × Bool) (y : C) : Detector × Bool :=
  ((detPush cfg thresh y p.1).1, p.2 || (detPush cfg thresh y p.1).2.isSome)

/-- Pushes that at most fill the window report nothing. -/
theorem pushReporting_silent {cfg : Cfg} {thresh : R} (h : thresh.ge R.zero = true) (ys : List C) {d : Detector}
    (hd : d.QuietUntil cfg.N) (hroom : d.fill + ys.length ≤ cfg.N) :
    (ys.foldl (pushReporting cfg thresh) (d, false)).2 = false := by
  induction ys generalizing d with
  | nil => rfl
  | cons y ys ih =>
    rw [List.length_cons] at hroom
    have hnone : (detPush cfg thresh y d).2 = none := by
      rw [detPush_snd, hd (by omega)]
      rfl
    have hfill : (detPush cfg thresh y d).1.fill = d.fill + 1 := by
      rw [detPush_fill, Nat.min_eq_left (by omega)]
    have hstep : pushReporting cfg thresh (d, false) y = ((detPush cfg thresh y d).1, false) := by
      rw [pushReporting, hnone]
      rfl
    rw [List.foldl_cons, hstep]
    exact ih (detPush_quietUntil h y d) (by omega)

/-- Settles O36: a cleared detector is empty and quiet, and stays quiet while its window fills. -/
theorem firstPushesSilent : Obligations.FirstPushesSilent := by
  intro cfg thresh d ys h hlen
  exact pushReporting_silent h ys (d := detClear d) (fun _ => rfl) (by simpa using hlen)

end Sys2Proof.Machine

/-! PROOFS of the family 44_demodulator.md: the ids of the schemes (R270), the two commands (R285, R286) and the decision
of every symbol (R273 to R276). The rules of 8PSK and QAM walk up a list of boundaries and keep the last one reached;
the boundaries ascend, so that it is the number of boundaries reached. -/

namespace Sys2Proof

/-! ### The number of boundaries reached -/

/-- The last of 1 to `n` at which `reached` holds, found as the rules find it: 0, and each such index in turn. -/
def lastReached (reached : Nat → Bool) (n : Nat) : Nat :=
  (List.range' 1 n).foldl (fun p t => if reached t then t else p) 0

theorem lastReached_succ (reached : Nat → Bool) (n : Nat) :
    lastReached reached (n + 1) = if reached (n + 1) then n + 1 else lastReached reached n := by
  unfold lastReached
  rw [List.range'_1_concat, List.foldl_append, Nat.add_comm 1 n]
  rfl

theorem lastReached_le (reached : Nat → Bool) (n : Nat) : lastReached reached n ≤ n := by
  induction n with
  | zero => exact le_rfl
  | succ n ih => rw [lastReached_succ]; split <;> omega

/-- Where an index is reached only if each one below it is, the last reached is the number reached. -/
theorem lastReached_eq_countP {reached : Nat → Bool} {n : Nat}
    (hdown : ∀ t u, 1 ≤ t → t ≤ u → u ≤ n → reached u = true → reached t = true) :
    lastReached reached n = (List.range' 1 n).countP reached := by
  induction n with
  | zero => rfl
  | succ n ih =>
    rw [lastReached_succ, List.range'_1_concat, List.countP_append, List.countP_singleton, Nat.add_comm 1 n]
    split
    case isTrue htop =>
      have hall : (List.range' 1 n).countP reached = (List.range' 1 n).length := by
        refine List.countP_eq_length.2 fun t ht => ?_
        rw [List.mem_range'_1] at ht
        exact hdown t (n + 1) ht.1 (by omega) le_rfl htop
      rw [hall, List.length_range']
    case isFalse htop => exact ih fun t u ht htu hu => hdown t u ht htu (by omega)

theorem R.le_trans {x y z : R} (hxy : x.le y = true) (hyz : y.le z = true) : x.le z = true := by
  obtain ⟨p, q, hp, hq, hpq⟩ := (R.le_iff _ _).1 hxy
  obtain ⟨q', r, hq', hr, hqr⟩ := (R.le_iff _ _).1 hyz
  obtain rfl : q = q' := Option.some.inj (hq.symm.trans hq')
  exact (R.le_iff _ _).2 ⟨p, r, hp, hr, hpq.trans hqr⟩

/-- The last of ascending boundaries that a value reaches is the number it reaches. A NaN reaches none. -/
theorem lastReached_ge (v : R) {bound : Nat → R} {n : Nat}
    (hmono : ∀ t u, 1 ≤ t → t ≤ u → u ≤ n → (bound t).le (bound u) = true) :
    lastReached (fun t => v.ge (bound t)) n = (List.range' 1 n).countP fun t => v.ge (bound t) :=
  lastReached_eq_countP fun t u ht htu hu hreached => R.le_trans (hmono t u ht htu hu) hreached

/-! ### A NaN, and the negative zero (R11) -/

theorem R.nan_lt (neg : Bool) (frac : Fin 8388607) (v : R) : (R.nan neg frac).lt v = false := rfl

theorem R.nan_ge (neg : Bool) (frac : Fin 8388607) (v : R) : (R.nan neg frac).ge v = false := by
  rw [R.ge, ← Bool.not_eq_true, R.le_iff]
  rintro ⟨_, _, -, hnan, -⟩
  cases hnan

theorem R.nan_mul (neg : Bool) (frac : Fin 8388607) (v : R) :
    ∃ neg' frac', (R.nan neg frac).mul v = .nan neg' frac' := ⟨_, _, rfl⟩

theorem R.negZero_lt_zero : (R.num true 0).lt R.zero = false := by decide

end Sys2Proof

namespace Sys2Proof.Machine

/-! ### The commands (R270, R285, R286) -/

theorem schemeOfId_id (sch : Scheme) : Scheme.ofId sch.id = some sch := by cases sch <;> rfl

theorem toNat_schemeId (sch : Scheme) : (BitVec.ofNat 8 sch.id).toNat = sch.id := by cases sch <;> rfl

theorem exec_demSetScheme_eq (id : BitVec 8) (s : State) :
    exec (.demSetScheme id []) s = execDemSetScheme id [] s := rfl

theorem exec_demSetScheme_ok {id : BitVec 8} {sch : Scheme} (h : Scheme.ofId id.toNat = some sch) (s : State) :
    exec (.demSetScheme id []) s = .next ({ s with demScheme := sch }.respond []) := by
  rw [exec_demSetScheme_eq, execDemSetScheme]
  simp only [h, settle_ok]

theorem exec_demSetScheme_badId {id : BitVec 8} (h : Scheme.ofId id.toNat = none) (s : State) :
    exec (.demSetScheme id []) s = .next (s.failWith .badOperands []) := by
  rw [exec_demSetScheme_eq, execDemSetScheme]
  simp only [h, settle_error]
  rfl

theorem exec_demDemod (s : State) (re im : Word) :
    exec (.demDemod [re, im]) s = .next (s.respond
      ([countWord (decideSymbol s.demScheme (decC re im)).1,
        encR (carg (cmul (decC re im) (conj (decideSymbol s.demScheme (decC re im)).2)))] ++
        encC (decideSymbol s.demScheme (decC re im)).2)) := rfl

/-! ### BPSK and QPSK (R273, R274) -/

theorem signBit_eq_zero_iff (v : R) : signBit v = 0 ↔ v.lt R.zero = false := by
  unfold signBit
  cases v.lt R.zero <;> decide

theorem decideBpsk_eq (y : C) :
    decideBpsk y = if y.re.lt R.zero then (1, ⟨Config.negOne, R.zero⟩) else (0, ⟨Config.one, R.zero⟩) := by
  unfold decideBpsk
  simp only [signBit_eq_zero_iff]
  cases y.re.lt R.zero <;> rfl

/-- A component of a QPSK point: 1/sqrt(2) with the sign the bit gives. -/
theorem qpskCoord_eq (v : R) :
    (R.ofInt (1 - 2 * (signBit v : Int))).mul Config.rh =
      if v.lt R.zero then .num true 0x3F3504F3 else .num false 0x3F3504F3 := by
  unfold signBit
  cases v.lt R.zero <;> decide +kernel

theorem decideQpsk_eq (y : C) :
    decideQpsk y =
      ((if y.re.lt R.zero then 2 else 0) + (if y.im.lt R.zero then 1 else 0),
        ⟨if y.re.lt R.zero then .num true 0x3F3504F3 else .num false 0x3F3504F3,
          if y.im.lt R.zero then .num true 0x3F3504F3 else .num false 0x3F3504F3⟩) := by
  have hre : 2 * signBit y.re = if y.re.lt R.zero then 2 else 0 := mul_ite_zero _ _ _
  rw [decideQpsk, qpskCoord_eq, qpskCoord_eq, hre, signBit]

/-! ### 8PSK (R275) -/

/-- The eight boundaries, from PI/8 up, as patterns; the last one is the wrap. -/
def psk8BoundaryWords : List Word :=
  [0x3EC90FDB, 0x3F96CBE4, 0x3FFB53D2, 0x402FEDE0, 0x406231D6, 0x408A3AE7, 0x40A35CE2, 0x40BC7EDD]

/-- The indices and points, sector by sector. -/
def psk8Table : List (Nat × C) :=
  [(0, ⟨Config.one, R.zero⟩), (1, ⟨Config.rh, Config.rh⟩), (3, ⟨R.zero, Config.one⟩), (2, ⟨Config.negRh, Config.rh⟩),
    (6, ⟨Config.negOne, R.zero⟩), (7, ⟨Config.negRh, Config.negRh⟩), (5, ⟨R.zero, Config.negOne⟩),
    (4, ⟨Config.rh, Config.negRh⟩)]

theorem psk8BoundaryWords_map_decR :
    psk8BoundaryWords.map decR = (List.range' 1 8).map fun t => psk8Boundary (2 * t - 1) := by decide +kernel

theorem psk8Table_getD : ∀ j < 8, psk8Table.getD j (0, C.zero) = (gray j, psk8Point j) := by decide

theorem psk8Boundary_mono :
    ∀ u ≤ 8, ∀ t ≤ u, 1 ≤ t → (psk8Boundary (2 * t - 1)).le (psk8Boundary (2 * u - 1)) = true := by decide +kernel

/-- An angle taken into one turn. -/
def oneTurn (a : R) : R := if a.lt R.zero then a.add Config.twoPi else a

/-- The last boundary reached, the eighth counting as none. -/
theorem psk8Sector_eq_lastReached (a : R) :
    psk8Sector a = lastReached (fun t => (oneTurn a).ge (psk8Boundary (2 * t - 1))) 8 % 8 := by
  have hsector : psk8Sector a =
      if (oneTurn a).ge (psk8Boundary 15) then 0
      else lastReached (fun t => (oneTurn a).ge (psk8Boundary (2 * t - 1))) 7 := rfl
  have hle := lastReached_le (fun t => (oneTurn a).ge (psk8Boundary (2 * t - 1))) 7
  rw [hsector, lastReached_succ _ 7]
  split
  case isTrue => rfl
  case isFalse => exact (Nat.mod_eq_of_lt (by omega)).symm

theorem psk8Sector_eq_countP (a : R) :
    psk8Sector a = psk8BoundaryWords.countP (fun b => (oneTurn a).ge (decR b)) % 8 := by
  have hwords : psk8BoundaryWords.countP (fun b => (oneTurn a).ge (decR b)) =
      (psk8BoundaryWords.map decR).countP (oneTurn a).ge := by
    rw [List.countP_map]
    rfl
  rw [psk8Sector_eq_lastReached, hwords, psk8BoundaryWords_map_decR, List.countP_map,
    lastReached_ge _ fun t u ht htu hu => psk8Boundary_mono u hu t htu ht]
  rfl

theorem decidePsk8_eq (y : C) :
    decidePsk8 y =
      psk8Table.getD (psk8BoundaryWords.countP (fun b => (oneTurn (carg y)).ge (decR b)) % 8) (0, C.zero) := by
  rw [psk8Table_getD _ (Nat.mod_lt _ (by decide)), ← psk8Sector_eq_countP]
  rfl

/-! ### QAM (R276) -/

/-- The boundary `2*t - Q` below level `t`. -/
def qamBoundary (q t : Nat) : R := R.ofInt (2 * (t : Int) - 2 ^ q)

/-- While there are at most 2^24 levels the boundaries are exact, and ascend. -/
theorem qamBoundary_mono {q : Nat} (hq : q ≤ 24) {t u : Nat} (htu : t ≤ u) (hu : u ≤ 2 ^ q - 1) :
    (qamBoundary q t).le (qamBoundary q u) = true := by
  have hpos : 0 < 2 ^ q := Nat.two_pow_pos q
  have hQ : 2 ^ q ≤ 2 ^ 24 := Nat.pow_le_pow_right (by decide) hq
  have hcast : (2 : Int) ^ q = ((2 ^ q : Nat) : Int) := by push_cast; rfl
  have hbound : ∀ k : Nat, k ≤ 2 ^ q → (2 * (k : Int) - 2 ^ q).natAbs ≤ 2 ^ 24 := by
    intro k hk
    rw [hcast]
    omega
  refine ((R.isUnits_ofInt (hbound t (by omega))).le_iff (R.isUnits_ofInt (hbound u (by omega)))).2 ?_
  omega

/-- Counting in a list of naturals read as integers. -/
theorem countP_intCast (p : Int → Bool) (l : List Nat) :
    (l >>= fun a => pure (a : Int)).countP p = l.countP fun a : Nat => p a := by
  have hmap : (l >>= fun a => pure (a : Int)) = l.map fun a : Nat => (a : Int) := List.map_eq_flatMap.symm
  rw [hmap, List.countP_map]
  rfl

theorem qamLevel_eq_countP {q : Nat} (hq : q ≤ 24) (v : R) :
    qamLevel q v = (List.range' 1 (2 ^ q - 1)).countP (fun t => v.ge (R.ofInt (2 * (t : Int) - 2 ^ q))) := by
  rw [countP_intCast]
  exact lastReached_ge v (bound := qamBoundary q) fun _ _ _ htu hu => qamBoundary_mono hq htu hu

theorem qamLevel_lt (q : Nat) (v : R) : qamLevel q v < 2 ^ q := by
  have hle : qamLevel q v ≤ 2 ^ q - 1 := lastReached_le (fun t => v.ge (qamBoundary q t)) _
  have hpos : 0 < 2 ^ q := Nat.two_pow_pos q
  omega

theorem gray_eq (p : Nat) : gray p = p ^^^ (p / 2) := by rw [gray, Nat.shiftRight_eq_div_pow, Nat.pow_one]

theorem gray_lt {p q : Nat} (h : p < 2 ^ q) : gray p < 2 ^ q := by
  rw [gray_eq]
  exact Nat.xor_lt_two_pow h (by omega)

/-- The index of a QAM symbol is the two axes' Gray codes side by side. -/
theorem decideQam_eq (q : Nat) (nrm : R) (y : C) :
    decideQam q nrm y =
      (2 ^ q * gray (qamLevel q (y.re.mul nrm)) + gray (qamLevel q (y.im.mul nrm)),
        ⟨qamCoord q nrm (qamLevel q (y.re.mul nrm)), qamCoord q nrm (qamLevel q (y.im.mul nrm))⟩) := by
  rw [decideQam, ← Nat.shiftLeft_add_eq_or_of_lt (gray_lt (qamLevel_lt q _)), Nat.shiftLeft_eq, Nat.mul_comm]

/-- The form the three QAM schemes share (R276). -/
def QamDecision (q : Nat) (nrm : R) (decision : C → Nat × C) : Prop :=
  ∀ y : C, ∃ pI pQ : Nat,
    pI = (List.range' 1 (2 ^ q - 1)).countP (fun t => (y.re.mul nrm).ge (R.ofInt (2 * (t : Int) - 2 ^ q))) ∧
    pQ = (List.range' 1 (2 ^ q - 1)).countP (fun t => (y.im.mul nrm).ge (R.ofInt (2 * (t : Int) - 2 ^ q))) ∧
    decision y =
      (2 ^ q * (pI ^^^ (pI / 2)) + (pQ ^^^ (pQ / 2)),
        ⟨(R.ofInt (2 * (pI : Int) - (2 ^ q - 1))).div nrm, (R.ofInt (2 * (pQ : Int) - (2 ^ q - 1))).div nrm⟩)

theorem qamDecision_decideQam {q : Nat} (hq : q ≤ 24) (nrm : R) : QamDecision q nrm (decideQam q nrm) := by
  intro y
  refine ⟨_, _, qamLevel_eq_countP hq _, qamLevel_eq_countP hq _, ?_⟩
  rw [decideQam_eq, gray_eq, gray_eq, qamCoord, qamCoord]

theorem decR_nrm : decR 0x404A62C2 = Config.nrm16 ∧ decR 0x40CF623A = Config.nrm64 ∧ decR 0x41509D4E = Config.nrm256 := by
  decide

/-- Settles O37: ids by the table, commands by the id's scheme, decisions by signs and by boundaries reached. -/
theorem demodulatorCommands : Obligations.DemodulatorCommands := by
  refine ⟨by decide, ?select, ?badId, ?demod, decideBpsk_eq, decideQpsk_eq, ?psk8, ?qam, R.negZero_lt_zero, ?nan⟩
  case select =>
    intro s sch
    exact exec_demSetScheme_ok (by rw [toNat_schemeId, schemeOfId_id]) s
  case badId =>
    intro s id hid
    refine exec_demSetScheme_badId ((schemeOfId_eq_none_iff _).2 (hid.imp_left ?_)) s
    rintro rfl
    rfl
  case demod => exact fun s re im => ⟨_, _, rfl, exec_demDemod s re im⟩
  case psk8 => exact fun y => ⟨oneTurn (carg y), rfl, decidePsk8_eq y⟩
  case qam =>
    obtain ⟨h16, h64, h256⟩ := decR_nrm
    simp only [List.forall_mem_cons, h16, h64, h256]
    exact ⟨qamDecision_decideQam (by decide) _, qamDecision_decideQam (by decide) _,
      qamDecision_decideQam (by decide) _, fun _ h => absurd h List.not_mem_nil⟩
  case nan => exact fun neg frac v => ⟨R.nan_lt neg frac v, R.nan_ge neg frac v, R.nan_mul neg frac v⟩

end Sys2Proof.Machine

/-! PROOFS of the family 45_decode_chain.md: the interleaver (R310), the FEC codes (R303 to R306), bits and bytes (R17), the
CRC (R302), the chain there and back (R315 to R318) and its commands (R325 to R328). The order of the interleaver is a
permutation, the decoders take their groups one by one, and a CRC tells two messages apart that differ in one byte. -/

namespace Sys2Proof.Machine

/-! ### The order of the interleaver (R310) -/

/-- The columns of R310's table. -/
def interleaveCols (D L : Nat) : Nat := (L + D - 1) / D

/-- Column `c` of R310's table from the top, without the cells behind the last bit. -/
def interleaveColumn (D L c : Nat) : List Nat :=
  ((List.range D).map fun r => r * interleaveCols D L + c).filter fun i => decide (i < L)

theorem filter_range_lt {D L : Nat} (h : L ≤ D) : (List.range D).filter (fun i => decide (i < L)) = List.range L := by
  rw [← List.Ico.zero_bot, List.Ico.filter_lt_of_ge h, List.Ico.zero_bot]

/-- The order is the rule's: a row from `L` on, which the model leaves out, holds no cell. -/
theorem interleaveOrder_eq (D L : Nat) :
    interleaveOrder D L = (List.range (interleaveCols D L)).flatMap (interleaveColumn D L) := by
  refine List.flatMap_congr fun c hc => ?_
  have hcols : 0 < interleaveCols D L := (Nat.zero_le c).trans_lt (List.mem_range.1 hc)
  have hrow : ∀ r ∈ List.range D, (decide (r * interleaveCols D L + c < L) && decide (r < min D L)) =
      decide (r * interleaveCols D L + c < L) := by
    intro r hr
    have hle : r ≤ r * interleaveCols D L := Nat.le_mul_of_pos_right _ hcols
    have hD := List.mem_range.1 hr
    rw [← Bool.decide_and, decide_eq_decide]
    omega
  calc
    _ = (List.range (min D L)).filterMap fun r =>
        if r * interleaveCols D L + c < L then some (r * interleaveCols D L + c) else none := rfl
    _ = ((List.range (min D L)).filter fun r => decide (r * interleaveCols D L + c < L)).map
        fun r => r * interleaveCols D L + c := by simp [← List.filterMap_eq_map, List.filterMap_filter]
    _ = _ := by
      rw [← filter_range_lt (Nat.min_le_left D L), List.filter_filter, List.filter_congr hrow, interleaveColumn,
        List.filter_map]
      rfl

section
variable {D L : Nat}

theorem le_mul_interleaveCols (hD : 1 ≤ D) (L : Nat) : L ≤ D * interleaveCols D L := by
  have hdiv := Nat.div_add_mod (L + D - 1) D
  have hmod := Nat.mod_lt (L + D - 1) hD
  unfold interleaveCols
  omega

/-- The cell of an index: its row is the quotient by the number of columns, its column the remainder. -/
theorem mem_interleaveColumn {c : Nat} (hc : c < interleaveCols D L) (i : Nat) :
    i ∈ interleaveColumn D L c ↔ i / interleaveCols D L < D ∧ i % interleaveCols D L = c ∧ i < L := by
  simp only [interleaveColumn, List.mem_filter, List.mem_map, List.mem_range, decide_eq_true_eq]
  constructor
  · rintro ⟨⟨r, hr, rfl⟩, hi⟩
    rw [Nat.mul_add_mod_of_lt hc, Nat.mul_comm, Nat.mul_add_div (by omega), Nat.div_eq_of_lt hc]
    exact ⟨hr, rfl, by rwa [Nat.mul_comm]⟩
  · rintro ⟨hrow, rfl, hi⟩
    exact ⟨⟨_, hrow, Nat.div_add_mod' _ _⟩, hi⟩

theorem nodup_interleaveColumn {c : Nat} (hc : c < interleaveCols D L) : (interleaveColumn D L c).Nodup := by
  refine List.Nodup.filter _ (List.Nodup.map (fun r r' h => ?_) List.nodup_range)
  exact Nat.eq_of_mul_eq_mul_right (by omega) (Nat.add_right_cancel h)

theorem nodup_interleaveOrder (D L : Nat) : (interleaveOrder D L).Nodup := by
  rw [interleaveOrder_eq, List.nodup_flatMap]
  refine ⟨fun c hc => nodup_interleaveColumn (List.mem_range.1 hc), ?_⟩
  refine List.nodup_range.imp_of_mem fun {c c'} hc hc' hne i hi hi' => hne ?_
  obtain ⟨-, hcol, -⟩ := (mem_interleaveColumn (List.mem_range.1 hc) i).1 hi
  obtain ⟨-, hcol', -⟩ := (mem_interleaveColumn (List.mem_range.1 hc') i).1 hi'
  exact hcol.symm.trans hcol'

theorem mem_interleaveOrder (hD : 1 ≤ D) (i : Nat) : i ∈ interleaveOrder D L ↔ i < L := by
  simp only [interleaveOrder_eq, List.mem_flatMap, List.mem_range]
  constructor
  · rintro ⟨c, hc, hi⟩
    exact ((mem_interleaveColumn hc i).1 hi).2.2
  · intro hi
    have hlt : i < D * interleaveCols D L := hi.trans_le (le_mul_interleaveCols hD L)
    have hcol : i % interleaveCols D L < interleaveCols D L :=
      Nat.mod_lt _ (Nat.pos_of_mul_pos_left ((Nat.zero_le i).trans_lt hlt))
    exact ⟨_, hcol, (mem_interleaveColumn hcol i).2 ⟨Nat.div_lt_of_lt_mul (by rwa [Nat.mul_comm]), rfl, hi⟩⟩

/-- The order lists every index below `L` once. -/
theorem interleaveOrder_perm (hD : 1 ≤ D) (L : Nat) : (interleaveOrder D L).Perm (List.range L) :=
  (List.perm_ext_iff_of_nodup (nodup_interleaveOrder D L) List.nodup_range).2 fun i => by
    rw [mem_interleaveOrder hD, List.mem_range]

theorem length_interleaveOrder (hD : 1 ≤ D) (L : Nat) : (interleaveOrder D L).length = L := by
  rw [(interleaveOrder_perm hD L).length_eq, List.length_range]

/-- One row, or one column, is read in its own order. -/
theorem interleaveOrder_trivial (hD : 1 ≤ D) (h : D = 1 ∨ L ≤ D) : interleaveOrder D L = List.range L := by
  rw [interleaveOrder_eq]
  obtain rfl | hL := h
  · have hcols : interleaveCols 1 L = L := by simp [interleaveCols]
    have hcolumn : ∀ c ∈ List.range L, interleaveColumn 1 L c = [c] := by
      intro c hc
      simp [interleaveColumn, List.mem_range.1 hc]
    rw [hcols, List.flatMap_congr hcolumn, List.flatMap_singleton']
  · obtain rfl | hpos := L.eq_zero_or_pos
    · have hcols : interleaveCols D 0 = 0 := Nat.div_eq_of_lt (by omega)
      rw [hcols]
      rfl
    · have hcols : interleaveCols D L = 1 := Nat.div_eq_of_lt_le (by omega) (by omega)
      simp [hcols, interleaveColumn, filter_range_lt hL]

end

/-! ### Interleaving and deinterleaving (R310) -/

/-- What deinterleaving does to the string it starts from: each bit put in its place. -/
def placeBits (ps : List (Nat × Bool)) (u : Array Bool) : Array Bool := ps.foldl (fun u p => u.setIfInBounds p.1 p.2) u

theorem deinterleave_eq (D : Nat) (v : List Bool) :
    deinterleave D v = (placeBits ((interleaveOrder D v.length).zip v) (Array.replicate v.length false)).toList := rfl

@[simp] theorem size_placeBits (ps : List (Nat × Bool)) (u : Array Bool) : (placeBits ps u).size = u.size := by
  induction ps generalizing u with
  | nil => rfl
  | cons p ps ih => exact (ih _).trans Array.size_setIfInBounds

theorem getElem?_placeBits_of_notMem {ps : List (Nat × Bool)} {i : Nat} (hi : i ∉ ps.map Prod.fst) (u : Array Bool) :
    (placeBits ps u)[i]? = u[i]? := by
  induction ps generalizing u with
  | nil => rfl
  | cons p ps ih =>
    rw [List.map_cons, List.mem_cons, not_or] at hi
    obtain ⟨hp, hps⟩ := hi
    calc (placeBits (p :: ps) u)[i]?
      _ = (u.setIfInBounds p.1 p.2)[i]? := ih hps _
      _ = u[i]? := Array.getElem?_setIfInBounds_ne (Ne.symm hp)

/-- With the places all different, no bit is overwritten. -/
theorem getElem?_placeBits {ps : List (Nat × Bool)} (hps : (ps.map Prod.fst).Nodup) {p : Nat × Bool} (hp : p ∈ ps)
    {u : Array Bool} (hu : p.1 < u.size) : (placeBits ps u)[p.1]? = some p.2 := by
  induction ps generalizing u with
  | nil => cases hp
  | cons q ps ih =>
    obtain ⟨hq, hps⟩ := List.nodup_cons.1 hps
    obtain rfl | hp := List.mem_cons.1 hp
    · calc (placeBits (p :: ps) u)[p.1]?
        _ = (u.setIfInBounds p.1 p.2)[p.1]? := getElem?_placeBits_of_notMem hq _
        _ = some p.2 := Array.getElem?_setIfInBounds_self_of_lt hu
    · exact ih hps hp (by rwa [Array.size_setIfInBounds])

@[simp] theorem length_deinterleave (D : Nat) (v : List Bool) : (deinterleave D v).length = v.length := by
  rw [deinterleave_eq, Array.length_toList, size_placeBits, Array.size_replicate]

section
variable {D : Nat} (hD : 1 ≤ D)
include hD

theorem length_interleave (b : List Bool) : (interleave D b).length = b.length := by
  rw [interleave, List.length_map, length_interleaveOrder hD]

/-- The k-th place of the order. -/
theorem interleaveOrder_getD_lt {L k : Nat} (hk : k < L) : (interleaveOrder D L).getD k 0 < L := by
  have hlen := length_interleaveOrder hD L
  rw [List.getD_eq_getElem _ _ (by omega), ← mem_interleaveOrder hD]
  exact List.getElem_mem _

theorem exists_interleaveOrder_getD {L i : Nat} (hi : i < L) : ∃ k < L, (interleaveOrder D L).getD k 0 = i := by
  obtain ⟨k, hk, hki⟩ := List.mem_iff_getElem.1 ((mem_interleaveOrder hD i).2 hi)
  exact ⟨k, by rwa [length_interleaveOrder hD] at hk, by rw [List.getD_eq_getElem _ _ hk, hki]⟩

theorem interleaveOrder_getD_inj {L k l : Nat} (hk : k < L) (hl : l < L) :
    (interleaveOrder D L).getD k 0 = (interleaveOrder D L).getD l 0 ↔ k = l := by
  have hlen := length_interleaveOrder hD L
  rw [List.getD_eq_getElem _ _ (by omega), List.getD_eq_getElem _ _ (by omega),
    (nodup_interleaveOrder D L).getElem_inj_iff]

theorem interleave_getD (b : List Bool) {k : Nat} (hk : k < b.length) :
    (interleave D b).getD k false = b.getD ((interleaveOrder D b.length).getD k 0) false := by
  have hlen := length_interleaveOrder hD b.length
  rw [interleave, List.getD_eq_getElem _ _ (by simpa [hlen]), List.getElem_map, List.getD_eq_getElem _ 0 (by omega)]

theorem deinterleave_getD (v : List Bool) {k : Nat} (hk : k < v.length) :
    (deinterleave D v).getD ((interleaveOrder D v.length).getD k 0) false = v.getD k false := by
  have hlen := length_interleaveOrder hD v.length
  have hplace := interleaveOrder_getD_lt hD hk
  have hfst : ((interleaveOrder D v.length).zip v).map Prod.fst = interleaveOrder D v.length :=
    List.map_fst_zip hlen.le
  have hmem : ((interleaveOrder D v.length).getD k 0, v.getD k false) ∈ (interleaveOrder D v.length).zip v := by
    rw [List.getD_eq_getElem _ 0 (by omega), List.getD_eq_getElem _ false hk, List.mem_iff_getElem]
    exact ⟨k, by simpa [hlen], List.getElem_zip⟩
  have hplaced := getElem?_placeBits (by rw [hfst]; exact nodup_interleaveOrder D v.length) hmem
    (u := Array.replicate v.length false) (by rwa [Array.size_replicate])
  rw [deinterleave_eq, List.getD_eq_getElem?_getD, Array.getElem?_toList, hplaced, Option.getD_some]

/-- R310 pins the deinterleaved string: the order reaches every place. -/
theorem deinterleave_eq_of_getD {u v : List Bool} (hlen : u.length = v.length)
    (h : ∀ k < v.length, u.getD ((interleaveOrder D v.length).getD k 0) false = v.getD k false) :
    deinterleave D v = u := by
  refine eq_of_getD (z := false) (by rw [length_deinterleave, hlen]) fun i hi => ?_
  obtain ⟨k, hk, rfl⟩ := exists_interleaveOrder_getD hD (hlen ▸ hi)
  rw [deinterleave_getD hD v hk, h k hk]

theorem deinterleave_interleave (b : List Bool) : deinterleave D (interleave D b) = b := by
  have hlen := length_interleave hD b
  refine deinterleave_eq_of_getD hD hlen.symm fun k hk => ?_
  rw [hlen] at hk ⊢
  exact (interleave_getD hD b hk).symm

theorem interleave_trivial {b : List Bool} (h : D = 1 ∨ b.length ≤ D) : interleave D b = b := by
  rw [interleave, interleaveOrder_trivial hD h]
  refine eq_of_getD (z := false) (by simp) fun i hi => ?_
  simp [hi]

theorem deinterleave_trivial {b : List Bool} (h : D = 1 ∨ b.length ≤ D) : deinterleave D b = b := by
  conv_lhs => rw [← interleave_trivial hD h, deinterleave_interleave hD]

end

/-- Settles O41: the order lists every index once, so that what is read out at its k-th index is put back there. -/
theorem deinterleaveInverts : Obligations.DeinterleaveInverts := by
  intro D b hD
  refine ⟨deinterleave_interleave hD b, length_interleave hD b,
    fun h => ⟨interleave_trivial hD h, deinterleave_trivial hD h⟩, interleaveCols D b.length, _, rfl,
    interleaveOrder_eq D b.length, length_interleaveOrder hD _, rfl, fun k hk => deinterleave_getD hD b hk⟩

/-! ### The FEC codes (R303 to R306) -/

/-- A codeword as received: right, or with one wrong bit. -/
def received {n : Nat} (c : List Bool) : Option (Fin n) → List Bool
  | none => c
  | some i => c.modify i.val not

@[simp] theorem length_received {n : Nat} (c : List Bool) (e : Option (Fin n)) : (received c e).length = c.length := by
  cases e <;> simp [received]

/-- What the two coded decoders are: each whole group of `n` bits gives `k` bits of its own, and the bits behind the
last whole group give none. -/
structure BlockDecoder (n k : Nat) (f : List Bool → List Bool) : Prop where
  pos : 0 < n
  short : ∀ v : List Bool, v.length < n → f v = []
  append : ∀ c v : List Bool, c.length = n → f (c ++ v) = f c ++ f v
  length_group : ∀ c : List Bool, c.length = n → (f c).length = k

section
variable {n k : Nat} {f : List Bool → List Bool}

theorem BlockDecoder.length (h : BlockDecoder n k f) (v : List Bool) : (f v).length = k * (v.length / n) := by
  induction hl : v.length using Nat.strongRecOn generalizing v with
  | ind l ih =>
    subst hl
    obtain hv | hv := Nat.lt_or_ge v.length n
    · rw [h.short v hv, Nat.div_eq_of_lt hv]
      rfl
    · have hpos := h.pos
      have hlen : (v.take n).length = n := by rw [List.length_take, Nat.min_eq_left hv]
      have hrest := ih (v.drop n).length (by rw [List.length_drop]; omega) _ rfl
      rw [← List.take_append_drop n v, h.append _ _ hlen, List.length_append, List.length_append, hlen,
        h.length_group _ hlen, hrest, Nat.add_div_left _ hpos, Nat.mul_succ, Nat.add_comm]

/-- Words of `n` bits are decoded one by one. -/
theorem BlockDecoder.groups (h : BlockDecoder n k f) {α : Type} {word data : α → List Bool}
    (hlen : ∀ a, (word a).length = n) (hword : ∀ a, f (word a) = data a) (g : List α) {rest : List Bool}
    (hrest : rest.length < n) : f (g.flatMap word ++ rest) = g.flatMap data := by
  induction g with
  | nil => exact h.short rest hrest
  | cons a g ih => rw [List.flatMap_cons, List.append_assoc, h.append _ _ (hlen a), hword, ih, List.flatMap_cons]

/-- A decoder that corrects each word as received corrects a string of them. -/
theorem BlockDecoder.corrects (h : BlockDecoder n k f) {α : Type} {c data : α → List Bool}
    (hlen : ∀ a, (c a).length = n) (hword : ∀ (a : α) (e : Option (Fin n)), f (received (c a) e) = data a)
    {word : α × Option (Fin n) → List Bool} (hright : ∀ a, word (a, none) = c a)
    (hwrong : ∀ a i, word (a, some i) = (c a).modify i.val not) (g : List (α × Option (Fin n))) {rest : List Bool}
    (hrest : rest.length < n) : f (g.flatMap word ++ rest) = g.flatMap fun p => data p.1 := by
  have hreceived : ∀ p, word p = received (c p.1) p.2 := by
    rintro ⟨a, _ | i⟩
    · exact hright a
    · exact hwrong a i
  exact h.groups (fun p => by rw [hreceived, length_received, hlen]) (fun p => by rw [hreceived, hword]) g hrest

end

/-! REP3 (R305) -/

theorem rep3Enc_eq (b : List Bool) : rep3Enc b = b.flatMap fun x => [x, x, x] := by
  induction b with
  | nil => rfl
  | cons x b ih => simp [rep3Enc, ih]

theorem length_rep3Enc (b : List Bool) : (rep3Enc b).length = 3 * b.length := by
  rw [rep3Enc_eq, length_flatMap_const (k := 3) fun _ => rfl]

theorem rep3Dec_block : BlockDecoder 3 1 rep3Dec where
  pos := by decide
  short v hv := by
    match v with
    | [] | [_] | [_, _] => rfl
    | _ :: _ :: _ :: _ => exact absurd hv (by simp)
  append c v hc := by
    obtain ⟨x, y, z, rfl⟩ := List.length_eq_three.1 hc
    rfl
  length_group c hc := by
    obtain ⟨x, y, z, rfl⟩ := List.length_eq_three.1 hc
    rfl

/-- The majority of three equal bits outvotes one wrong one. -/
theorem rep3Dec_received : ∀ (x : Bool) (e : Option (Fin 3)), rep3Dec (received [x, x, x] e) = [x] := by decide

theorem rep3Dec_rep3Enc (b : List Bool) : rep3Dec (rep3Enc b) = b := by
  have h := rep3Dec_block.groups (word := fun x => [x, x, x]) (fun _ => rfl) (fun x => rep3Dec_received x none) b
    (rest := []) (by decide)
  rwa [List.append_nil, ← rep3Enc_eq, List.flatMap_singleton'] at h

/-! HAMMING74 (R306) -/

/-- The codeword of four data bits. -/
def hammingCodeword (d : Bool × Bool × Bool × Bool) : List Bool :=
  [d.1 ^^ d.2.1 ^^ d.2.2.2, d.1 ^^ d.2.2.1 ^^ d.2.2.2, d.1, d.2.1 ^^ d.2.2.1 ^^ d.2.2.2, d.2.1, d.2.2.1, d.2.2.2]

/-- Four data bits as a string. -/
def dataBits (d : Bool × Bool × Bool × Bool) : List Bool := [d.1, d.2.1, d.2.2.1, d.2.2.2]

theorem length_hammingCodeword (d : Bool × Bool × Bool × Bool) : (hammingCodeword d).length = 7 := rfl

theorem length_dataBits (d : Bool × Bool × Bool × Bool) : (dataBits d).length = 4 := rfl

theorem hammingWords_flatMap (g : List (Bool × Bool × Bool × Bool)) :
    hammingWords (g.flatMap dataBits) = g.flatMap hammingCodeword := by
  induction g with
  | nil => rfl
  | cons d g ih => simp [dataBits, hammingCodeword, hammingWords, ← ih]

/-- A string of whole groups of four is a string of data bits. -/
theorem exists_dataBits {b : List Bool} {m : Nat} (hb : b.length = 4 * m) :
    ∃ g : List (Bool × Bool × Bool × Bool), g.length = m ∧ b = g.flatMap dataBits := by
  induction m generalizing b with
  | zero => exact ⟨[], rfl, List.length_eq_zero_iff.1 hb⟩
  | succ m ih =>
    match b, hb with
    | d1 :: d2 :: d3 :: d4 :: b, hb =>
      simp only [List.length_cons] at hb
      obtain ⟨g, hg, rfl⟩ := ih (b := b) (by omega)
      exact ⟨(d1, d2, d3, d4) :: g, by rw [List.length_cons, hg], rfl⟩

theorem hammingDec_block : BlockDecoder 7 4 hammingDec where
  pos := by decide
  short v hv := by
    match v with
    | [] | [_] | [_, _] | [_, _, _] | [_, _, _, _] | [_, _, _, _, _] | [_, _, _, _, _, _] => rfl
    | _ :: _ :: _ :: _ :: _ :: _ :: _ :: _ => exact absurd hv (by simp)
  append c v hc := by
    match c, hc with
    | [_, _, _, _, _, _, _], _ => rfl
  length_group c hc := by
    match c, hc with
    | [_, _, _, _, _, _, _], _ => rfl

/-- The syndrome is the position of one wrong bit, and 0 where none is. -/
theorem hammingDec_received :
    ∀ (d : Bool × Bool × Bool × Bool) (e : Option (Fin 7)),
      hammingDec (received (hammingCodeword d) e) = dataBits d := by
  decide

/-- The padding of the encoder. -/
def hammingPad (l : Nat) : List Bool := List.replicate (4 * ((l + 3) / 4) - l) false

/-- The encoder's codewords are those of the padded string's data bits. -/
theorem exists_hammingEnc_eq (b : List Bool) :
    ∃ g : List (Bool × Bool × Bool × Bool), g.length = (b.length + 3) / 4 ∧
      b ++ hammingPad b.length = g.flatMap dataBits ∧ hammingEnc b = g.flatMap hammingCodeword := by
  obtain ⟨g, hg, hb⟩ := exists_dataBits (b := b ++ hammingPad b.length) (m := (b.length + 3) / 4)
    (by rw [List.length_append, hammingPad, List.length_replicate]; omega)
  exact ⟨g, hg, hb, by rw [← hammingWords_flatMap, ← hb]; rfl⟩

theorem hammingEnc_dataBits (g : List (Bool × Bool × Bool × Bool)) :
    hammingEnc (g.flatMap dataBits) = g.flatMap hammingCodeword := by
  have hlen := length_flatMap_const length_dataBits g
  have hpad : 4 * ((4 * g.length + 3) / 4) - 4 * g.length = 0 := by omega
  rw [hammingEnc, hlen, hpad, List.replicate_zero, List.append_nil, hammingWords_flatMap]

theorem length_hammingEnc (b : List Bool) : (hammingEnc b).length = 7 * ((b.length + 3) / 4) := by
  obtain ⟨g, hg, -, henc⟩ := exists_hammingEnc_eq b
  rw [henc, length_flatMap_const length_hammingCodeword, hg]

theorem hammingDec_hammingEnc (b : List Bool) : hammingDec (hammingEnc b) = b ++ hammingPad b.length := by
  obtain ⟨g, -, hb, henc⟩ := exists_hammingEnc_eq b
  have h := hammingDec_block.groups length_hammingCodeword (fun d => hammingDec_received d none) g (rest := [])
    (by decide)
  rw [henc, hb, ← h, List.append_nil]

/-- The padded string needs no padding, and has the same codewords. -/
theorem hammingEnc_append_pad (b : List Bool) :
    hammingEnc (b ++ List.replicate ((4 - b.length % 4) % 4) false) = hammingEnc b := by
  have hpad : (4 - b.length % 4) % 4 = 4 * ((b.length + 3) / 4) - b.length := by omega
  obtain ⟨g, -, hb, henc⟩ := exists_hammingEnc_eq b
  rw [hpad, ← hammingPad, hb, hammingEnc_dataBits, henc]

/-! The three codes -/

theorem length_fecEnc (f : Fec) (b : List Bool) : (fecEnc f b).length = encLen f b.length := by
  cases f with
  | none => rfl
  | rep3 => exact length_rep3Enc b
  | hamming74 => exact length_hammingEnc b

theorem length_fecDec (f : Fec) (v : List Bool) : (fecDec f v).length = decLen f v.length := by
  cases f with
  | none => rfl
  | rep3 => exact (rep3Dec_block.length v).trans (Nat.one_mul _)
  | hamming74 => exact hammingDec_block.length v

theorem fecDec_fecEnc (f : Fec) (b : List Bool) : (fecDec f (fecEnc f b)).take b.length = b := by
  cases f with
  | none => exact List.take_length
  | rep3 => exact (congrArg _ (rep3Dec_rep3Enc b)).trans List.take_length
  | hamming74 => exact (congrArg _ (hammingDec_hammingEnc b)).trans List.take_left

/-- A decoder gives back at least the bits encoded. -/
theorem le_decLen_encLen (f : Fec) (l : Nat) : l ≤ decLen f (encLen f l) := by
  cases f <;> simp only [decLen, encLen] <;> omega

/-- Settles O42: the coded decoders take their groups one by one, and of a group with one wrong bit the majority and the
syndrome find the data bits. -/
theorem fecCodes : Obligations.FecCodes := by
  refine ⟨fun f b => ⟨length_fecEnc f b, fecDec_fecEnc f b, length_fecDec f⟩, fun l => ⟨rfl, rfl, rfl, rfl, rfl, rfl⟩,
    fun b => ⟨rfl, rfl, rep3Enc_eq b, (hammingEnc_append_pad b).symm⟩, hammingCodeword, fun _ _ _ _ => rfl,
    hammingEnc_dataBits, ?rep3, ?hamming74⟩
  case rep3 =>
    intro g rest hrest
    rw [List.map_eq_flatMap]
    exact rep3Dec_block.corrects (fun _ => rfl) rep3Dec_received (fun _ => rfl) (fun _ _ => rfl) g hrest
  case hamming74 =>
    intro g rest hrest
    exact hammingDec_block.corrects length_hammingCodeword hammingDec_received (fun _ => rfl) (fun _ _ => rfl) g hrest

/-! ### Bits, bytes and words (R17) -/

@[simp] theorem length_byteBits (b : Byte) : (byteBits b).length = 8 := by simp [byteBits]

@[simp] theorem length_bitsOfBytes (b : List Byte) : (bitsOfBytes b).length = 8 * b.length :=
  length_flatMap_const length_byteBits b

theorem byte_ext {x y : Byte} (h : ∀ j < 8, x.getLsbD (7 - j) = y.getLsbD (7 - j)) : x = y := by
  refine BitVec.eq_of_getLsbD_eq fun i hi => ?_
  have hbit := h (7 - i) (by omega)
  rwa [show 7 - (7 - i) = i by omega] at hbit

theorem bitsOfBytes_bit (b : List Byte) {i j : Nat} (hi : i < b.length) (hj : j < 8) :
    (bitsOfBytes b).getD (8 * i + j) false = (b.getD i 0).getLsbD (7 - j) := by
  rw [bitsOfBytes, getD_flatMap length_byteBits 0 false b (by omega), show (8 * i + j) / 8 = i by omega,
    show (8 * i + j) % 8 = j by omega]
  simp [byteBits, hj]

theorem bytesOfBits_bit {n : Nat} {d : List Bool} (hd : 8 * n ≤ d.length) {i j : Nat} (hi : i < n) (hj : j < 8) :
    ((bytesOfBits n d).getD i 0).getLsbD (7 - j) = d.getD (8 * i + j) false := by
  obtain ⟨c, hc⟩ : ∃ c, (d.drop (8 * i)).take 8 = c := ⟨_, rfl⟩
  have hlen : c.length = 8 := by rw [← hc, List.length_take, List.length_drop]; omega
  have hdigit := natOfDigits_digit Bool.toNat_lt false c (i := 7 - j) (by omega)
  have hbyte : (bytesOfBits n d).getD i 0 = BitVec.ofNat 8 (natOfDigits 2 Bool.toNat c) := by
    rw [bytesOfBits, List.getD_eq_getElem?_getD, List.getElem?_map, getElem?_chunks 8 n d hi, hc]
    rfl
  have hbit : c.getD j false = d.getD (8 * i + j) false := by
    rw [← hc, getD_take _ _ hj, List.getD_eq_getElem?_getD, List.getElem?_drop, List.getD_eq_getElem?_getD]
  rw [hbyte, BitVec.getLsbD_ofNat, Nat.testBit_eq_decide_div_mod_eq, hdigit, hlen, show 8 - 1 - (7 - j) = j by omega,
    hbit]
  cases d.getD (8 * i + j) false <;> simp; omega

theorem bytesOfBits_bitsOfBytes (b : List Byte) : bytesOfBits b.length (bitsOfBytes b) = b := by
  refine eq_of_getD (z := 0) (length_bytesOfBits _ _) fun i hi => byte_ext fun j hj => ?_
  rw [bytesOfBits_bit (by rw [length_bitsOfBytes]) hi hj, bitsOfBytes_bit b hi hj]

/-- Four bytes side by side are the word of their number. -/
theorem ofNat_natOfBytes_four (a b c d : Byte) : BitVec.ofNat 32 (natOfBytes [a, b, c, d]) = a ++ b ++ c ++ d := by
  have hjoin : ∀ {w : Nat} (x : BitVec w) (y : Byte), (x ++ y).toNat = 256 * x.toNat + y.toNat := by
    intro w x y
    rw [BitVec.toNat_append, ← Nat.shiftLeft_add_eq_or_of_lt y.isLt, Nat.shiftLeft_eq, Nat.mul_comm]
  have hnat : natOfBytes [a, b, c, d] = (a ++ b ++ c ++ d).toNat := by
    simp only [hjoin]
    simp [natOfBytes]
  rw [hnat, BitVec.ofNat_toNat]
  rfl

theorem wordBytes_append (w : Word) :
    w.extractLsb' 24 8 ++ w.extractLsb' 16 8 ++ w.extractLsb' 8 8 ++ w.extractLsb' 0 8 = w := by
  have h16 : w.extractLsb' 24 8 ++ w.extractLsb' 16 8 = w.extractLsb' 16 16 :=
    BitVec.extractLsb'_append_extractLsb'_eq_extractLsb' rfl
  have h24 : w.extractLsb' 16 16 ++ w.extractLsb' 8 8 = w.extractLsb' 8 24 :=
    BitVec.extractLsb'_append_extractLsb'_eq_extractLsb' rfl
  have h32 : w.extractLsb' 8 24 ++ w.extractLsb' 0 8 = w.extractLsb' 0 32 :=
    BitVec.extractLsb'_append_extractLsb'_eq_extractLsb' rfl
  rw [h16, h24, h32, BitVec.extractLsb'_eq_self]

theorem ofNat_natOfBytes_wordBytes (w : Word) : BitVec.ofNat 32 (natOfBytes (wordBytes w)) = w :=
  (ofNat_natOfBytes_four _ _ _ _).trans (wordBytes_append w)

theorem wordBytes_ofNat_natOfBytes {b : List Byte} (hb : b.length = 4) :
    wordBytes (BitVec.ofNat 32 (natOfBytes b)) = b := by
  match b, hb with
  | [x, y, z, t], _ =>
    have hword : packBytes [x, y, z, t] ++ [] = [BitVec.ofNat 32 (natOfBytes [x, y, z, t])] := by
      simp [packBytes, bytesWords, chunks]
    have h : unpackBytes 4 (packBytes [x, y, z, t] ++ []) = [x, y, z, t] := unpackBytes_packBytes [x, y, z, t] []
    rwa [hword, unpackBytes, List.flatMap_singleton, List.take_of_length_le (Nat.le_of_eq (length_wordBytes _))] at h

/-! ### The CRC (R302) -/

theorem crcBit_msb (c : Word) : (crcBit c).getLsbD 31 = c.getLsbD 0 := by
  unfold crcBit
  cases h : c.getLsbD 0 <;> simp

/-- The top bit of a turn's result is the bit shifted out, so that a turn can be undone. -/
theorem crcBit_injective : Function.Injective crcBit := by
  intro c d h
  have hlsb : c.getLsbD 0 = d.getLsbD 0 := by rw [← crcBit_msb, ← crcBit_msb, h]
  have hshift : c >>> 1 = d >>> 1 := by
    unfold crcBit at h
    rw [hlsb] at h
    split at h
    · exact BitVec.xor_left_inj _ |>.1 h
    · exact h
  refine BitVec.eq_of_getLsbD_eq fun i hi => ?_
  cases i with
  | zero => exact hlsb
  | succ i => simpa [Nat.add_comm] using congrArg (·.getLsbD i) hshift

theorem crcByte_eq_iff {c d : Word} {x y : Byte} :
    crcByte c x = crcByte d y ↔ c ^^^ x.setWidth 32 = d ^^^ y.setWidth 32 := by
  simp only [crcByte, crcBit_injective.eq_iff]

theorem foldl_crcByte_inj (s : List Byte) {c d : Word} : s.foldl crcByte c = s.foldl crcByte d ↔ c = d := by
  induction s generalizing c d with
  | nil => rfl
  | cons b s ih => rw [List.foldl_cons, List.foldl_cons, ih, crcByte_eq_iff, BitVec.xor_left_inj]

/-- Two messages that differ in one byte have different CRCs. -/
theorem crc32_set_eq_iff (msg : List Byte) {i : Nat} (y : Byte) :
    crc32 (msg.set i y) = crc32 msg ↔ msg.set i y = msg := by
  refine ⟨fun h => ?_, fun h => by rw [h]⟩
  obtain hi | hi := Nat.lt_or_ge i msg.length
  · have hset : msg.set i y = msg.take i ++ y :: msg.drop (i + 1) := by
      rw [List.set_eq_take_append_cons_drop, if_pos hi]
    have hsplit : msg = msg.take i ++ msg[i] :: msg.drop (i + 1) := by simp
    have hcrc : crc32 (msg.take i ++ y :: msg.drop (i + 1)) = crc32 (msg.take i ++ msg[i] :: msg.drop (i + 1)) := by
      rw [← hset, ← hsplit, h]
    rw [crc32, crc32, BitVec.xor_left_inj, List.foldl_append, List.foldl_append, List.foldl_cons, List.foldl_cons,
      foldl_crcByte_inj, crcByte_eq_iff, BitVec.xor_right_inj] at hcrc
    have hy : y = msg[i] := byte_ext fun j _ => by
      simpa [show 7 - j < 32 by omega] using congrArg (fun w : Word => w.getLsbD (7 - j)) hcrc
    rw [hy, List.set_getElem_self]
  · exact List.set_eq_of_length_le hi

/-! ### The check of a block (R316) -/

@[simp] theorem length_crcBytes (msg : List Byte) : (crcBytes msg).length = 4 := length_wordBytes _

/-- A block is valid where its last four bytes are its message's CRC. -/
theorem checkBlock_valid_iff {n : Nat} {b : List Byte} (hb : b.length = n + 4) :
    (checkBlock n b).2 = true ↔ b.drop n = crcBytes (b.take n) := by
  have hlen : (b.drop n).length = 4 := by rw [List.length_drop]; omega
  simp only [checkBlock, decide_eq_true_eq, List.take_of_length_le hlen.le]
  constructor
  · intro h
    rw [crcBytes, h, wordBytes_ofNat_natOfBytes hlen]
  · intro h
    rw [h, crcBytes, ofNat_natOfBytes_wordBytes]

theorem checkBlock_append_crcBytes (msg : List Byte) : checkBlock msg.length (msg ++ crcBytes msg) = (msg, true) := by
  have hvalid : (checkBlock msg.length (msg ++ crcBytes msg)).2 = true :=
    (checkBlock_valid_iff (by simp)).2 (by rw [List.drop_left, List.take_left])
  exact Prod.ext List.take_left hvalid

/-- A valid block is not valid with one byte changed, in the message or in the CRC. -/
theorem checkBlock_set_invalid {n : Nat} {b : List Byte} (hb : b.length = n + 4) (hvalid : (checkBlock n b).2 = true)
    {i : Nat} {y : Byte} (hy : b.set i y ≠ b) : (checkBlock n (b.set i y)).2 = false := by
  rw [← Bool.not_eq_true, checkBlock_valid_iff (by rwa [List.length_set])]
  rw [checkBlock_valid_iff hb] at hvalid
  intro hset
  refine hy ?_
  obtain hi | hi := Nat.lt_or_ge i n
  · rw [List.drop_set_of_lt hi, hvalid, List.take_set] at hset
    have hcrc : crc32 ((b.take n).set i y) = crc32 (b.take n) := by
      rw [← ofNat_natOfBytes_wordBytes (crc32 ((b.take n).set i y)), ← crcBytes, ← hset, crcBytes,
        ofNat_natOfBytes_wordBytes]
    have hmsg := (crc32_set_eq_iff _ _).1 hcrc
    rw [← List.take_append_drop n (b.set i y), List.take_set, hmsg, List.drop_set_of_lt hi, List.take_append_drop]
  · have htake : (b.set i y).take n = b.take n := List.take_set_of_le hi
    rw [← List.take_append_drop n (b.set i y), hset, htake, ← hvalid, List.take_append_drop]

/-! ### One flipped bit -/

theorem getD_modify_not (d : List Bool) {j : Nat} (hj : j < d.length) (i : Nat) :
    (d.modify j not).getD i false = if i = j then !d.getD i false else d.getD i false := by
  simp only [List.getD_eq_getElem?_getD, List.getElem?_modify]
  split
  case isTrue h => subst h; simp [hj]
  case isFalse h => simp [Ne.symm h]

/-- A flipped bit is one changed byte. -/
theorem bytesOfBits_modify {n : Nat} {d : List Bool} (hd : d.length = 8 * n) {j : Nat} (hj : j < 8 * n) :
    ∃ i y, bytesOfBits n (d.modify j not) = (bytesOfBits n d).set i y ∧
      (bytesOfBits n d).set i y ≠ bytesOfBits n d := by
  have hbit : ∀ i k, i < n → k < 8 → ((bytesOfBits n (d.modify j not)).getD i 0).getLsbD (7 - k) =
      if 8 * i + k = j then !((bytesOfBits n d).getD i 0).getLsbD (7 - k)
      else ((bytesOfBits n d).getD i 0).getLsbD (7 - k) := by
    intro i k hi hk
    rw [bytesOfBits_bit (by rw [List.length_modify, hd]) hi hk, bytesOfBits_bit hd.ge hi hk,
      getD_modify_not d (by omega)]
  have hset : bytesOfBits n (d.modify j not) =
      (bytesOfBits n d).set (j / 8) ((bytesOfBits n (d.modify j not)).getD (j / 8) 0) := by
    refine eq_of_getD (z := 0) (by simp [length_bytesOfBits]) fun i hi => ?_
    rw [List.length_set, length_bytesOfBits] at hi
    by_cases hij : j / 8 = i
    · simp [hij, hi, length_bytesOfBits]
    · have hother : (bytesOfBits n (d.modify j not)).getD i 0 = (bytesOfBits n d).getD i 0 :=
        byte_ext fun k hk => by rw [hbit i k hi hk, if_neg (by omega)]
      rw [hother]
      simp [hij]
  refine ⟨_, _, hset, fun h => ?_⟩
  have hflip := hbit (j / 8) (j % 8) (by omega) (by omega)
  rw [hset, h, if_pos (by omega)] at hflip
  simp at hflip

/-! ### The chain there and back (R315 to R317) -/

/-- One stage of the transmitter's chain (R317). -/
def encodeStage (f : Fec) (D : Nat) (b : List Bool) : List Bool := interleave D (fecEnc f b)

/-- One stage of the decode chain (R316), for `l` bits. -/
def decodeStage (f : Fec) (D l : Nat) (v : List Bool) : List Bool := (fecDec f (deinterleave D v)).take l

theorem chainEncode_eq (msg : List Byte) (fi fo : Fec) (D1 D2 : Nat) :
    chainEncode msg fi fo D1 D2 = encodeStage fi D2 (encodeStage fo D1 (bitsOfBytes (msg ++ crcBytes msg))) := rfl

theorem chainDecode_eq (n : Nat) (fi fo : Fec) (D1 D2 : Nat) (v : List Bool) :
    chainDecode n fi fo D1 D2 v =
      checkBlock n (bytesOfBits (n + 4)
        (decodeStage fo D1 (chainB0 n) (decodeStage fi D2 (chainL1 n fo) (v.take (chainL2 n fi fo))))) := rfl

theorem length_encodeStage {D : Nat} (hD : 1 ≤ D) (f : Fec) (b : List Bool) :
    (encodeStage f D b).length = encLen f b.length := by
  rw [encodeStage, length_interleave hD, length_fecEnc]

theorem length_decodeStage {f : Fec} {l : Nat} {v : List Bool} (D : Nat) (hv : v.length = encLen f l) :
    (decodeStage f D l v).length = l := by
  rw [decodeStage, List.length_take, length_fecDec, length_deinterleave, hv, Nat.min_eq_left (le_decLen_encLen f l)]

theorem decodeStage_encodeStage {D : Nat} (hD : 1 ≤ D) (f : Fec) (b : List Bool) :
    decodeStage f D b.length (encodeStage f D b) = b := by
  rw [decodeStage, encodeStage, deinterleave_interleave hD, fecDec_fecEnc]

/-- The bits of a message and its CRC (R302). -/
theorem length_blockBits (msg : List Byte) : (bitsOfBytes (msg ++ crcBytes msg)).length = chainB0 msg.length := by
  rw [length_bitsOfBytes, List.length_append, length_crcBytes, chainB0]

theorem bytesOfBits_blockBits (msg : List Byte) :
    bytesOfBits (msg.length + 4) (bitsOfBytes (msg ++ crcBytes msg)) = msg ++ crcBytes msg := by
  have hlen : msg.length + 4 = (msg ++ crcBytes msg).length := by rw [List.length_append, length_crcBytes]
  rw [hlen, bytesOfBits_bitsOfBytes]

section
variable {D1 D2 : Nat} (hD1 : 1 ≤ D1) (hD2 : 1 ≤ D2)
include hD1 hD2

theorem length_chainEncode (msg : List Byte) (fi fo : Fec) :
    (chainEncode msg fi fo D1 D2).length = chainL2 msg.length fi fo := by
  rw [chainEncode_eq, length_encodeStage hD2, length_encodeStage hD1, length_blockBits, chainL2, chainL1]

theorem chainDecode_chainEncode (msg : List Byte) (fi fo : Fec) (tail : List Bool) :
    chainDecode msg.length fi fo D1 D2 (chainEncode msg fi fo D1 D2 ++ tail) = (msg, true) := by
  have hB0 := length_blockBits msg
  have hL1 : (encodeStage fo D1 (bitsOfBytes (msg ++ crcBytes msg))).length = chainL1 msg.length fo := by
    rw [length_encodeStage hD1, hB0, chainL1]
  rw [chainDecode_eq, List.take_left' (length_chainEncode hD1 hD2 msg fi fo), chainEncode_eq, ← hL1,
    decodeStage_encodeStage hD2, ← hB0, decodeStage_encodeStage hD1, bytesOfBits_blockBits, checkBlock_append_crcBytes]

end

/-- Settles O43: each stage of the decoder undoes the encoder's, and the block that comes out is the message and its
CRC. -/
theorem chainRoundTrip : Obligations.ChainRoundTrip := fun msg fi fo _ _ tail hD1 hD2 =>
  ⟨length_chainEncode hD1 hD2 msg fi fo, chainDecode_chainEncode hD1 hD2 msg fi fo tail⟩

/-! ### One flipped bit without coding (R318) -/

/-- A flipped bit stays one flipped bit, at its place in the order. -/
theorem deinterleave_interleave_modify {D : Nat} (hD : 1 ≤ D) (b : List Bool) {k : Nat} (hk : k < b.length) :
    deinterleave D ((interleave D b).modify k not) = b.modify ((interleaveOrder D b.length).getD k 0) not := by
  have hlen : ((interleave D b).modify k not).length = b.length := by rw [List.length_modify, length_interleave hD]
  refine deinterleave_eq_of_getD hD (by rw [List.length_modify, hlen]) fun l hl => ?_
  rw [hlen] at hl ⊢
  rw [getD_modify_not b (interleaveOrder_getD_lt hD hk), getD_modify_not _ (by rwa [length_interleave hD]),
    interleave_getD hD b hl]
  simp only [interleaveOrder_getD_inj hD hl hk]

/-- Two interleavers in a row. -/
theorem deinterleave_twice_modify {D1 D2 : Nat} (hD1 : 1 ≤ D1) (hD2 : 1 ≤ D2) (b : List Bool) {k : Nat}
    (hk : k < b.length) : ∃ j < b.length,
      deinterleave D1 (deinterleave D2 ((interleave D2 (interleave D1 b)).modify k not)) = b.modify j not := by
  have hlen := length_interleave hD1 b
  have hplace := interleaveOrder_getD_lt hD2 hk
  refine ⟨_, interleaveOrder_getD_lt hD1 hplace, ?_⟩
  rw [deinterleave_interleave_modify hD2 _ (by rwa [hlen]), hlen, deinterleave_interleave_modify hD1 b hplace]

/-- Without coding the chain reorders the bits, no more. -/
theorem chainDecode_uncoded {n : Nat} {v : List Bool} (D1 D2 : Nat) (hv : v.length = chainB0 n) :
    chainDecode n .none .none D1 D2 v = checkBlock n (bytesOfBits (n + 4) (deinterleave D1 (deinterleave D2 v))) := by
  have hstage : ∀ (D : Nat) {u : List Bool}, u.length = chainB0 n →
      decodeStage .none D (chainB0 n) u = deinterleave D u := by
    intro D u hu
    exact List.take_of_length_le (by rw [fecDec, length_deinterleave, hu])
  have hL2 : v.take (chainL2 n .none .none) = v := List.take_of_length_le hv.le
  rw [chainDecode_eq, hL2, chainL1, encLen, hstage D2 hv, hstage D1 (by rw [length_deinterleave, hv])]

/-- Settles O44: the flipped bit reaches one byte of the block, and a valid block is not valid with one byte changed. -/
theorem uncodedFlipDetected : Obligations.UncodedFlipDetected := by
  intro msg D1 D2 k hD1 hD2 hk
  have hchain : chainEncode msg .none .none D1 D2 =
      interleave D2 (interleave D1 (bitsOfBytes (msg ++ crcBytes msg))) := rfl
  have hbits := length_blockBits msg
  have hsent : ((chainEncode msg .none .none D1 D2).modify k not).length = chainB0 msg.length := by
    rw [List.length_modify, length_chainEncode hD1 hD2]
    rfl
  obtain ⟨j, hj, hflip⟩ := deinterleave_twice_modify hD1 hD2 (bitsOfBytes (msg ++ crcBytes msg))
    (hk.trans_eq hbits.symm)
  obtain ⟨i, y, hset, hne⟩ := bytesOfBits_modify (n := msg.length + 4) hbits (hj.trans_eq hbits)
  have hvalid : (checkBlock msg.length (msg ++ crcBytes msg)).2 = true := by rw [checkBlock_append_crcBytes]
  rw [bytesOfBits_blockBits] at hset hne
  rw [chainDecode_uncoded D1 D2 hsent, hchain, hflip, hset]
  exact checkBlock_set_invalid (by rw [List.length_append, length_crcBytes]) hvalid hne

/-! ### The chain of any string (R315, R316) -/

theorem drop_eq_four {b : List Byte} {n : Nat} (hb : b.length = n + 4) :
    b.drop n = [b.getD n 0, b.getD (n + 1) 0, b.getD (n + 2) 0, b.getD (n + 3) 0] := by
  refine eq_of_getD (z := 0) (by rw [List.length_drop, hb, Nat.add_sub_cancel_left]; rfl) fun i hi => ?_
  have hdrop : (b.drop n).getD i 0 = b.getD (n + i) 0 := by simp only [List.getD_eq_getElem?_getD, List.getElem?_drop]
  rw [hdrop]
  match i, hi with
  | 0, _ | 1, _ | 2, _ | 3, _ => rfl

theorem checkBlock_eq {b : List Byte} {n : Nat} (hb : b.length = n + 4) :
    checkBlock n b =
      (b.take n, decide (crc32 (b.take n) =
        b.getD n 0 ++ b.getD (n + 1) 0 ++ b.getD (n + 2) 0 ++ b.getD (n + 3) 0)) := by
  rw [checkBlock, drop_eq_four hb, ← ofNat_natOfBytes_four]
  rfl

theorem chainDecode_stages (n : Nat) (fi fo : Fec) (D1 D2 : Nat) {v : List Bool} (hv : chainL2 n fi fo ≤ v.length) :
    ∃ (B0 L1 L2 : Nat) (u2 w u1 d : List Bool) (bytes : List Byte),
      B0 = 8 * (n + 4) ∧ L1 = encLen fo B0 ∧ L2 = encLen fi L1 ∧ chainL2 n fi fo = L2 ∧
      u2 = deinterleave D2 (v.take L2) ∧ w = (fecDec fi u2).take L1 ∧ u1 = deinterleave D1 w ∧
      d = (fecDec fo u1).take B0 ∧ bytes.length = n + 4 ∧
      (∀ i j, i < n + 4 → j < 8 → (bytes.getD i 0).getLsbD (7 - j) = d.getD (8 * i + j) false) ∧
      chainDecode n fi fo D1 D2 v =
        (bytes.take n,
          decide (crc32 (bytes.take n) =
            bytes.getD n 0 ++ bytes.getD (n + 1) 0 ++ bytes.getD (n + 2) 0 ++ bytes.getD (n + 3) 0)) := by
  have hL2 : (v.take (chainL2 n fi fo)).length = encLen fi (chainL1 n fo) := by
    rw [List.length_take, Nat.min_eq_left hv, chainL2]
  have hd := length_decodeStage D1 (length_decodeStage D2 hL2)
  exact ⟨_, _, _, _, _, _, _, bytesOfBits (n + 4) _, rfl, rfl, rfl, rfl, rfl, rfl, rfl, rfl, length_bytesOfBits _ _,
    fun i j hi hj => bytesOfBits_bit hd.ge hi hj, checkBlock_eq (length_bytesOfBits _ _)⟩

/-! ### The commands (R325 to R328) -/

theorem bitsCount_of_length {l : Word} {ws : List Word} (hl : l.toNat ≤ Config.bitCap)
    (hws : ws.length = (l.toNat + 31) / 32) : bitsCount (l :: ws) = some (ws.length + 1) := by
  rw [bitsCount, if_pos hl, bitsWords, hws, Nat.add_comm]

theorem crcCount_of_length {n : Word} {ws : List Word} (hn : n.toNat ≤ Config.payloadCap)
    (hws : ws.length = (n.toNat + 4 + 3) / 4) : crcCount (n :: ws) = some (ws.length + 1) := by
  rw [crcCount, if_pos hn, bytesWords, hws, Nat.add_comm]

theorem decCount_of_length {n depths l : Word} {ws : List Word} (hl : l.toNat ≤ Config.bitCap)
    (hws : ws.length = (l.toNat + 31) / 32) : decCount (n :: depths :: l :: ws) = some (ws.length + 3) := by
  rw [decCount, if_pos hl, bitsWords, hws, Nat.add_comm]

/-- The bits of as many words as they need. -/
theorem length_unpackBits_of_length {l : Nat} {ws : List Word} (hws : ws.length = (l + 31) / 32) :
    (unpackBits l ws).length = l := length_unpackBits (by omega)

theorem fecOfId_id (f : Fec) : Fec.ofId f.id = some f := by cases f <;> rfl

theorem toNat_fecId (f : Fec) : (BitVec.ofNat 8 f.id).toNat = f.id := by cases f <;> rfl

theorem fecOfId_eq_none {i : Nat} (h : 2 < i) : Fec.ofId i = none := by
  match i, h with
  | _ + 3, _ => rfl

theorem exec_dilDeinterleave_ok {depth : BitVec 24} {l : Word} {ws : List Word} (hl : l.toNat ≤ Config.bitCap)
    (hws : ws.length = (l.toNat + 31) / 32) (hdepth : depth ≠ 0) (s : State) :
    exec (.dilDeinterleave depth (l :: ws)) s =
      .next (s.respond (l :: packBits (deinterleave depth.toNat (unpackBits l.toNat ws)))) := by
  have hresponse : bitsResponse (deinterleave depth.toNat (unpackBits l.toNat ws)) =
      l :: packBits (deinterleave depth.toNat (unpackBits l.toNat ws)) := by
    rw [bitsResponse, length_deinterleave, length_unpackBits_of_length hws, countWord, BitVec.ofNat_toNat]
    rfl
  show execDilDeinterleave depth (l :: ws) s = _
  simp only [execDilDeinterleave, bitsCount_of_length hl hws, ne_eq, not_true_eq_false, if_false, hdepth, settle_ok,
    hresponse]

theorem exec_dilDeinterleave_zero (ws : List Word) (s : State) :
    exec (.dilDeinterleave 0 ws) s = .next (s.failWith .badOperands [0]) := by
  show execDilDeinterleave 0 ws s = _
  cases ws with
  | nil => rfl
  | cons l ws => simp only [execDilDeinterleave, if_true, ite_self, settle_error, failResponse]

theorem exec_fecDecode_ok {id : BitVec 8} {f : Fec} (hid : Fec.ofId id.toNat = some f) {l : Word} {ws : List Word}
    (hl : l.toNat ≤ Config.bitCap) (hws : ws.length = (l.toNat + 31) / 32) (s : State) :
    exec (.fecDecode id (l :: ws)) s = .next (s.respond (bitsResponse (fecDec f (unpackBits l.toNat ws)))) := by
  show execFecDecode id (l :: ws) s = _
  simp only [execFecDecode, bitsCount_of_length hl hws, ne_eq, not_true_eq_false, if_false, hid, settle_ok]

theorem exec_fecDecode_badId {id : BitVec 8} (hid : Fec.ofId id.toNat = none) (ws : List Word) (s : State) :
    exec (.fecDecode id ws) s = .next (s.failWith .badOperands [0]) := by
  show execFecDecode id ws s = _
  cases ws with
  | nil => rfl
  | cons l ws => simp only [execFecDecode, hid, ite_self, settle_error, failResponse]

theorem exec_crcCheck_ok {n : Word} {ws : List Word} (hn : n.toNat ≤ Config.payloadCap)
    (hws : ws.length = (n.toNat + 4 + 3) / 4) (s : State) :
    exec (.crcCheck (n :: ws)) s = .next (s.respond
      [flagWord (checkBlock n.toNat (unpackBytes (n.toNat + 4) ws)).2,
        crc32 (checkBlock n.toNat (unpackBytes (n.toNat + 4) ws)).1]) := by
  show execCrcCheck (n :: ws) s = _
  simp only [execCrcCheck, crcCount_of_length hn hws, ne_eq, not_true_eq_false, if_false, settle_ok]

/-- The worked values of R302. -/
theorem crc32_worked :
    crc32 [0x31, 0x32, 0x33, 0x34, 0x35, 0x36, 0x37, 0x38, 0x39] = 0xCBF43926 ∧ crc32 [0xA5] = 0x74BEB8EA ∧
      crc32 [1, 1, 0, 1, 0, 0] = 0x463C3181 ∧ crc32 [] = 0 := by
  simp [crc32, crcByte, crcBit]

/-- Settles O39: each command's checks pass, and its stage gives as many bits as its response counts. -/
theorem chainStageCommands : Obligations.ChainStageCommands := by
  refine ⟨by decide, fun s depth l ws hl hws hdepth => exec_dilDeinterleave_ok hl hws hdepth s, ?fec,
    fun s ws => ⟨exec_dilDeinterleave_zero ws s, fun id hid => exec_fecDecode_badId (fecOfId_eq_none hid) ws s⟩, ?crc,
    fun _ => rfl, crc32_worked⟩
  case fec =>
    intro s f l ws hl hws
    refine ⟨_, rfl, by rw [length_fecDec, length_unpackBits_of_length hws], ?_⟩
    exact exec_fecDecode_ok (by rw [toNat_fecId, fecOfId_id]) hl hws s
  case crc =>
    intro s n ws hn hws
    refine ⟨_, rfl, ?_⟩
    have hlen : (unpackBytes (n.toNat + 4) ws).length = n.toNat + 4 := length_unpackBytes (by omega)
    have htail : ((unpackBytes (n.toNat + 4) ws).drop n.toNat).length ≤ 4 := by rw [List.length_drop]; omega
    rw [exec_crcCheck_ok hn hws, checkBlock, List.take_of_length_le htail]
    simp only [flagWord, decide_eq_true_eq]

/-! DEC_DECODE packs both depths in one word (R328). -/

theorem toNat_depth1 (w : Word) : (w.extractLsb' 0 8).toNat = w.toNat % 256 := by
  rw [BitVec.extractLsb'_toNat, Nat.shiftRight_zero]

theorem toNat_depth2 (w : Word) : (w.extractLsb' 8 8).toNat = w.toNat / 256 % 256 := by
  rw [BitVec.extractLsb'_toNat, Nat.shiftRight_eq_div_pow]

theorem depths_high_eq_zero_iff (w : Word) : w.extractLsb' 16 16 = 0 ↔ w.toNat < 65536 := by
  have hw := w.isLt
  rw [← BitVec.toNat_inj, BitVec.extractLsb'_toNat, Nat.shiftRight_eq_div_pow]
  simp only [BitVec.ofNat_eq_ofNat, BitVec.toNat_ofNat]
  omega

section
variable {fi fo : BitVec 8} {n depths l : Word} {ws : List Word} (hl : l.toNat ≤ Config.bitCap)
  (hws : ws.length = (l.toNat + 31) / 32)
include hl hws

theorem exec_decDecode_badId (hid : Fec.ofId fi.toNat = none ∨ Fec.ofId fo.toNat = none) (s : State) :
    exec (.decDecode fi fo (n :: depths :: l :: ws)) s = .next (s.failWith .badOperands [0]) := by
  show execDecDecode fi fo (n :: depths :: l :: ws) s = _
  simp only [execDecDecode, decCount_of_length hl hws, ne_eq, not_true_eq_false, if_false]
  obtain hfi | hfo := hid
  · simp only [hfi, settle_error, failResponse]
  · rw [hfo]
    cases Fec.ofId fi.toNat <;> rfl

/-- With its count and its ids right, DEC_DECODE checks the message's length, the depths and the string's length. -/
theorem exec_decDecode_eq {gi go : Fec} (hfi : Fec.ofId fi.toNat = some gi) (hfo : Fec.ofId fo.toNat = some go)
    (s : State) :
    exec (.decDecode fi fo (n :: depths :: l :: ws)) s = settle .decDecode s
      (if Config.payloadCap < n.toNat then .error .badOperands
      else if depths.toNat % 256 = 0 ∨ depths.toNat / 256 % 256 = 0 ∨ 65536 ≤ depths.toNat then .error .badOperands
      else if l.toNat < chainL2 n.toNat gi go then .error .badOperands
      else
        .ok (s, flagWord (chainDecode n.toNat gi go (depths.toNat % 256) (depths.toNat / 256 % 256)
            (unpackBits l.toNat ws)).2 ::
          packBytes (chainDecode n.toNat gi go (depths.toNat % 256) (depths.toNat / 256 % 256)
            (unpackBits l.toNat ws)).1)) := by
  show execDecDecode fi fo (n :: depths :: l :: ws) s = _
  simp only [execDecDecode, decCount_of_length hl hws, ne_eq, not_true_eq_false, if_false, hfi, hfo, toNat_depth1,
    toNat_depth2, depths_high_eq_zero_iff, Bool.or_eq_true, decide_eq_true_eq, not_lt, or_assoc]

theorem exec_decDecode_bad (hbad : 2 < fi.toNat ∨ 2 < fo.toNat ∨ Config.payloadCap < n.toNat ∨ depths.toNat % 256 = 0 ∨
    depths.toNat / 256 % 256 = 0 ∨ 65536 ≤ depths.toNat) (s : State) :
    exec (.decDecode fi fo (n :: depths :: l :: ws)) s = .next (s.failWith .badOperands [0]) := by
  obtain hfi | hfo | hbad := hbad
  · exact exec_decDecode_badId hl hws (.inl (fecOfId_eq_none hfi)) s
  · exact exec_decDecode_badId hl hws (.inr (fecOfId_eq_none hfo)) s
  · cases hfi : Fec.ofId fi.toNat with
    | none => exact exec_decDecode_badId hl hws (.inl hfi) s
    | some gi =>
      cases hfo : Fec.ofId fo.toNat with
      | none => exact exec_decDecode_badId hl hws (.inr hfo) s
      | some go =>
        rw [exec_decDecode_eq hl hws hfi hfo]
        obtain hn | hdepths := hbad
        · rw [if_pos hn, settle_error, failResponse]
        · rw [if_pos hdepths, ite_self, settle_error, failResponse]

section
variable {gi go : Fec} (hfi : Fec.ofId fi.toNat = some gi) (hfo : Fec.ofId fo.toNat = some go)
include hfi hfo

theorem exec_decDecode_ok (hn : n.toNat ≤ Config.payloadCap) (h1 : depths.toNat % 256 ≠ 0)
    (h2 : depths.toNat / 256 ≠ 0) (hhigh : depths.toNat < 65536) (hlen : chainL2 n.toNat gi go ≤ l.toNat) (s : State) :
    exec (.decDecode fi fo (n :: depths :: l :: ws)) s = .next (s.respond
      (flagWord (chainDecode n.toNat gi go (depths.toNat % 256) (depths.toNat / 256) (unpackBits l.toNat ws)).2 ::
        packBytes
          (chainDecode n.toNat gi go (depths.toNat % 256) (depths.toNat / 256) (unpackBits l.toNat ws)).1)) := by
  have hmod : depths.toNat / 256 % 256 = depths.toNat / 256 := Nat.mod_eq_of_lt (by omega)
  rw [exec_decDecode_eq hl hws hfi hfo, if_neg hn.not_gt, if_neg (by omega), if_neg hlen.not_gt, settle_ok, hmod]

theorem exec_decDecode_short (hlen : l.toNat < chainL2 n.toNat gi go) (s : State) :
    exec (.decDecode fi fo (n :: depths :: l :: ws)) s = .next (s.failWith .badOperands [0]) := by
  rw [exec_decDecode_eq hl hws hfi hfo, if_pos hlen, ite_self, ite_self, settle_error, failResponse]

end

end

/-- Settles O40: the chain's stages have the lengths of R315, and the command's checks are R328's. -/
theorem chainDecodeCommand : Obligations.ChainDecodeCommand := by
  refine ⟨fun n fi fo D1 D2 v hv => chainDecode_stages n fi fo D1 D2 hv, ?command⟩
  case command =>
    intro s fi fo n depths l ws hl hws
    refine ⟨fun gi go hgi hgo hn h1 h2 hhigh => ?good, fun hbad => exec_decDecode_bad hl hws hbad s⟩
    case good =>
      have hfi : Fec.ofId fi.toNat = some gi := by rw [← hgi, fecOfId_id]
      have hfo : Fec.ofId fo.toNat = some go := by rw [← hgo, fecOfId_id]
      exact ⟨fun hlen => ⟨_, _, rfl, length_chainDecode _ _ _ _ _ _,
          exec_decDecode_ok hl hws hfi hfo hn h1 h2 hhigh hlen s⟩,
        fun hlen => exec_decDecode_short hl hws hfi hfo hlen s⟩

end Sys2Proof.Machine

/-! PROOFS of the family 46_frame_sync.md: EXECUTE and its pipeline (R340, R341, R343), the constellation points (R348),
the detection, the symbols and the ends of the frame parts (R349 to R358), the frame record (R360), the order of the
counters (R363) and the accessors (R365 to R367). `detect_eq`, `startPayload_eq` and `headerDone_of_some` or
`headerDone_of_none` say once what the frame engine does; the frames, the counters and the splitting read it off them. -/

namespace Sys2Proof.Machine

/-! ### A counter and its bound (R362, R363) -/

theorem toNat_countUp (n : Word) {bound : Nat} (h : bound < 2 ^ 32) :
    (countUp n bound).toNat = min (n.toNat + 1) bound := by
  unfold countUp
  rw [BitVec.toNat_ofNat, Nat.mod_eq_of_lt (by omega)]

theorem countUp_le (n : Word) {bound : Nat} (h : bound < 2 ^ 32) : (countUp n bound).toNat ≤ bound :=
  (toNat_countUp n h).trans_le (Nat.min_le_right _ _)

theorem le_countUp {n : Word} {bound : Nat} (h : bound < 2 ^ 32) (hn : n.toNat ≤ bound) :
    n.toNat ≤ (countUp n bound).toNat := by
  rw [toNat_countUp n h]
  exact Nat.le_min.2 ⟨Nat.le_succ _, hn⟩

/-! ### What a detection does (R349, R350) -/

@[simp] theorem agcSeed_bw (A G : R) (g : Agc) : (agcSeed A G g).bw = g.bw := agcUpdate_bw _ _

/-- A detection, the bandwidths written out. -/
theorem detect_eq (d : Detection) (s : State) :
    detect d s =
      { s with
        stats := { s.stats with nDet := countUp s.stats.nDet (2 ^ 32 - 1) }
        lastDet := d
        nco :=
          { theta := s.nco.theta + toPhase d.phi
            omega := s.nco.omega + toPhase (d.dw.div (R.ofNat s.cfg.k))
            omegaSeek := s.nco.omega }
        agc :=
          { e := (agcSeed s.cfg.A d.gain s.agc).e, bw := if s.cfg.bwSwitch then s.agc.bw else s.cfg.agcBwN }
        pllBw := if s.cfg.bwSwitch then s.pllBw else s.cfg.pllBwN
        ss :=
          { ssRotate s.cfg
              (cscale
                ((R.fmax s.agc.e Config.eMin).div (R.fmax (agcSeed s.cfg.A d.gain s.agc).e Config.eMin)).sqrt
                (conj (cis (toPhase d.phi)))) s.ss with
            bw := if s.cfg.bwSwitch then s.ss.bw else s.cfg.ssBwN }
        demScheme := s.cfg.hdrMod
        fsm := { s.fsm with cnt := 0, bits := [], phase := .header } } := by
  have hseed : agcSeed s.cfg.A d.gain s.agc = { e := (agcSeed s.cfg.A d.gain s.agc).e, bw := s.agc.bw } := by
    rw [← agcSeed_bw s.cfg.A d.gain s.agc]
  unfold detect
  dsimp only
  cases s.cfg.bwSwitch with
  | false => rfl
  | true => simp only [if_true]; rw [← hseed]; rfl

theorem detect_stats (d : Detection) (s : State) :
    (detect d s).stats = { s.stats with nDet := countUp s.stats.nDet (2 ^ 32 - 1) } := by rw [detect_eq]

theorem detect_frames (d : Detection) (s : State) : (detect d s).frames = s.frames := by rw [detect_eq]

/-- Settles O49: the detections are counted without wrapping, and the rest is `detect_eq`. -/
theorem detectionSeeds : Obligations.DetectionSeeds := fun d s =>
  ⟨_, _, _, rfl, rfl, toNat_countUp s.stats.nDet (by decide), detect_eq d s⟩

/-! ### How a header ends (R355) -/

/-- The start of a payload, the bandwidths written out. -/
theorem startPayload_eq (sch : Scheme) (h : Header) (s : State) :
    startPayload sch h s =
      { s with
        stats := { s.stats with nHdr := countUp s.stats.nHdr s.stats.nDet.toNat }
        hdrW0 := headerWord0 h
        hdrW1 := headerWord1 h
        demScheme := sch
        agc := { s.agc with bw := if s.cfg.bwSwitch then s.cfg.agcBwN else s.agc.bw }
        pllBw := if s.cfg.bwSwitch then s.cfg.pllBwN else s.pllBw
        ss := { s.ss with bw := if s.cfg.bwSwitch then s.cfg.ssBwN else s.ss.bw }
        fsm :=
          { s.fsm with
            hdr := h
            paySyms := (chainL2 h.len.toNat h.fecI h.fecO + sch.bps - 1) / sch.bps
            cnt := 0, bits := [], evmAcc := R.zero, phase := .payload } } := by
  unfold startPayload
  dsimp only
  cases s.cfg.bwSwitch <;> rfl

theorem startPayload_stats (sch : Scheme) (h : Header) (s : State) :
    (startPayload sch h s).stats = { s.stats with nHdr := countUp s.stats.nHdr s.stats.nDet.toNat } := by
  rw [startPayload_eq]

theorem startPayload_frames (sch : Scheme) (h : Header) (s : State) : (startPayload sch h s).frames = s.frames := by
  rw [startPayload_eq]

/-- What a header's bits say: the scheme and the descriptor, if the block is valid and every field supported. -/
def headerVerdict (s : State) : Option (Scheme × Header) :=
  if (frameDecode 6 s.cfg.hdrFi s.cfg.hdrFo s).2.1 then
    parseHeader s.cfg.maxPayload (frameDecode 6 s.cfg.hdrFi s.cfg.hdrFo s).1
  else none

theorem headerDone_of_none {s : State} (h : headerVerdict s = none) :
    headerDone s = doReset true { s with draws := (frameDecode 6 s.cfg.hdrFi s.cfg.hdrFo s).2.2 } := by
  unfold headerVerdict at h
  simp only [headerDone, h]

theorem headerDone_of_some {s : State} {sch : Scheme} {hdr : Header} (h : headerVerdict s = some (sch, hdr)) :
    headerDone s = startPayload sch hdr { s with draws := (frameDecode 6 s.cfg.hdrFi s.cfg.hdrFo s).2.2 } := by
  unfold headerVerdict at h
  simp only [headerDone, h]

/-! ### The order of the counters (R363, R464) -/

/-- The detection counter never moves down. -/
theorem detect_statsOrdered (d : Detection) {s : State} (hs : StatsOrdered s) : StatsOrdered (detect d s) := by
  obtain ⟨hpay, hhdr⟩ := hs
  have hlt := s.stats.nDet.isLt
  have hdet : s.stats.nDet.toNat ≤ (countUp s.stats.nDet (2 ^ 32 - 1)).toNat := le_countUp (by decide) (by omega)
  unfold StatsOrdered
  rw [detect_stats]
  exact ⟨hpay, hhdr.trans hdet⟩

/-- The header counter never moves down, nor past the detection counter. -/
theorem startPayload_statsOrdered (sch : Scheme) (h : Header) {s : State} (hs : StatsOrdered s) :
    StatsOrdered (startPayload sch h s) := by
  obtain ⟨hpay, hhdr⟩ := hs
  have hlt := s.stats.nDet.isLt
  unfold StatsOrdered
  rw [startPayload_stats]
  exact ⟨hpay.trans (le_countUp hlt hhdr), countUp_le _ hlt⟩

theorem headerDone_statsOrdered {s : State} (hs : StatsOrdered s) : StatsOrdered (headerDone s) := by
  have hdraw : StatsOrdered { s with draws := (frameDecode 6 s.cfg.hdrFi s.cfg.hdrFo s).2.2 } := hs
  obtain h | ⟨sch, hdr, -, h⟩ := headerDone_cases s
  · rw [h]; exact hdraw
  · rw [h]; exact startPayload_statsOrdered sch hdr hdraw

/-- The payload counter moves for a valid payload alone, and no further than the header counter. -/
theorem payloadStats_nPay_le {s : State} (hs : StatsOrdered s) (ok : Bool) :
    (payloadStats ok s).nPay.toNat ≤ s.stats.nHdr.toNat := by
  obtain ⟨hpay, -⟩ := hs
  cases ok with
  | false => exact hpay
  | true => exact countUp_le _ s.stats.nHdr.isLt

theorem payloadDone_statsOrdered {s : State} (hs : StatsOrdered s) : StatsOrdered (payloadDone s) :=
  ⟨payloadStats_nPay_le hs _, hs.2⟩

theorem symbol_statsOrdered (y : C) (s : State) (hs : StatsOrdered s) : StatsOrdered (symbol y s) := by
  have hpush : StatsOrdered { s with det := (detPush s.cfg s.thresh y s.det).1 } := hs
  have htake : StatsOrdered (takeSymbol y s) := hs
  obtain ⟨-, -, h⟩ | ⟨d, -, -, h⟩ | ⟨-, -, h⟩ | ⟨-, -, h⟩ | ⟨-, -, h⟩ | ⟨-, -, h⟩ | ⟨-, h⟩ := symbol_cases y s
  all_goals rw [h]
  · exact hpush
  · exact detect_statsOrdered d hpush
  · exact headerDone_statsOrdered htake
  · exact htake
  · exact payloadDone_statsOrdered htake
  · exact htake
  · exact hs

theorem reset_statsOrdered : StatsOrdered State.reset := ⟨Nat.le_refl _, Nat.le_refl _⟩

/-- No register write reaches the counters. -/
theorem regWritten_statsOrdered {s t : State} {v : Word} {r : Reg} (hs : StatsOrdered s)
    (h : regWritten s v r = .ok t) : StatsOrdered t := by
  obtain ⟨q, rfl⟩ | rfl | ⟨n, rfl⟩ | ⟨-, rfl⟩ | ⟨-, rfl⟩ := regWritten_ok h <;> exact hs

/-- RESET_BLOCK, CONFIGURE and RESET_STATS clear the counters, and EXECUTE alone counts. -/
theorem Effect.statsOrdered {s t : State} {i : Instr} {r : List Word} (hs : StatsOrdered s) (h : Effect s i t r) :
    StatsOrdered t := by
  cases h with
  | resetBlock | configure | resetStats => exact reset_statsOrdered
  | regWrite a v r hr t ht => exact regWritten_statsOrdered hs ht
  | execute n ws hn hc => exact runSamples_keeps (fun _ _ h => h) symbol_statsOrdered _ hs
  | _ => exact hs

/-- Settles O57: each effect keeps the order, as each counter stops at the one before it. -/
theorem statsStayOrdered : Obligations.StatsStayOrdered :=
  keptByStep_of_effect (fun _ _ _ _ h => h) Effect.statsOrdered

/-! ### EXECUTE (R340, R341) -/

theorem exec_execute_ok {n : BitVec 24} {ws : List Word} {s : State} (hlen : ws.length = 2 * n.toNat)
    (hs : s.configured = true) : exec (.execute n ws) s = .next ((runSamples (samples ws) s).respond []) := by
  simp only [exec, execExecute, hlen, hs, ne_eq, not_true_eq_false, if_false, Bool.not_true, Bool.false_eq_true,
    settle_ok]

theorem runSamples_cons (x : C) (xs : List C) (s : State) : runSamples (x :: xs) s = runSamples xs (sample x s) := rfl

theorem runSamples_append (xs ys : List C) (s : State) :
    runSamples (xs ++ ys) s = runSamples ys (runSamples xs s) := List.foldl_append

/-- Settles O45: both checks of EXECUTE pass, and the AGC's part of a sample is the one energy update of R191. -/
theorem executeRuns : Obligations.ExecuteRuns := by
  refine ⟨fun n ws s => exec_execute_ok, fun s hs => ?empty, fun _ => rfl, fun x xs s => ?sample⟩
  case empty => exact exec_execute_ok (n := 0) (ws := []) rfl hs
  case sample =>
    refine ⟨_, _, _, _, _, _, rfl, rfl, rfl, rfl, rfl, ?_⟩
    rw [runSamples_cons, sample, frontEnd, agcExecute, agcUpdate_eq]
    rfl

/-! ### Splitting a sample sequence (R343)

The pipeline does not look at the response port, so the response of the first command does not change what the second
one does. -/

/-- The state with other responses. -/
def State.withResp (s : State) (resp : List (List Word)) : State := { s with resp := resp }

/-- `f` neither reads nor writes the response port. -/
def RespBlind (f : State → State) : Prop :=
  ∀ (s : State) (resp : List (List Word)), f (s.withResp resp) = (f s).withResp resp

theorem RespBlind.comp {f g : State → State} (hg : RespBlind g) (hf : RespBlind f) : RespBlind fun s => g (f s) :=
  fun s resp => (congrArg g (hf s resp)).trans (hg (f s) resp)

theorem RespBlind.ite {c : State → Prop} [DecidablePred c] {f g : State → State}
    (hc : ∀ s resp, c (s.withResp resp) ↔ c s) (hf : RespBlind f) (hg : RespBlind g) :
    RespBlind fun s => if c s then f s else g s := by
  intro s resp
  by_cases h : c s
  · simp only [if_pos ((hc s resp).2 h), if_pos h, hf s resp]
  · simp only [if_neg (mt (hc s resp).1 h), if_neg h, hg s resp]

theorem RespBlind.foldl {α : Type} {f : α → State → State} (h : ∀ a, RespBlind (f a)) (l : List α) :
    RespBlind (l.foldl fun s a => f a s) := by
  intro s resp
  induction l generalizing s with
  | nil => rfl
  | cons a l ih => exact (congrArg (l.foldl fun s a => f a s) (h a s resp)).trans (ih (f a s))

theorem takeSymbol_respBlind (y : C) : RespBlind (takeSymbol y) := fun _ _ => rfl

theorem payloadDone_respBlind : RespBlind payloadDone := fun _ _ => rfl

theorem detect_respBlind (d : Detection) : RespBlind (detect d) := by
  intro s resp
  rw [detect_eq, detect_eq]
  rfl

theorem startPayload_respBlind (sch : Scheme) (h : Header) : RespBlind (startPayload sch h) := by
  intro s resp
  rw [startPayload_eq, startPayload_eq]
  rfl

theorem headerDone_respBlind : RespBlind headerDone := by
  intro s resp
  have hsame : headerVerdict (s.withResp resp) = headerVerdict s := rfl
  cases h : headerVerdict s with
  | none => rw [headerDone_of_none (hsame.trans h), headerDone_of_none h]; rfl
  | some p =>
    obtain ⟨sch, hdr⟩ := p
    rw [headerDone_of_some (hsame.trans h), headerDone_of_some h]
    exact startPayload_respBlind sch hdr { s with draws := _ } resp

theorem seekSymbol_respBlind (y : C) : RespBlind (seekSymbol y) := by
  intro s resp
  have hsame : detPush (s.withResp resp).cfg (s.withResp resp).thresh y (s.withResp resp).det =
      detPush s.cfg s.thresh y s.det := rfl
  unfold seekSymbol
  rw [hsame]
  dsimp only
  cases (detPush s.cfg s.thresh y s.det).2 with
  | none => rfl
  | some d => exact detect_respBlind d { s with det := _ } resp

theorem symbol_respBlind (y : C) : RespBlind (symbol y) := by
  intro s resp
  have hphase : (s.withResp resp).fsm.phase = s.fsm.phase := rfl
  have hheader : RespBlind fun t => if t.fsm.cnt = t.fsm.hdrSyms then headerDone t else t :=
    .ite (fun _ _ => Iff.rfl) headerDone_respBlind fun _ _ => rfl
  have hpayload : RespBlind fun t => if t.fsm.cnt = t.fsm.paySyms then payloadDone t else t :=
    .ite (fun _ _ => Iff.rfl) payloadDone_respBlind fun _ _ => rfl
  unfold symbol
  rw [hphase]
  cases s.fsm.phase with
  | seek => exact seekSymbol_respBlind y s resp
  | header => exact hheader.comp (takeSymbol_respBlind y) s resp
  | payload => exact hpayload.comp (takeSymbol_respBlind y) s resp
  | reset => rfl

/-- A sample is the symbols of the synchroniser's outputs, which do not depend on the responses either. -/
theorem sample_respBlind (x : C) : RespBlind (sample x) := fun s resp =>
  RespBlind.foldl symbol_respBlind (ssPush s.cfg (frontEnd x s).2 s.ss).2
    { (frontEnd x s).1 with ss := (ssPush s.cfg (frontEnd x s).2 s.ss).1 } resp

theorem runSamples_respBlind (xs : List C) : RespBlind (runSamples xs) := RespBlind.foldl sample_respBlind xs

theorem samples_append {a b : List Word} {n : Nat} (ha : a.length = 2 * n) :
    samples (a ++ b) = samples a ++ samples b := by
  induction n generalizing a with
  | zero => rw [List.eq_nil_of_length_eq_zero ha]; rfl
  | succ n ih =>
    match a, ha with
    | re :: im :: rest, ha =>
      have hrest : rest.length = 2 * n := by simp only [List.length_cons] at ha; omega
      exact congrArg (decC re im :: ·) (ih hrest)

/-- Settles O46: the second part runs from the state the first one left, its response aside. -/
theorem executeSplits : Obligations.ExecuteSplits := by
  intro n1 n2 n a b s hn ha hb hconf
  have hab : (a ++ b).length = 2 * n.toNat := by rw [List.length_append, ha, hb, hn]; omega
  have hfirst := runSamples_streamed (samples a) s
  have hsecond : runSamples (samples b) ((runSamples (samples a) s).respond []) =
      (runSamples (samples (a ++ b)) s).withResp ((runSamples (samples a) s).resp ++ [[]]) := by
    rw [samples_append ha, runSamples_append]
    exact runSamples_respBlind (samples b) (runSamples (samples a) s) _
  refine ⟨_, _, _, exec_execute_ok hab hconf, exec_execute_ok ha hconf,
    exec_execute_ok hb (hfirst.configured.trans hconf), ?resp, ?state⟩
  case resp =>
    rw [hsecond, respond_resp, respond_resp, (runSamples_streamed (samples (a ++ b)) s).resp, ← hfirst.resp]
    rfl
  case state => rw [hsecond]; rfl

/-! ### One symbol (R351, R352, R354, R361) -/

section
variable {s : State} {y : C}

theorem symbol_seek_none (h : s.fsm.phase = .seek) (hd : (detPush s.cfg s.thresh y s.det).2 = none) :
    symbol y s = { s with det := (detPush s.cfg s.thresh y s.det).1 } := by
  simp only [symbol, h, seekSymbol, hd]

theorem symbol_seek_some (h : s.fsm.phase = .seek) {d : Detection}
    (hd : (detPush s.cfg s.thresh y s.det).2 = some d) :
    symbol y s = detect d { s with det := (detPush s.cfg s.thresh y s.det).1 } := by
  simp only [symbol, h, seekSymbol, hd]

theorem symbol_header (h : s.fsm.phase = .header) :
    symbol y s = if s.fsm.cnt + 1 = s.fsm.hdrSyms then headerDone (takeSymbol y s) else takeSymbol y s := by
  simp only [symbol, h]
  rfl

theorem symbol_payload (h : s.fsm.phase = .payload) :
    symbol y s = if s.fsm.cnt + 1 = s.fsm.paySyms then payloadDone (takeSymbol y s) else takeSymbol y s := by
  simp only [symbol, h]
  rfl

theorem bitLimit_eq (h : s.fsm.phase = .header ∨ s.fsm.phase = .payload) :
    bitLimit s =
      if s.fsm.phase = .header then chainL2 6 s.cfg.hdrFi s.cfg.hdrFo
      else chainL2 s.fsm.hdr.len.toNat s.fsm.hdr.fecI s.fsm.hdr.fecO := by
  unfold bitLimit
  obtain h | h := h
  · rw [h]; rfl
  · rw [h]; rfl

theorem headerDone_frames (s : State) : (headerDone s).frames = s.frames := by
  obtain h | ⟨sch, hdr, -, h⟩ := headerDone_cases s
  · rw [h, doReset_frames]
  · rw [h, startPayload_frames]

theorem headerDone_phase_cnt (s : State) :
    ((headerDone s).fsm.phase = .payload ∨ (headerDone s).fsm.phase = .seek) ∧ (headerDone s).fsm.cnt = 0 := by
  obtain h | ⟨sch, hdr, -, h⟩ := headerDone_cases s
  · rw [h, doReset_fsm]; exact ⟨.inr rfl, rfl⟩
  · rw [h, startPayload_fsm]; exact ⟨.inl rfl, rfl⟩

theorem payloadDone_frames (s : State) :
    ∃ rest, (payloadDone s).frames = s.frames ++ [headerWord0 s.fsm.hdr :: rest] := ⟨_, rfl⟩

/-- Every way of a symbol but the end of a payload leaves the frame port alone. -/
theorem symbol_frames (h : s.fsm.phase ≠ .payload ∨ s.fsm.cnt + 1 ≠ s.fsm.paySyms) :
    (symbol y s).frames = s.frames := by
  obtain ⟨-, -, e⟩ | ⟨d, -, -, e⟩ | ⟨-, -, e⟩ | ⟨-, -, e⟩ | ⟨hp, hcnt, -⟩ | ⟨-, -, e⟩ | ⟨-, e⟩ := symbol_cases y s
  · rw [e]
  · rw [e, detect_frames]
  · rw [e, headerDone_frames, takeSymbol_frames]
  · rw [e, takeSymbol_frames]
  · exact h.elim (absurd hp) (absurd hcnt)
  · rw [e, takeSymbol_frames]
  · rw [e, doReset_frames]

end

/-- Settles O51: phase by phase, the state between the demodulation and a part's end being `takeSymbol`'s. -/
theorem symbolTransitions : Obligations.SymbolTransitions := by
  intro y s _
  refine ⟨fun hp => ⟨symbol_seek_none hp, fun d hd => ⟨symbol_seek_some hp hd, ?detected⟩⟩, fun hp => ?taken,
    fun hp hcnt => ?headerEnds, fun hp hcnt => ?payloadEnds, symbol_frames⟩
  case detected => rw [symbol_seek_some hp hd, detect_fsm]
  case taken =>
    exact ⟨_, _, _, _, bitLimit s, takeSymbol y s, rfl, rfl, rfl, bitLimit_eq hp, rfl, symbol_header, symbol_payload⟩
  case headerEnds => rw [symbol_header hp, if_pos hcnt]; exact headerDone_phase_cnt _
  case payloadEnds => rw [symbol_payload hp, if_pos hcnt]; exact ⟨rfl, payloadDone_frames _⟩

/-! ### The header words and the frame record (R32, R360) -/

theorem toNat_joined {m n : Nat} (x : BitVec m) (y : BitVec n) : (x ++ y).toNat = x.toNat * 2 ^ n + y.toNat := by
  rw [BitVec.toNat_append, ← Nat.shiftLeft_add_eq_or_of_lt y.isLt, Nat.shiftLeft_eq]

theorem headerWord0_eq (h : Header) :
    headerWord0 h = BitVec.ofNat 32 (h.len.toNat * 2 ^ 16 + h.mod.toNat * 2 ^ 8 + h.bps.toNat) := by
  have hnat : (h.len ++ h.mod ++ h.bps).toNat = h.len.toNat * 2 ^ 16 + h.mod.toNat * 2 ^ 8 + h.bps.toNat := by
    rw [toNat_joined, toNat_joined]
    omega
  rw [← hnat, BitVec.ofNat_toNat]
  rfl

theorem headerWord1_eq (h : Header) : headerWord1 h = BitVec.ofNat 32 (h.fecO.id * 2 ^ 8 + h.fecI.id) := by
  rw [headerWord1, Nat.mul_comm]
  rfl

theorem fecId_le (f : Fec) : f.id ≤ 2 := by cases f <;> decide

/-- The valid bit stands alone above the ids. -/
theorem toNat_recordWord1 (h : Header) (ok : Bool) :
    (headerWord1 h ||| (if ok then 0x80000000 else 0)).toNat = ok.toNat * 2 ^ 31 + h.fecO.id * 2 ^ 8 + h.fecI.id := by
  have ho := fecId_le h.fecO
  have hi := fecId_le h.fecI
  have hids : (headerWord1 h).toNat = h.fecO.id * 2 ^ 8 + h.fecI.id := by
    rw [headerWord1_eq, BitVec.toNat_ofNat]
    omega
  cases ok with
  | false =>
    have hor : headerWord1 h ||| 0 = headerWord1 h := BitVec.or_zero
    rw [if_neg Bool.false_ne_true, hor, hids, Bool.toNat_false, Nat.zero_mul, Nat.zero_add]
  | true =>
    have hbit : (0x80000000 : Word).toNat = 1 <<< 31 := rfl
    rw [if_pos rfl, BitVec.toNat_or, Nat.lor_comm, hbit, ← Nat.shiftLeft_add_eq_or_of_lt (by omega), hids,
      Nat.shiftLeft_eq, Bool.toNat_true, Nat.add_assoc]

/-- Settles O53: eight words stand before the packed message, which unpacks again (R85). -/
theorem frameRecordWords : Obligations.FrameRecordWords := by
  intro h msg ok st hlen
  refine ⟨headerWord1 h ||| (if ok then 0x80000000 else 0), toNat_recordWord1 h ok, ?words, ?length, ?bytes⟩
  case words => rw [frameRecord, headerWord0_eq]
  case length => rw [frameRecord, List.length_append, length_packBytes, hlen]; rfl
  case bytes =>
    have hdrop : (frameRecord h msg ok st).drop 8 = packBytes msg ++ [] := (List.append_nil _).symm
    rw [hdrop, ← hlen, unpackBytes_packBytes]

/-! ### The ends of the frame parts (R345, R355, R358, R362) -/

theorem schemeId_range (sch : Scheme) : 1 ≤ sch.id ∧ sch.id ≤ 6 := by cases sch <;> decide

theorem schemeId_inj {a b : Scheme} (h : a.id = b.id) : a = b :=
  Option.some.inj (by rw [← schemeOfId_id a, h, schemeOfId_id])

/-! The length field is two bytes, high byte first. -/

theorem toNat_lengthField (hi lo : Byte) : (hi ++ lo).toNat = 256 * hi.toNat + lo.toNat := by
  rw [toNat_joined]
  omega

theorem lengthField_eq (hi lo : Byte) : (hi ++ lo : BitVec 16) = BitVec.ofNat 16 (256 * hi.toNat + lo.toNat) := by
  rw [← toNat_lengthField, BitVec.ofNat_toNat]
  rfl

theorem toNat_ofNat_lengthField (hi lo : Byte) :
    (BitVec.ofNat 16 (256 * hi.toNat + lo.toNat)).toNat = 256 * hi.toNat + lo.toNat := by
  rw [← lengthField_eq, toNat_lengthField]

section
variable {m0 m1 m2 m3 m4 m5 : Byte} {maxPayload : Nat}

/-- A header message whose six fields are ones the block supports. -/
theorem parseHeader_of_supported {sch : Scheme} {fi fo : Fec} (hid : sch.id = m0.toNat) (hbps : sch.bps = m1.toNat)
    (hfi : fi.id = m4.toNat) (hfo : fo.id = m5.toNat) (hlen : 256 * m2.toNat + m3.toNat ≤ maxPayload) :
    parseHeader maxPayload [m0, m1, m2, m3, m4, m5] =
      some (sch,
        { mod := m0, bps := m1, len := BitVec.ofNat 16 (256 * m2.toNat + m3.toNat), fecI := fi, fecO := fo }) := by
  simp only [parseHeader, ← hid, ← hfi, ← hfo, ← hbps, schemeOfId_id, fecOfId_id, lengthField_eq,
    toNat_ofNat_lengthField, hlen, decide_true, Bool.and_true, if_true]

theorem supported_of_parseHeader {p : Scheme × Header}
    (h : parseHeader maxPayload [m0, m1, m2, m3, m4, m5] = some p) :
    ∃ (sch : Scheme) (fi fo : Fec), sch.id = m0.toNat ∧ sch.bps = m1.toNat ∧ fi.id = m4.toNat ∧ fo.id = m5.toNat ∧
      256 * m2.toNat + m3.toNat ≤ maxPayload := by
  unfold parseHeader at h
  dsimp only at h
  split at h
  · next sch fi fo hsch hfi hfo =>
    split at h
    · next hfits =>
      simp only [Bool.and_eq_true, decide_eq_true_eq, toNat_lengthField] at hfits
      obtain ⟨hbps, hlen⟩ := hfits
      exact ⟨sch, fi, fo, schemeId_of_ofId hsch, hbps.symm, fecId_of_ofId hfi, fecId_of_ofId hfo, hlen⟩
    · cases h
  · cases h

/-- A header message with a field the block does not support. -/
theorem parseHeader_of_unsupported
    (h : m0 = 0 ∨ 6 < m0.toNat ∨ (∃ sch : Scheme, sch.id = m0.toNat ∧ sch.bps ≠ m1.toNat) ∨ 2 < m4.toNat ∨
      2 < m5.toNat ∨ maxPayload < 256 * m2.toNat + m3.toNat) :
    parseHeader maxPayload [m0, m1, m2, m3, m4, m5] = none := by
  refine Option.eq_none_iff_forall_ne_some.2 fun p hp => ?_
  obtain ⟨sch, fi, fo, hid, hbps, hfi, hfo, hlen⟩ := supported_of_parseHeader hp
  have hsch := schemeId_range sch
  have hi := fecId_le fi
  have ho := fecId_le fo
  obtain rfl | hbig | ⟨other, hother, hne⟩ | hbig | hbig | hbig := h
  · exact absurd hid (Nat.ne_of_gt hsch.1)
  · omega
  · exact hne (schemeId_inj (hother.trans hid.symm) ▸ hbps)
  · omega
  · omega
  · omega

end

section
variable {s : State}

/-- A part whose bits are all there is decoded by the chain, and takes no draw. -/
theorem frameDecode_of_le {n : Nat} {fi fo : Fec} (h : chainL2 n fi fo ≤ s.fsm.bits.length) :
    frameDecode n fi fo s =
      ((chainDecode n fi fo s.cfg.D1 s.cfg.D2 s.fsm.bits).1, (chainDecode n fi fo s.cfg.D1 s.cfg.D2 s.fsm.bits).2,
        s.draws) := if_pos h

theorem headerVerdict_of_decode {msg : List Byte} {ok : Bool}
    (hbits : chainL2 6 s.cfg.hdrFi s.cfg.hdrFo ≤ s.fsm.bits.length)
    (hdec : chainDecode 6 s.cfg.hdrFi s.cfg.hdrFo s.cfg.D1 s.cfg.D2 s.fsm.bits = (msg, ok)) :
    headerVerdict s = (if ok then parseHeader s.cfg.maxPayload msg else none) ∧
      (frameDecode 6 s.cfg.hdrFi s.cfg.hdrFo s).2.2 = s.draws := by
  rw [headerVerdict, frameDecode_of_le hbits, hdec]
  exact ⟨rfl, rfl⟩

theorem toNat_payloadStats_nPay (ok : Bool) :
    (payloadStats ok s).nPay.toNat =
      if ok then min (s.stats.nPay.toNat + 1) s.stats.nHdr.toNat else s.stats.nPay.toNat := by
  cases ok with
  | false => rfl
  | true => exact toNat_countUp s.stats.nPay s.stats.nHdr.isLt

theorem payloadStats_cfo (ok : Bool) : (payloadStats ok s).cfo = phaseToRad s.nco.omega := by
  simp only [payloadStats]

theorem payloadStats_evm (ok : Bool) : (payloadStats ok s).evm = s.fsm.evmAcc.div (R.ofNat s.fsm.paySyms) := by
  simp only [payloadStats]

end

/-- Settles O52: a header ends by its verdict, a payload always in its record and a reset. -/
theorem framePartsEnd : Obligations.FramePartsEnd := by
  refine ⟨fun s m0 m1 m2 m3 m4 m5 ok hbits hdec => ?header, fun s msg ok hbits hdec => ?payload⟩
  case header =>
    obtain ⟨hverdict, hdraws⟩ := headerVerdict_of_decode hbits hdec
    refine ⟨fun sch fi fo hok hid hbps hfi hfo hlen => ?valid, fun hbad => ?invalid⟩
    case valid =>
      rw [if_pos hok, parseHeader_of_supported hid hbps hfi hfo hlen] at hverdict
      refine ⟨_, toNat_countUp s.stats.nHdr s.stats.nDet.isLt, ?_⟩
      rw [headerDone_of_some hverdict, startPayload_eq, hdraws, headerWord0_eq, headerWord1_eq]
      simp only [toNat_ofNat_lengthField, hfi, hfo, hbps]
    case invalid =>
      have hnone : headerVerdict s = none := by
        rw [hverdict]
        obtain rfl | hbad := hbad
        · rfl
        · rw [parseHeader_of_unsupported hbad, ite_self]
      rw [headerDone_of_none hnone, hdraws]
  case payload =>
    have hlen : msg.length = s.fsm.hdr.len.toNat := by
      rw [← length_chainDecode s.fsm.hdr.len.toNat s.fsm.hdr.fecI s.fsm.hdr.fecO s.cfg.D1 s.cfg.D2 s.fsm.bits, hdec]
    refine ⟨payloadStats ok s, rfl, rfl, toNat_payloadStats_nPay ok, rfl, payloadStats_cfo ok, payloadStats_evm ok,
      hlen, ?state⟩
    case state => rw [payloadDone, frameDecode_of_le hbits, hdec]

/-! ### The constellation points (R348) -/

/-- Scaled up again, each of the `2 ^ q` coordinates of an axis lies in its own decision interval. -/
def AxisExact (q : Nat) (nrm : R) : Prop := ∀ p < 2 ^ q, qamLevel q ((qamCoord q nrm p).mul nrm) = p

theorem axisExact_qam16 : AxisExact 2 Config.nrm16 := by unfold AxisExact; decide +kernel

theorem axisExact_qam64 : AxisExact 3 Config.nrm64 := by unfold AxisExact; decide +kernel

theorem axisExact_qam256 : AxisExact 4 Config.nrm256 := by unfold AxisExact; decide +kernel

theorem grayInv_lt_and_gray_grayInv : ∀ q ≤ 4, ∀ g < 2 ^ q, grayInv q g < 2 ^ q ∧ gray (grayInv q g) = g := by decide

/-- A QAM point is decided axis by axis, and its index is put together from the two axes' Gray codes. -/
theorem decideQam_qamPoint {q : Nat} {nrm : R} (hq : q ≤ 4) (haxis : AxisExact q nrm) {u : Nat}
    (hu : u < 2 ^ q * 2 ^ q) : decideQam q nrm (qamPoint q nrm u) = (u, qamPoint q nrm u) := by
  have hI : u >>> q < 2 ^ q := by rw [Nat.shiftRight_eq_div_pow]; exact Nat.div_lt_of_lt_mul hu
  have hQ : u % 2 ^ q < 2 ^ q := Nat.mod_lt _ (Nat.two_pow_pos q)
  obtain ⟨hltI, hgrayI⟩ := grayInv_lt_and_gray_grayInv q hq _ hI
  obtain ⟨hltQ, hgrayQ⟩ := grayInv_lt_and_gray_grayInv q hq _ hQ
  have hindex : 2 ^ q * (u >>> q) + u % 2 ^ q = u := by rw [Nat.shiftRight_eq_div_pow]; exact Nat.div_add_mod u _
  rw [decideQam_eq, qamPoint, haxis _ hltI, haxis _ hltQ, hgrayI, hgrayQ, hindex]

/-- The 14 points of the schemes without levels. -/
theorem decideSymbol_point_psk :
    ∀ sch ∈ [Scheme.bpsk, .qpsk, .psk8], ∀ u < 2 ^ sch.bps, decideSymbol sch (point sch u) = (u, point sch u) := by
  decide +kernel

theorem decideSymbol_point (sch : Scheme) {u : Nat} (hu : u < 2 ^ sch.bps) :
    decideSymbol sch (point sch u) = (u, point sch u) := by
  cases sch with
  | bpsk | qpsk | psk8 => exact decideSymbol_point_psk _ (by decide) u hu
  | qam16 => exact decideQam_qamPoint (by decide) axisExact_qam16 hu
  | qam64 => exact decideQam_qamPoint (by decide) axisExact_qam64 hu
  | qam256 => exact decideQam_qamPoint (by decide) axisExact_qam256 hu

/-- Settles O38: `demod` reports the decision. -/
theorem pointsDemodulate : Obligations.PointsDemodulate := by
  intro sch u hu
  have h := decideSymbol_point sch hu
  exact ⟨congrArg Prod.fst h, congrArg Prod.snd h⟩

/-! ### The RESET phase (R356) and the accessors (R365 to R367) -/

/-- Settles O50: the named updates of the state that `do_reset` is made of, written out. -/
theorem frameReset : Obligations.FrameReset := fun _ _ => rfl

/-- Settles O54: without operands each accessor completes, and THRESH is the register at 0x20. -/
theorem accessorCommands : Obligations.AccessorCommands := fun _ => ⟨rfl, rfl, rfl, rfl⟩

end Sys2Proof.Machine

/-! PROOFS of the families 47_config_commands.md, 60_exceptions.md and 70_reset_and_hazards.md: NOP (R390), the start of
the receiver by CONFIGURE (R392, R395, R423), the ending of every command (R421, R422) and the reset state (R450). The
ending is read off `exec_eq`: a failed command is one recorded code, and `Effect.keeps_ports`, `Effect.length_response`
and `Effect.err_cases` say what a completed one shows at the ports and in ERR. -/

namespace Sys2Proof.Machine

/-! ### NOP (R390) -/

theorem exec_nop (s : State) : exec (.nop []) s = .next (s.respond []) := rfl

/-- Settles O10: a command of format Z without response words, whose effect is to respond. -/
theorem nopDoesNothing : Obligations.NopDoesNothing :=
  ⟨encodedZ (o := .nop) rfl rfl, exec_nop, fun s ws hlen => exec_of_wrong_count (i := .nop ws) s rfl hlen⟩

/-! ### The start of the receiver (R392, R395, R423) -/

/-- Settles O16: the two endings of CONFIGURE, and the started state read field by field. -/
theorem configureStarts : Obligations.ConfigureStarts := by
  intro s
  refine ⟨fun c hc => exec_configure_error hc, fun cfg ref hok => ⟨_, exec_configure_ok hok, ?started⟩⟩
  case started => and_intros <;> rfl

/-! ### How a command ends (R421, R422) -/

/-- A register write reaches neither port, and the error record by clearing it alone. -/
theorem regWritten_ports_err {s t : State} {v : Word} {r : Reg} (h : regWritten s v r = .ok t) :
    t.resp = s.resp ∧ t.cmds = s.cmds ∧ (t.err = s.err ∨ t.err = { first := .none, last := .none }) := by
  obtain ⟨q, rfl⟩ | rfl | ⟨n, rfl⟩ | ⟨-, rfl⟩ | ⟨-, rfl⟩ := regWritten_ok h
  case inr.inl => exact ⟨rfl, rfl, .inr rfl⟩
  all_goals exact ⟨rfl, rfl, .inl rfl⟩

section
variable {s t : State} {i : Instr} {r : List Word}

/-- A meaning leaves the command and response ports to `step` and `settle`. -/
theorem Effect.keeps_ports (h : Effect s i t r) : t.resp = s.resp ∧ t.cmds = s.cmds := by
  cases h with
  | regWrite a v q hq t ht =>
    obtain ⟨hresp, hcmds, -⟩ := regWritten_ports_err ht
    exact ⟨hresp, hcmds⟩
  | execute n ws hn hc =>
    have hkeep := runSamples_streamed (samples ws) s
    exact ⟨hkeep.resp, hkeep.cmds⟩
  | _ => exact ⟨rfl, rfl⟩

theorem Effect.err_cases (h : Effect s i t r) :
    t.err = s.err ∨ (t.err = { first := .none, last := .none } ∧ (i.op = .resetBlock ∨ i.op = .regWrite)) := by
  cases h with
  | resetBlock => exact .inr ⟨rfl, .inl rfl⟩
  | regWrite a v q hq t ht =>
    obtain ⟨-, -, herr⟩ := regWritten_ports_err ht
    exact herr.imp_right fun herr => ⟨herr, .inr rfl⟩
  | execute n ws hn hc => exact .inl (runSamples_streamed (samples ws) s).err
  | _ => exact .inl rfl

theorem length_detResponse (d : Option Detection) : (detResponse d).length = 6 := by cases d <;> rfl

/-- A completed command answers as many words as the opcode map lists (R116). -/
theorem Effect.length_response (h : Effect s i t r) {n : Nat} (hn : responseWords i.op = some n) : r.length = n := by
  cases h with
  | detPush re im hc => exact (length_detResponse _).trans (Option.some.inj hn)
  | ssExecute | dilDeinterleave | fecDecode | decDecode => exact nomatch hn
  | _ => exact Option.some.inj hn

theorem Effect.configure_response (h : Effect s i t r) (hop : i.op = .configure) : r = [0] := by
  cases h with
  | configure => rfl
  | _ => exact nomatch hop

end

/-- Settles O6: a command fails with a code, or its effect is completed by its response. -/
theorem everyCommandEnds : Obligations.EveryCommandEnds := by
  intro i s
  obtain ⟨x, hexec, ⟨c, rfl, hc⟩ | ⟨t, r, rfl, heffect⟩⟩ := exec_eq i s
  case inl =>
    rw [settle_error, failResponse_eq] at hexec
    exact .inl ⟨c, hc, hexec⟩
  case inr =>
    rw [settle_ok] at hexec
    obtain ⟨hresp, hcmds⟩ := heffect.keeps_ports
    exact .inr ⟨t.respond r, r, hexec, congrArg (· ++ [r]) hresp, hcmds, fun _ hn => heffect.length_response hn,
      heffect.configure_response, heffect.err_cases⟩

/-! ### The reset state (R450) -/

/-- RESET_BLOCK has nothing to reset there, so that what it establishes holds of the reset state. -/
theorem resetBlock_reset : resetBlock State.reset = State.reset := rfl

theorem reset_memoryOk : MemoryOk State.reset := resetBlock_reset ▸ resetBlock_memoryOk State.reset

theorem reset_frameOk : FrameOk State.reset := resetBlock_reset ▸ resetBlock_frameOk State.reset

/-- Settles O55: the five invariants, one by one. -/
theorem resetIsSafe : Obligations.ResetIsSafe :=
  ⟨reset_memoryOk, reset_statsOrdered, reset_frameOk, reset_levelsOk, reset_timingOk⟩

end Sys2Proof.Machine
